-- ==== Sys2Proof/Word.lean ====
section
/-! DEFINITION. The word types of the FDAE (spec/00_scope.md R7, R10): 64-bit registers, 32-bit command and
status words, bytes of the bus binding, and the two ends of the signed 64-bit range. -/

namespace Sys2Proof

/-- A 64-bit register: `OPA`, `OPB`, `RES` (R7, parameter W). -/
abbrev Word := BitVec 64

/-- A 32-bit register: `CMD`, `STATUS` (R7). -/
abbrev CmdWord := BitVec 32

/-- A byte of the bus binding (20_memory.md R56). -/
abbrev Byte := BitVec 8

/-- `MIN = −2^63`, "the most-negative value, which has no positive negation" (R7). -/
abbrev MIN : Int := -9223372036854775808

/-- `MAX = 2^63 − 1` (R7). -/
abbrev MAX : Int := 9223372036854775807

end Sys2Proof
end

