-- ==== Sys2Proof/Config.lean ====
section
/-! DEFINITION. The parameters of an FDAE (spec/00_scope.md R7; 93_implementation_defined.md P1 to P4). Those the
spec leaves OPEN are opaque: no proof can see their value. -/

namespace Sys2Proof

/-- Legal scales are 0 to `SCALE_MAX` = 18 (R7). -/
def Config.scaleMax : Nat := 18

/-- `POW_EXP_MAX`, the largest magnitude of a POW exponent (R7, 44_sqrt_pow.md R205). PRESUMED by the spec from
general knowledge (G9); log 9. -/
def Config.powExpMax : Nat := 999999999

/-- OPEN: how many ports there are beyond port 0 (P1, R34: "at least 1"); log 6. -/
opaque Config.extraPorts : Nat

/-- `NPORTS` ≥ 1 (R7, R34). -/
def Config.nports : Nat := Config.extraPorts + 1

/-- Is there a port of this number, that is, `p < NPORTS` (10_state.md R34)? Port 0 always exists. -/
def Config.hasPort : Nat → Bool
  | 0 => true
  | p + 1 => decide (p < Config.extraPorts)

/-- OPEN: the bus address of port 0 in units of eight bytes (P2; D12: "8-byte aligned"); log 6. -/
opaque Config.baseSlot : Nat

/-- `BASE`, the bus byte address of port 0 register 0 (20_memory.md R57). -/
def Config.base : Nat := 8 * Config.baseSlot

/-- OPEN: how many blocks of 64 bytes lie between two ports beyond their own block (P3); log 6. -/
opaque Config.extraStride : Nat

/-- `PORT_STRIDE` ≥ 64, a multiple of 64 (20_memory.md R57). -/
def Config.stride : Nat := 64 * (Config.extraStride + 1)

end Sys2Proof
end

