-- ==== Sys2Proof/Machine/Arith.lean ====
section
/-! DEFINITION. The integer notation of the spec (spec/00_scope.md R9 to R12): signed reading, wrapping, truncating
division, bit counts, the integer square root (44_sqrt_pow.md R202), base-2 logarithms of ratios (R213), the bits of
an exponent (R207, R212), and the byte order of the bus binding (20_memory.md R56). Everything else is on unbounded
integers (R9). -/

namespace Sys2Proof.Machine

/-- `s64(v)`: a 64-bit pattern read as a signed integer (R11). -/
def s64 (v : Word) : Int := v.toInt

/-- `u64(x)`: the 64-bit pattern of an integer (R11); of any integer, its low 64 bits. -/
def u64 (x : Int) : Word := BitVec.ofInt 64 x

/-- `wrap64(x)`: the signed value of the low 64 bits of `x` (R11). -/
def wrap64 (x : Int) : Int := s64 (u64 x)

/-- `quot(a, d)`: the quotient truncated toward zero (R12). -/
def quot (a d : Int) : Int := a.tdiv d

/-- `rem(a, d) = a − d × quot(a, d)`, zero or of the sign of `a` (R12). -/
def rem (a d : Int) : Int := a.tmod d

/-- `sgn(x)` (R12). -/
def sgn (x : Int) : Int := if x < 0 then -1 else if x = 0 then 0 else 1

/-- `bitlen(x) = floor(log2 x) + 1` for `x > 0` (R12); 0 for 0. -/
def bitlen (x : Nat) : Nat := if x = 0 then 0 else Nat.log2 x + 1

/-- `nlz(v)`: the number of leading zero bits of a 64-bit pattern, 64 for zero (R12). -/
def nlz (v : Word) : Nat := 64 - bitlen v.toNat

/-- The digit-by-digit square root of 44_sqrt_pow.md R202 over the low `k` bit pairs of `n`, top pair first: the
root and the remainder. -/
def sqrtPairs : Nat → Nat → Nat × Nat
  | 0, _ => (0, 0)
  | k + 1, n =>
    match sqrtPairs k (n / 4) with
    | (t, r) =>
      if 4 * t + 1 ≤ 4 * r + n % 4 then (2 * t + 1, 4 * r + n % 4 - (4 * t + 1))
      else (2 * t, 4 * r + n % 4)

/-- `isqrt(x) = floor(√x)` (R12). -/
def isqrt (n : Nat) : Nat := (sqrtPairs (bitlen n / 2 + 1) n).1

/-- Is `2^p ≤ u / d`? (44_sqrt_pow.md R213: "comparing `u` with `10^s × 2^p` (or `u × 2^(−p)` with `10^s`)".) -/
def pow2Le (p : Int) (u d : Nat) : Bool :=
  match p with
  | .ofNat k => decide (d * 2 ^ k ≤ u)
  | .negSucc k => decide (d ≤ u * 2 ^ (k + 1))

/-- The integer `p` with `2^p ≤ u / d < 2^(p+1)` for `u, d ≥ 1`, found as 44_sqrt_pow.md R213 says: "start from
`bitlen(u) − bitlen(10^s)` and correct by at most one". -/
def floorLog2 (u d : Nat) : Int :=
  if pow2Le (bitlen u - bitlen d : Int) u d then bitlen u - bitlen d else bitlen u - bitlen d - 1

/-- The bits of an exponent, most significant first (44_sqrt_pow.md R207: "exponent bits, most significant first");
none for 0. -/
def bitsMsb (n : Nat) : List Bool := (List.range (bitlen n)).reverse.map n.testBit

/-- `x^n mod m` by square and multiply over the bits of `n` (44_sqrt_pow.md R217: "computed by modular
exponentiation"). -/
def powMod (x n m : Nat) : Nat :=
  (bitsMsb n).foldl (fun acc b => if b then acc * acc % m * x % m else acc * acc % m) 1

/-- The little-endian bytes of a value, lowest address first (20_memory.md R56). -/
def leBytes : Nat → Nat → List Byte
  | 0, _ => []
  | k + 1, v => BitVec.ofNat 8 v :: leBytes k (v / 256)

/-- The value of little-endian bytes (20_memory.md R56: "the byte at the lowest address of a register holds bits
7:0"). -/
def ofLeBytes : List Byte → Nat
  | [] => 0
  | b :: rest => b.toNat + 256 * ofLeBytes rest

end Sys2Proof.Machine
end

