-- ==== Sys2Proof/Syntax.lean ====
section
/-! DEFINITION. The 24 commands of the FDAE as syntax (spec/30_encoding.md R76), one constructor per row of
spec/opcode_table.json. Every command carries its whole selector (R71), also the fields it does not use, so that no
bit of a command word is lost. -/

namespace Sys2Proof

/-- The eight rounding modes in code order 0 to 7 (30_encoding.md R72). -/
inductive RoundingMode
  | up | down | ceiling | floor | halfUp | halfDown | halfEven | unnecessary
  deriving DecidableEq, Repr

/-- The overflow mode: bit value 0 unchecked, 1 checked (30_encoding.md R73). -/
inductive OverflowMode
  | unchecked | checked
  deriving DecidableEq, Repr

/-- The eight entries of a row of the metrics LUT in code order 0 to 7 (40_scale_metrics.md R101). -/
inductive Metric
  | sf | maxInt | minInt | halfSf | sqrtSf | sfBits | dblMin | dblMax
  deriving DecidableEq, Repr

/-- The selector of a command, the document's engine instance (30_encoding.md R71, 47_dispatch_and_text.md R270).
The scale is the raw 5-bit field; 0 to 18 are legal (WellFormed.lean). -/
structure Selector where
  scale : BitVec 5
  mode : RoundingMode
  ovf : OverflowMode
  deriving DecidableEq, Repr

/-- The commands (30_encoding.md R76). FROMUNSC and TOUNSC carry a second scale in the aux field, METRIC the LUT
entry; in every other command aux is 0 (R74). -/
inductive Instr
  | nop (sel : Selector)
  | add (sel : Selector)
  | sub (sel : Selector)
  | neg (sel : Selector)
  | abs (sel : Selector)
  | avg (sel : Selector)
  | shl (sel : Selector)
  | shr (sel : Selector)
  | mul (sel : Selector)
  | sqr (sel : Selector)
  | div (sel : Selector)
  | inv (sel : Selector)
  | sqrt (sel : Selector)
  | pow (sel : Selector)
  | mulp10 (sel : Selector)
  | divp10 (sel : Selector)
  | fromlong (sel : Selector)
  | tolong (sel : Selector)
  | fromunsc (sel : Selector) (aux : BitVec 5)
  | tounsc (sel : Selector) (aux : BitVec 5)
  | fromdbl (sel : Selector)
  | todbl (sel : Selector)
  | modsf (sel : Selector)
  | metric (sel : Selector) (k : Metric)
  deriving DecidableEq, Repr

end Sys2Proof
end

