-- ==== Sys2Proof/WellFormed.lean ====
section
/-! DEFINITION. Which commands are well formed: the scale field, and the aux field where it is a scale, lie in 0 to
18 (spec/30_encoding.md R71, R74). The other fields have no illegal value in this syntax (R72, R73, R77). -/

namespace Sys2Proof

/-- A scale field is legal when it is 0 to 18 (30_encoding.md R70, R71). -/
def legalScale (s : BitVec 5) : Bool := decide (s.toNat ≤ Config.scaleMax)

/-- A selector is legal when its scale is: "there is no encodable rounding mode or overflow mode that is out of
range" (47_dispatch_and_text.md R271). -/
def Selector.wf (sel : Selector) : Bool := legalScale sel.scale

/-- The selector of a command: the fields scale, mode and ovf that every command carries (30_encoding.md R71). -/
def Instr.sel : Instr → Selector
  | .nop sel => sel
  | .add sel => sel
  | .sub sel => sel
  | .neg sel => sel
  | .abs sel => sel
  | .avg sel => sel
  | .shl sel => sel
  | .shr sel => sel
  | .mul sel => sel
  | .sqr sel => sel
  | .div sel => sel
  | .inv sel => sel
  | .sqrt sel => sel
  | .pow sel => sel
  | .mulp10 sel => sel
  | .divp10 sel => sel
  | .fromlong sel => sel
  | .tolong sel => sel
  | .fromunsc sel _ => sel
  | .tounsc sel _ => sel
  | .fromdbl sel => sel
  | .todbl sel => sel
  | .modsf sel => sel
  | .metric sel _ => sel

/-- The second scale of FROMUNSC and TOUNSC (30_encoding.md R74). -/
def Instr.auxScale? : Instr → Option (BitVec 5)
  | .fromunsc _ aux => some aux
  | .tounsc _ aux => some aux
  | .nop _ | .add _ | .sub _ | .neg _ | .abs _ | .avg _ | .shl _ | .shr _ => none
  | .mul _ | .sqr _ | .div _ | .inv _ | .sqrt _ | .pow _ | .mulp10 _ | .divp10 _ => none
  | .fromlong _ | .tolong _ | .fromdbl _ | .todbl _ | .modsf _ | .metric _ _ => none

/-- A command is well formed when its scale is legal in every case (30_encoding.md R71: "The scale is checked in
every command") and its second scale, where it has one, is legal too (R74). -/
def Instr.wf (i : Instr) : Bool :=
  i.sel.wf && (match i.auxScale? with | some aux => legalScale aux | none => true)

end Sys2Proof
end

