-- ==== Sys2Proof/Decode.lean ====
section
/-! DEFINITION. Decoding and encoding of command words (spec/30_encoding.md R70 to R80), the selector algebra of
47_dispatch_and_text.md R271, and the reading of a row of spec/opcode_table.json. Decoding is total: every 32-bit
word is a command with legal fields or one of the four errors of R78, checked in the order of R78. -/

namespace Sys2Proof

/-- The field `w[hi:lo]` of a command word as an unsigned integer (00_scope.md R10). -/
def bits (w : CmdWord) (hi lo : Nat) : Nat := w.toNat / 2 ^ lo % 2 ^ (hi + 1 - lo)

/-- `word[5:0]` (R70). -/
def opField (w : CmdWord) : Nat := bits w 5 0

/-- `word[10:6]` (R70). -/
def scaleField (w : CmdWord) : BitVec 5 := BitVec.ofNat 5 (bits w 10 6)

/-- `word[13:11]` (R70). -/
def modeField (w : CmdWord) : Nat := bits w 13 11

/-- `word[14]` (R70). -/
def ovfField (w : CmdWord) : Nat := bits w 14 14

/-- `word[19:15]` (R70). -/
def auxField (w : CmdWord) : BitVec 5 := BitVec.ofNat 5 (bits w 19 15)

/-- `word[31:20]`, reserved, must be 0 (R70). -/
def zeroField (w : CmdWord) : Nat := bits w 31 20

/-- The code of a rounding mode (R72). -/
def RoundingMode.code : RoundingMode → Nat
  | .up => 0
  | .down => 1
  | .ceiling => 2
  | .floor => 3
  | .halfUp => 4
  | .halfDown => 5
  | .halfEven => 6
  | .unnecessary => 7

/-- The rounding mode of a 3-bit code; all eight codes are legal (R72). -/
def RoundingMode.ofCode : Nat → RoundingMode
  | 0 => .up
  | 1 => .down
  | 2 => .ceiling
  | 3 => .floor
  | 4 => .halfUp
  | 5 => .halfDown
  | 6 => .halfEven
  | _ => .unnecessary

/-- The overflow bit (R73). -/
def OverflowMode.code : OverflowMode → Nat
  | .unchecked => 0
  | .checked => 1

/-- The overflow mode of a bit (R73). -/
def OverflowMode.ofCode : Nat → OverflowMode
  | 0 => .unchecked
  | _ => .checked

/-- The selector `k` of a LUT entry (40_scale_metrics.md R101). -/
def Metric.code : Metric → Nat
  | .sf => 0
  | .maxInt => 1
  | .minInt => 2
  | .halfSf => 3
  | .sqrtSf => 4
  | .sfBits => 5
  | .dblMin => 6
  | .dblMax => 7

/-- The LUT entry of an aux field; 8 to 31 are reserved (R74). -/
def Metric.ofCode : Nat → Option Metric
  | 0 => some .sf
  | 1 => some .maxInt
  | 2 => some .minInt
  | 3 => some .halfSf
  | 4 => some .sqrtSf
  | 5 => some .sfBits
  | 6 => some .dblMin
  | 7 => some .dblMax
  | _ => none

/-- The selector of a word: its scale, mode and ovf fields (R71; 47_dispatch_and_text.md R270). -/
def Selector.ofWord (w : CmdWord) : Selector :=
  { scale := scaleField w, mode := RoundingMode.ofCode (modeField w), ovf := OverflowMode.ofCode (ovfField w) }

/-- `get(s, m, o)`: the selector, defined for scales 0 to 18 (47_dispatch_and_text.md R271). -/
def Selector.get (s : Nat) (m : RoundingMode) (o : OverflowMode) : Option Selector :=
  if s ≤ Config.scaleMax then some { scale := BitVec.ofNat 5 s, mode := m, ovf := o } else none

/-- `deriveScale` (47_dispatch_and_text.md R271). -/
def Selector.deriveScale (sel : Selector) (s : BitVec 5) : Selector := { sel with scale := s }

/-- `deriveRounding` (47_dispatch_and_text.md R271). -/
def Selector.deriveRounding (sel : Selector) (m : RoundingMode) : Selector := { sel with mode := m }

/-- `deriveOverflow` (47_dispatch_and_text.md R271). -/
def Selector.deriveOverflow (sel : Selector) (o : OverflowMode) : Selector := { sel with ovf := o }

/-- The baseline "truncating" engine at scale 0, which is also what the assembler takes for omitted qualifiers
(R81; 47_dispatch_and_text.md R274). -/
def Selector.baseline : Selector := { scale := 0, mode := .down, ovf := .unchecked }

/-- How a word is refused by the checks 1 to 4 of R78 (codes and sub-causes: 60_exceptions.md R303). -/
inductive DecodeError
  /-- Check 1: `word[31:20]` is not 0. -/
  | reservedBits
  /-- Check 2: the opcode is 0x18 to 0x3F. -/
  | reservedOpcode
  /-- Check 3, and check 4 in FROMUNSC and TOUNSC: a scale is 19 to 31. -/
  | scaleRange
  /-- Check 4: aux is not 0 in a command without aux, or 8 to 31 in METRIC. -/
  | reservedAux
  deriving DecidableEq, Repr

/-- What the aux field of a command is (R74): unused, a scale, or a LUT entry. -/
inductive CommandForm
  | plain (c : Selector → Instr)
  | scaled (c : Selector → BitVec 5 → Instr)
  | lut (c : Selector → Metric → Instr)

/-- The opcode map (R76); 0x18 to 0x3F are reserved. -/
def formOf : Nat → Option CommandForm
  | 0x00 => some (.plain .nop)
  | 0x01 => some (.plain .add)
  | 0x02 => some (.plain .sub)
  | 0x03 => some (.plain .neg)
  | 0x04 => some (.plain .abs)
  | 0x05 => some (.plain .avg)
  | 0x06 => some (.plain .shl)
  | 0x07 => some (.plain .shr)
  | 0x08 => some (.plain .mul)
  | 0x09 => some (.plain .sqr)
  | 0x0A => some (.plain .div)
  | 0x0B => some (.plain .inv)
  | 0x0C => some (.plain .sqrt)
  | 0x0D => some (.plain .pow)
  | 0x0E => some (.plain .mulp10)
  | 0x0F => some (.plain .divp10)
  | 0x10 => some (.plain .fromlong)
  | 0x11 => some (.plain .tolong)
  | 0x12 => some (.scaled .fromunsc)
  | 0x13 => some (.scaled .tounsc)
  | 0x14 => some (.plain .fromdbl)
  | 0x15 => some (.plain .todbl)
  | 0x16 => some (.plain .modsf)
  | 0x17 => some (.lut .metric)
  | _ => none

/-- Check 4 of R78: the aux field against what the command allows. -/
def CommandForm.build (f : CommandForm) (sel : Selector) (aux : BitVec 5) : Except DecodeError Instr :=
  match f with
  | .plain c => if aux = 0 then .ok (c sel) else .error .reservedAux
  | .scaled c => if legalScale aux then .ok (c sel aux) else .error .scaleRange
  | .lut c =>
    match Metric.ofCode aux.toNat with
    | some k => .ok (c sel k)
    | none => .error .reservedAux

/-- Checks 1 to 4 of R78 in their order; what passes is one of the 24 commands with legal fields (R77). -/
def decode (w : CmdWord) : Except DecodeError Instr :=
  if zeroField w ≠ 0 then .error .reservedBits
  else
    match formOf (opField w) with
    | none => .error .reservedOpcode
    | some f =>
      if legalScale (scaleField w) then f.build (Selector.ofWord w) (auxField w)
      else .error .scaleRange

/-- `word(op, (s, m, o), aux) = op + s × 2^6 + m × 2^11 + o × 2^14 + aux × 2^15` (R70; 47_dispatch_and_text.md
R271). -/
def commandWord (op : Nat) (sel : Selector) (aux : Nat) : CmdWord :=
  BitVec.ofNat 32
    (op + sel.scale.toNat * 2 ^ 6 + sel.mode.code * 2 ^ 11 + sel.ovf.code * 2 ^ 14 + aux * 2 ^ 15)

/-- The opcode of a command (R76). -/
def Instr.opcode : Instr → Nat
  | .nop _ => 0x00
  | .add _ => 0x01
  | .sub _ => 0x02
  | .neg _ => 0x03
  | .abs _ => 0x04
  | .avg _ => 0x05
  | .shl _ => 0x06
  | .shr _ => 0x07
  | .mul _ => 0x08
  | .sqr _ => 0x09
  | .div _ => 0x0A
  | .inv _ => 0x0B
  | .sqrt _ => 0x0C
  | .pow _ => 0x0D
  | .mulp10 _ => 0x0E
  | .divp10 _ => 0x0F
  | .fromlong _ => 0x10
  | .tolong _ => 0x11
  | .fromunsc _ _ => 0x12
  | .tounsc _ _ => 0x13
  | .fromdbl _ => 0x14
  | .todbl _ => 0x15
  | .modsf _ => 0x16
  | .metric _ _ => 0x17

/-- The aux field of a command: a scale, a LUT entry, or 0 (R74). -/
def Instr.aux (i : Instr) : Nat :=
  match i with
  | .metric _ k => k.code
  | .fromunsc _ aux => aux.toNat
  | .tounsc _ aux => aux.toNat
  | .nop _ | .add _ | .sub _ | .neg _ | .abs _ | .avg _ | .shl _ | .shr _ => 0
  | .mul _ | .sqr _ | .div _ | .inv _ | .sqrt _ | .pow _ | .mulp10 _ | .divp10 _ => 0
  | .fromlong _ | .tolong _ | .fromdbl _ | .todbl _ | .modsf _ => 0

/-- The word of a command (R70, R76). -/
def encode (i : Instr) : CmdWord := commandWord i.opcode i.sel i.aux

/-- The command the decoder reads from an instruction of spec/opcode_table.json whose bits are `w` (bits from
`nbits` up are 0). A command word has 32 bits and is one value, not bytes (20_memory.md R56); a value with higher
bits set is no command word. -/
def decodeTableWord (nbits w : Nat) : Option Instr :=
  if w % 2 ^ nbits < 2 ^ 32 then
    match decode (BitVec.ofNat 32 (w % 2 ^ nbits)) with
    | .ok i => some i
    | .error _ => none
  else none

end Sys2Proof
end

