-- ==== Sys2Proof/Machine/Flags.lean ====
section
/-! DEFINITION. The outcome indicator of the FDAE. There are no condition codes, carries or sticky flags (spec/10_state.md
R28); the only record of an outcome is `STATUS` (R25), so this file holds the error classes (60_exceptions.md R300), their
codes and sub-causes (R302, R303) and the status word they make. -/

namespace Sys2Proof.Machine

/-- The sub-causes of INVALID_DOMAIN (60_exceptions.md R303). -/
inductive DomainCause
  | sqrtNegative | powExponentRange | scaleRange | textFormat
  deriving DecidableEq, Repr

/-- The sub-causes of ILLEGAL_COMMAND (60_exceptions.md R303). -/
inductive IllegalCause
  | reservedBits | reservedOpcode | reservedAux
  deriving DecidableEq, Repr

/-- The error classes with their sub-causes (60_exceptions.md R300, R302). `textFormat` is for a host text library;
no command raises it. -/
inductive CmdError
  | overflow
  | divByZero
  | roundingNecessary
  | invalidDomain (cause : DomainCause)
  | notFinite
  | illegalCommand (cause : IllegalCause)
  deriving DecidableEq, Repr

/-- `STATUS[3:0]` of an error (10_state.md R25; 60_exceptions.md R302). -/
def CmdError.code : CmdError → Nat
  | .overflow => 1
  | .divByZero => 2
  | .roundingNecessary => 3
  | .invalidDomain _ => 4
  | .notFinite => 5
  | .illegalCommand _ => 6

/-- `STATUS[7:4]` of an error (60_exceptions.md R303). -/
def CmdError.subCause : CmdError → Nat
  | .invalidDomain .sqrtNegative => 1
  | .invalidDomain .powExponentRange => 2
  | .invalidDomain .scaleRange => 3
  | .invalidDomain .textFormat => 4
  | .illegalCommand .reservedBits => 1
  | .illegalCommand .reservedOpcode => 2
  | .illegalCommand .reservedAux => 3
  | .overflow | .divByZero | .roundingNecessary | .notFinite => 0

/-- The status word of an error: `code(X) + sub × 2^4` (60_exceptions.md R301), bits 31:8 zero (10_state.md R25). -/
def CmdError.statusWord (e : CmdError) : CmdWord := BitVec.ofNat 32 (e.code + e.subCause * 2 ^ 4)

/-- The status word of a command that ended OK (10_state.md R25: code OK, sub 0). -/
def statusOk : CmdWord := 0

/-- The error a refused command word ends with (30_encoding.md R78). -/
def CmdError.ofDecode : DecodeError → CmdError
  | .reservedBits => .illegalCommand .reservedBits
  | .reservedOpcode => .illegalCommand .reservedOpcode
  | .scaleRange => .invalidDomain .scaleRange
  | .reservedAux => .illegalCommand .reservedAux

/-- `STATUS.code` (10_state.md R25). -/
def statusCode (w : CmdWord) : Nat := bits w 3 0

/-- `STATUS.sub` (10_state.md R25). -/
def statusSub (w : CmdWord) : Nat := bits w 7 4

end Sys2Proof.Machine
end

