-- ==== Sys2Proof/Machine/State.lean ====
section
/-! DEFINITION. The state of an FDAE (spec/10_state.md R20, R21, R35): the five registers of each port, and three
fields of the model's own (the port being addressed, the accesses the host has still to make, and what its last read
returned). The constant tables are no state (R20(b)); POW scratch is not represented (R31). -/

namespace Sys2Proof.Machine

/-- The registers of one port (10_state.md R21). Indices 5 to 7 hold nothing. -/
structure Port where
  /-- First operand, or a binary64 pattern; written by the host only (R22). -/
  opa : Word
  /-- Second operand, or the integer parameter n; written by the host only (R22). -/
  opb : Word
  /-- The last command word written (R23). -/
  cmd : CmdWord
  /-- The last result (R24). -/
  res : Word
  /-- The outcome of the last command (R25). -/
  status : CmdWord
  deriving DecidableEq, Repr

/-- A port after reset whose unspecified registers hold the given values (10_state.md R35: `CMD` and `STATUS` are 0,
`OPA`, `OPB` and `RES` "any 64-bit value"). -/
def Port.resetWith (opa opb res : Word) : Port :=
  { opa := opa, opb := opb, cmd := 0, res := res, status := 0 }

/-- The port right after reset. DESIGN CHOICE, unsafe: `OPA`, `OPB` and `RES` are 0, where the spec leaves them
unspecified (log 1). -/
def Port.reset : Port := Port.resetWith 0 0 0

/-- One access of a host (20_memory.md R51, R57; 30_encoding.md R82). -/
inductive Access
  /-- `RegRead(P, i)` (R52). -/
  | regRead (p : Nat) (i : Fin 8)
  /-- `RegWrite(P, i, v)` (R53). -/
  | regWrite (p : Nat) (i : Fin 8) (v : Word)
  /-- `RegWrite(P, i, <the value the host last read>)`, the second half of `MOVR` (R82). -/
  | writeReply (p : Nat) (i : Fin 8)
  /-- A read of `size` bytes on the bus binding (R57, R58). -/
  | busRead (addr size : Nat)
  /-- A write of these bytes on the bus binding, lowest address first (R56 to R58). -/
  | busWrite (addr : Nat) (bytes : List Byte)
  deriving DecidableEq, Repr

/-- What the last read access returned to the host: nothing read yet, a register value (R52), or the bytes of a bus
read, lowest address first (R56). A field of the model's own (log 5). -/
inductive Reply
  | nothing
  | value (v : Word)
  | bytes (bs : List Byte)
  deriving DecidableEq, Repr

/-- The machine: the ports, and the model's own fields. -/
structure State where
  /-- The ports by number, in canonical form: numbers strictly rising, no entry equal to `Port.reset` (log 7). -/
  ports : List (Nat × Port)
  /-- The port the access in progress addresses, the `P` of `Execute(P)` (20_memory.md R54; log 4). -/
  active : Nat
  /-- The accesses the host has still to make, in arrival order (10_state.md R27; log 2). -/
  host : List Access
  /-- What the last read returned (20_memory.md R52; log 5). -/
  reply : Reply
  deriving DecidableEq, Repr

/-- Why the machine stops with a fault. -/
inductive Fault
  /-- A `RegRead` or `RegWrite` names a port number that is not below NPORTS (10_state.md R34). Raised by
  `Machine.performAccess`; no command and no bus access raises it. Safe: the model stops where the spec has no port. -/
  | noSuchPort (p : Nat)
  deriving DecidableEq, Repr

/-- Why a step is refused. -/
inductive Refusal
  /-- A command without a meaning in `exec`. No arm of `exec` answers it: every command has its meaning. Safe. -/
  | notModelled (mnemonic : String)
  /-- A bus access that is no `RegRead` and no `RegWrite` (20_memory.md R58: "A model refuses such an access"), one in the
  block of a port that does not exist among them.
  Raised by `Machine.performAccess`. Safe. -/
  | badBusAccess (addr size : Nat)
  /-- The host feeds back a value it never read (30_encoding.md R82, `MOVR`). Raised by `Machine.performAccess`.
  Safe: no such host program has a meaning. -/
  | nothingRead
  deriving DecidableEq, Repr

/-- The machine right after reset (70_reset_and_hazards.md R330; 10_state.md R35): every port is `Port.reset`, and no
access is pending. -/
def State.reset : State := { ports := [], active := 0, host := [], reply := .nothing }

end Sys2Proof.Machine
end

