-- ==== Sys2Proof/Machine/Ops.lean ====
section
/-! DEFINITION. The named operations over ports and registers: reading and replacing a port, the register accesses of
spec/20_memory.md R52, how a command ends (R54), and raising an error, the one exception operation of the FDAE
(60_exceptions.md R301). There is no return from an exception: "There is consequently no trap-return command"
(R311). -/

namespace Sys2Proof.Machine

/-- The port of a number; one that is not listed is as reset left it. -/
def getPort : List (Nat × Port) → Nat → Port
  | [], _ => Port.reset
  | (k, q) :: rest, p => if k = p then q else getPort rest p

/-- The ports without the one of this number. -/
def erasePort : List (Nat × Port) → Nat → List (Nat × Port)
  | [], _ => []
  | (k, q) :: rest, p => if k = p then erasePort rest p else (k, q) :: erasePort rest p

/-- Put a port before the first higher number. -/
def insertPort : List (Nat × Port) → Nat → Port → List (Nat × Port)
  | [], p, q => [(p, q)]
  | (k, x) :: rest, p, q => if p < k then (p, q) :: (k, x) :: rest else (k, x) :: insertPort rest p q

/-- Replace a port, keeping the canonical form: a port equal to `Port.reset` is not listed. -/
def setPort (l : List (Nat × Port)) (p : Nat) (q : Port) : List (Nat × Port) :=
  if q = Port.reset then erasePort l p else insertPort (erasePort l p) p q

/-- The canonical form of a list of ports: numbers strictly rising, no entry equal to a port right after reset. -/
def portsWf : List (Nat × Port) → Bool
  | [] => true
  | (k, q) :: rest => decide (q ≠ Port.reset) && rest.all (fun e => decide (k < e.1)) && portsWf rest

/-- The port of a number in a state. -/
def State.port (s : State) (p : Nat) : Port := getPort s.ports p

/-- Replace one port of a state. -/
def State.setPort (s : State) (p : Nat) (q : Port) : State := { s with ports := Machine.setPort s.ports p q }

/-- The port the access in progress addresses: the `P` of the command rules. -/
def State.cur (s : State) : Port := s.port s.active

/-- Replace that port. -/
def State.setCur (s : State) (q : Port) : State := s.setPort s.active q

/-- `P.RES <- u64(v); P.STATUS <- 0` (20_memory.md R54, the case `Ok(v)`). -/
def State.withResult (s : State) (v : Int) : State := s.setCur { s.cur with res := u64 v, status := statusOk }

/-- `P.STATUS <- w` and nothing else (20_memory.md R54, the cases `OkNoValue` and `Err`). -/
def State.withStatus (s : State) (w : CmdWord) : State := s.setCur { s.cur with status := w }

/-- Taking an exception: `raise X(sub)` writes `code(X) + sub × 2^4` to `STATUS` of the port and changes nothing else:
no saved state, no mode, no control transfer, RES as it was (60_exceptions.md R301). -/
def raiseError (e : CmdError) (s : State) : State := s.withStatus e.statusWord

/-- The outcome of a command (20_memory.md R54; 30_encoding.md R79). -/
inductive CmdResult
  | ok (v : Int)
  | okNoValue
  | err (e : CmdError)
  deriving DecidableEq, Repr

/-- What a command rule computes: a result or the error it raises (30_encoding.md R79). -/
abbrev Computed := Except CmdError Int

/-- The outcome of a command that produces a value. -/
def CmdResult.ofComputed : Computed → CmdResult
  | .ok v => .ok v
  | .error e => .err e

/-- How a command ends, by its outcome (20_memory.md R54). -/
def finish (o : CmdResult) (s : State) : State :=
  match o with
  | .ok v => s.withResult v
  | .okNoValue => s.withStatus statusOk
  | .err e => raiseError e s

/-- End a command that produces a value: the one way the meanings of 23 commands end (20_memory.md R54). -/
def conclude (r : Computed) (s : State) : Host.Outcome State Fault Refusal :=
  .next (finish (CmdResult.ofComputed r) s)

/-- What `RegRead` returns for an index: `CMD` and `STATUS` zero-extended, reserved indices 0 (20_memory.md R52). -/
def Port.read (q : Port) (i : Fin 8) : Word :=
  match i with
  | 0 => q.opa
  | 1 => q.opb
  | 2 => q.cmd.setWidth 64
  | 3 => q.res
  | 4 => q.status.setWidth 64
  | 5 | 6 | 7 => 0

end Sys2Proof.Machine
end

