-- ==== Sys2Proof/Machine/Operands.lean ====
section
/-! DEFINITION. The operand forms (spec/30_encoding.md R75; 00_scope.md R14): the data operands from the port
registers, the scale factor from the selector, and the exponents of shifts and of powers of ten. -/

namespace Sys2Proof.Machine

/-- `a = s64(P.OPA)` (R75). -/
def State.opA (s : State) : Int := s64 s.cur.opa

/-- `b = s64(P.OPB)` (R75). -/
def State.opB (s : State) : Int := s64 s.cur.opb

/-- `n = s64(P.OPB)`, "the whole register read as a signed 64-bit integer; nothing is masked, scaled or truncated"
(R75). -/
def State.opN (s : State) : Int := s64 s.cur.opb

/-- `P.OPA` as a raw pattern, the operand of FROMDBL (R75). -/
def State.opBits (s : State) : Word := s.cur.opa

/-- `SF(s) = 10^s` (00_scope.md R7, R14). -/
def scaleFactor (s : Nat) : Nat := 10 ^ s

/-- The scale of a selector as a number. -/
def selScale (sel : Selector) : Nat := sel.scale.toNat

/-- `SF` of a command: the scale factor of its scale field (R14). -/
def selSF (sel : Selector) : Int := (scaleFactor (selScale sel) : Nat)

/-- The largest exponent of 2 or of 10 that is formed. Beyond it a 64-bit operand gives the same rounded or fitted
result at every exponent (42_checked_primitives.md R147, R148: "`n ≥ 64`"; 45_scaling.md R230(b), (c)); DEDUCED,
log 8. -/
def expCap : Nat := 65

/-- An exponent cut at `expCap`. -/
def capExp (n : Nat) : Nat := min n expCap

end Sys2Proof.Machine
end

