-- ==== Sys2Proof/Machine/Rounding.lean ====
section
/-! DEFINITION. The rounding engine, the truncated-part classifier and the overflow law (spec/41_rounding.md): the
functions `part`, `increment`, `rnd` and `fit` that every command is written with. -/

namespace Sys2Proof.Machine

/-- The class of a discarded remainder relative to its divisor (R121). -/
inductive TruncatedPart
  | zero | lessThanHalf | equalToHalf | greaterThanHalf
  deriving DecidableEq, Repr

/-- `part(r, d)` for `0 ≤ r < d` (R122). -/
def part (r d : Nat) : TruncatedPart :=
  if r = 0 then .zero
  else if 2 * r < d then .lessThanHalf
  else if 2 * r = d then .equalToHalf
  else .greaterThanHalf

/-- The increment table (R124). `sign` is +1 or −1, the sign of the exact result; `odd` is the least significant bit of
the magnitude of the truncated value. PRESUMED by the spec for six rows (G1); log 10. -/
def increment (mode : RoundingMode) (sign : Int) (odd : Bool) (p : TruncatedPart) : Computed :=
  match p with
  | .zero => .ok 0
  | .lessThanHalf =>
    match mode with
    | .up => .ok sign
    | .ceiling => .ok (if sign = 1 then 1 else 0)
    | .floor => .ok (if sign = -1 then -1 else 0)
    | .down | .halfUp | .halfDown | .halfEven => .ok 0
    | .unnecessary => .error .roundingNecessary
  | .equalToHalf =>
    match mode with
    | .up | .halfUp => .ok sign
    | .ceiling => .ok (if sign = 1 then 1 else 0)
    | .floor => .ok (if sign = -1 then -1 else 0)
    | .halfEven => .ok (if odd then sign else 0)
    | .down | .halfDown => .ok 0
    | .unnecessary => .error .roundingNecessary
  | .greaterThanHalf =>
    match mode with
    | .up | .halfUp | .halfDown | .halfEven => .ok sign
    | .ceiling => .ok (if sign = 1 then 1 else 0)
    | .floor => .ok (if sign = -1 then -1 else 0)
    | .down => .ok 0
    | .unnecessary => .error .roundingNecessary

/-- Is a magnitude odd (R125)? -/
def isOdd (q : Nat) : Bool := q % 2 == 1

/-- The last step of every rounding: the truncated value `sign × q` plus the increment of its discarded part
(R125). -/
def roundMagnitude (mode : RoundingMode) (sign : Int) (q : Nat) (p : TruncatedPart) : Computed :=
  match increment mode sign (isOdd q) p with
  | .ok k => .ok (sign * q + k)
  | .error e => .error e

/-- The sign given to the rounding engine: −1 for a negative numerator after the denominator is made positive, else
+1 (R125, R128). -/
def ratioSign (num den : Int) : Int := if (if den < 0 then -num else num) < 0 then -1 else 1

/-- `rnd(mode, num, den)`: the rational `num / den` rounded to an integer, `den ≠ 0` (R128). -/
def rnd (mode : RoundingMode) (num den : Int) : Computed :=
  roundMagnitude mode (ratioSign num den) (num.natAbs / den.natAbs) (part (num.natAbs % den.natAbs) den.natAbs)

/-- `rnd(HALF_EVEN, num, den)` as a plain integer: HALF_EVEN never raises (R127(b)). Used where the spec fixes the tie
rule (46_double_conversion.md R257). -/
def rndHalfEven (num den : Int) : Int :=
  match rnd .halfEven num den with
  | .ok q => q
  | .error _ => 0

/-- Does an integer lie in [MIN, MAX]? -/
def inRange (x : Int) : Bool := decide (MIN ≤ x ∧ x ≤ MAX)

/-- The overflow law `fit(ovf, R)` (R130). -/
def fit (ovf : OverflowMode) (r : Int) : Computed :=
  if inRange r then .ok r
  else
    match ovf with
    | .checked => .error .overflow
    | .unchecked => .ok (wrap64 r)

/-- `fit(ovf, rnd(...))`: rounding first, then the overflow law (R131). -/
def fitRounded (ovf : OverflowMode) (r : Computed) : Computed :=
  match r with
  | .ok v => fit ovf v
  | .error e => .error e

end Sys2Proof.Machine
end

