-- ==== Sys2Proof/Machine/Binary64.lean ====
section
/-! DEFINITION. The IEEE-754 binary64 patterns of the interface (spec/46_double_conversion.md R250, R251) and the
binary64 number nearest to a decimal (R257), which also makes the LUT entries DBLMIN and DBLMAX (40_scale_metrics.md
R101). The layout is PRESUMED by the spec from general knowledge (G8); log 10. -/

namespace Sys2Proof.Machine

/-- `sg = v[63]` (R250). -/
def dblSign (v : Word) : Nat := v.toNat / 2 ^ 63

/-- `e = v[62:52]`, the biased exponent (R250). -/
def dblExp (v : Word) : Nat := v.toNat / 2 ^ 52 % 2 ^ 11

/-- `f = v[51:0]`, the fraction (R250). -/
def dblFrac (v : Word) : Nat := v.toNat % 2 ^ 52

/-- A finite double as `sign × sig × 2^exp2` (R251). -/
structure DoubleValue where
  sign : Int
  sig : Nat
  exp2 : Int
  deriving DecidableEq, Repr

/-- `decode(A)`: infinities and NaNs raise NOT_FINITE; zero and subnormals have no implicit bit (R251). -/
def decodeDouble (v : Word) : Except CmdError DoubleValue :=
  if dblExp v = 2047 then .error .notFinite
  else if dblExp v = 0 then
    .ok { sign := if dblSign v = 1 then -1 else 1, sig := dblFrac v, exp2 := -1074 }
  else
    .ok { sign := if dblSign v = 1 then -1 else 1, sig := 2 ^ 52 + dblFrac v, exp2 := (dblExp v : Int) - 1075 }

/-- The exponent `e2` with `2^52 ≤ m / SF × 2^(−e2) < 2^53` (R257). -/
def toDoubleExp (m sf : Nat) : Int := floorLog2 m sf - 52

/-- The significand `q` of R257 at that exponent, before a carry into the next binade. -/
def toDoubleSig (m sf : Nat) : Int :=
  match toDoubleExp m sf with
  | .ofNat k => rndHalfEven m ((sf * 2 ^ k : Nat) : Int)
  | .negSucc k => rndHalfEven ((m * 2 ^ (k + 1) : Nat) : Int) sf

/-- The bits of a normal number from its sign bit, significand `2^52 ≤ q < 2^53` and exponent (R257). -/
def packDouble (sg : Nat) (q : Int) (e2 : Int) : Word :=
  BitVec.ofNat 64 (sg * 2 ^ 63 + (e2 + 1075).toNat * 2 ^ 52 + (q - 2 ^ 52).toNat)

/-- The binary64 pattern nearest to `a / sf`, ties to the even significand (R257). -/
def toBinary64 (a : Int) (sf : Nat) : Word :=
  if a = 0 then 0
  else if toDoubleSig a.natAbs sf = 2 ^ 53 then
    packDouble (if a < 0 then 1 else 0) (2 ^ 52) (toDoubleExp a.natAbs sf + 1)
  else packDouble (if a < 0 then 1 else 0) (toDoubleSig a.natAbs sf) (toDoubleExp a.natAbs sf)

end Sys2Proof.Machine
end

