-- ==== Sys2Proof/Machine/Doubles.lean ====
section
/-! DEFINITION. The double conversions FROMDBL and TODBL (spec/46_double_conversion.md R252, R254, R257). -/

namespace Sys2Proof.Machine

/-- The magnitude of a conversion: an exact left shift, or a rounded right shift whose sign is the double's (R252). -/
def fromdblMagnitude (mode : RoundingMode) (sign : Int) (n : Nat) (e2 : Int) : Except CmdError Nat :=
  match e2 with
  | .ofNat k => .ok (n * 2 ^ k)
  | .negSucc k =>
    match rnd mode (sign * n) (2 ^ (k + 1) : Nat) with
    | .ok r => .ok r.natAbs
    | .error e => .error e

/-- A magnitude of `2^63` or more is OVERFLOW whatever the sign and the overflow mode (R252, R254). -/
def fromdblFit (sign : Int) (m : Except CmdError Nat) : Computed :=
  match m with
  | .error e => .error e
  | .ok mag => if 2 ^ 63 ≤ mag then .error .overflow else .ok (sign * mag)

/-- FROMDBL of a finite double (R252). -/
def fromdblFinite (sel : Selector) (d : DoubleValue) : Computed :=
  if d.sig * scaleFactor (selScale sel) = 0 then .ok 0
  else fromdblFit d.sign (fromdblMagnitude sel.mode d.sign (d.sig * scaleFactor (selScale sel)) d.exp2)

/-- FROMDBL on a binary64 pattern (R252). -/
def computeFromdbl (sel : Selector) (v : Word) : Computed :=
  match decodeDouble v with
  | .error e => .error e
  | .ok d => fromdblFinite sel d

/-- FROMDBL (R252). -/
def execFromdbl (sel : Selector) (s : State) : Host.Outcome State Fault Refusal :=
  conclude (computeFromdbl sel s.opBits) s

/-- TODBL: the nearest binary64 pattern, read as signed; never an error (R257). -/
def computeTodbl (sel : Selector) (a : Int) : Computed := .ok (s64 (toBinary64 a (scaleFactor (selScale sel))))

/-- TODBL (R257). -/
def execTodbl (sel : Selector) (s : State) : Host.Outcome State Fault Refusal := conclude (computeTodbl sel s.opA) s

end Sys2Proof.Machine
end

