-- ==== Sys2Proof/Machine/Metrics.lean ====
section
/-! DEFINITION. The scale-factor ROM, the metrics LUT and the two commands that expose them
(spec/40_scale_metrics.md R100 to R105). -/

namespace Sys2Proof.Machine

/-- `ROM.SF[s] = 10^s` (R100). -/
def romSF (s : Nat) : Int := (scaleFactor s : Nat)

/-- `LUT[s].entry(k)` by the definitions of R101; entries 6 and 7 are binary64 patterns read as signed (R104). -/
def lut (s : Nat) : Metric → Int
  | .sf => romSF s
  | .maxInt => quot MAX (romSF s)
  | .minInt => quot MIN (romSF s)
  | .halfSf => quot (romSF s) 2
  | .sqrtSf => isqrt (scaleFactor s)
  | .sfBits => bitlen (scaleFactor s)
  | .dblMin => s64 (toBinary64 MIN (scaleFactor s))
  | .dblMax => s64 (toBinary64 MAX (scaleFactor s))

/-- METRIC: one LUT entry (R104). -/
def computeMetric (sel : Selector) (k : Metric) : Computed := .ok (lut (selScale sel) k)

/-- METRIC (R104). -/
def execMetric (sel : Selector) (k : Metric) (s : State) : Host.Outcome State Fault Refusal :=
  conclude (computeMetric sel k) s

/-- MODSF: `rem(a, SF)` (R105). -/
def computeModsf (sel : Selector) (a : Int) : Computed := .ok (rem a (selSF sel))

/-- MODSF (R105). -/
def execModsf (sel : Selector) (s : State) : Host.Outcome State Fault Refusal := conclude (computeModsf sel s.opA) s

end Sys2Proof.Machine
end

