-- ==== Sys2Proof/Machine/MulDiv.lean ====
section
/-! DEFINITION. Multiply, square, divide, invert by their contract rules (spec/43_mul_div.md R171, R176, R178, R184).
The datapath rules of the same file stand in Machine/Datapath.lean: "A model may ignore the datapath rules". -/

namespace Sys2Proof.Machine

/-- MUL: `fit(ovf, rnd(mode, a × b, SF))` (R171). -/
def computeMul (sel : Selector) (a b : Int) : Computed := fitRounded sel.ovf (rnd sel.mode (a * b) (selSF sel))

/-- MUL (R171). -/
def execMul (sel : Selector) (s : State) : Host.Outcome State Fault Refusal := conclude (computeMul sel s.opA s.opB) s

/-- SQR: `fit(ovf, rnd(mode, a × a, SF))` (R176). -/
def computeSqr (sel : Selector) (a : Int) : Computed := fitRounded sel.ovf (rnd sel.mode (a * a) (selSF sel))

/-- SQR (R176). -/
def execSqr (sel : Selector) (s : State) : Host.Outcome State Fault Refusal := conclude (computeSqr sel s.opA) s

/-- DIV: a zero divisor raises first, also for a zero dividend; else `fit(ovf, rnd(mode, a × SF, b))` (R178). -/
def computeDiv (sel : Selector) (a b : Int) : Computed :=
  if b = 0 then .error .divByZero else fitRounded sel.ovf (rnd sel.mode (a * selSF sel) b)

/-- DIV (R178). -/
def execDiv (sel : Selector) (s : State) : Host.Outcome State Fault Refusal := conclude (computeDiv sel s.opA s.opB) s

/-- INV: `a = 0` raises; else `fit(ovf, rnd(mode, SF × SF, a))` (R184). -/
def computeInv (sel : Selector) (a : Int) : Computed :=
  if a = 0 then .error .divByZero else fitRounded sel.ovf (rnd sel.mode (selSF sel * selSF sel) a)

/-- INV (R184). -/
def execInv (sel : Selector) (s : State) : Host.Outcome State Fault Refusal := conclude (computeInv sel s.opA) s

end Sys2Proof.Machine
end

