-- ==== Sys2Proof/Machine/Primitives.lean ====
section
/-! DEFINITION. The overflow-checked primitive commands NOP, ADD, SUB, NEG, ABS, AVG, SHL, SHR
(spec/42_checked_primitives.md R140 to R148). For each command, what it computes from its operands and then its
meaning on the addressed port. -/

namespace Sys2Proof.Machine

/-- NOP: `OkNoValue` (R140). -/
def execNop (_sel : Selector) (s : State) : Host.Outcome State Fault Refusal := .next (finish .okNoValue s)

/-- ADD: `fit(ovf, a + b)` (R141). -/
def computeAdd (sel : Selector) (a b : Int) : Computed := fit sel.ovf (a + b)

/-- ADD (R141). -/
def execAdd (sel : Selector) (s : State) : Host.Outcome State Fault Refusal := conclude (computeAdd sel s.opA s.opB) s

/-- SUB: `fit(ovf, a − b)` (R142). -/
def computeSub (sel : Selector) (a b : Int) : Computed := fit sel.ovf (a - b)

/-- SUB (R142). -/
def execSub (sel : Selector) (s : State) : Host.Outcome State Fault Refusal := conclude (computeSub sel s.opA s.opB) s

/-- NEG: `fit(ovf, −a)` (R143). -/
def computeNeg (sel : Selector) (a : Int) : Computed := fit sel.ovf (-a)

/-- NEG (R143). -/
def execNeg (sel : Selector) (s : State) : Host.Outcome State Fault Refusal := conclude (computeNeg sel s.opA) s

/-- ABS: `fit(ovf, |a|)` (R144). -/
def computeAbs (sel : Selector) (a : Int) : Computed := fit sel.ovf a.natAbs

/-- ABS (R144). -/
def execAbs (sel : Selector) (s : State) : Host.Outcome State Fault Refusal := conclude (computeAbs sel s.opA) s

/-- AVG: `rnd(mode, a + b, 2)`, no overflow law (R145). -/
def computeAvg (sel : Selector) (a b : Int) : Computed := rnd sel.mode (a + b) 2

/-- AVG (R145). -/
def execAvg (sel : Selector) (s : State) : Host.Outcome State Fault Refusal := conclude (computeAvg sel s.opA s.opB) s

/-- `fit(ovf, a × 2^n)` for `n ≥ 0` (R147). -/
def shiftLeft (sel : Selector) (a : Int) (n : Nat) : Computed := fit sel.ovf (a * (2 ^ capExp n : Nat))

/-- `rnd(mode, a, 2^n)` for `n ≥ 0` (R148). -/
def shiftRight (sel : Selector) (a : Int) (n : Nat) : Computed := rnd sel.mode a (2 ^ capExp n : Nat)

/-- SHL: left for `n ≥ 0`, right by `−n` for `n < 0` (R146, R147). -/
def computeShl (sel : Selector) (a n : Int) : Computed :=
  if 0 ≤ n then shiftLeft sel a n.toNat else shiftRight sel a (-n).toNat

/-- SHL (R147). -/
def execShl (sel : Selector) (s : State) : Host.Outcome State Fault Refusal := conclude (computeShl sel s.opA s.opN) s

/-- SHR: right for `n ≥ 0`, left by `−n` for `n < 0` (R146, R148). -/
def computeShr (sel : Selector) (a n : Int) : Computed :=
  if 0 ≤ n then shiftRight sel a n.toNat else shiftLeft sel a (-n).toNat

/-- SHR (R148). -/
def execShr (sel : Selector) (s : State) : Host.Outcome State Fault Refusal := conclude (computeShr sel s.opA s.opN) s

end Sys2Proof.Machine
end

