-- ==== Sys2Proof/Machine/Scaling.lean ====
section
/-! DEFINITION. Power-of-ten scaling, integer conversion and rescaling (spec/45_scaling.md R230 to R236). -/

namespace Sys2Proof.Machine

/-- `scale10(mode, a, e)`: the value `a × 10^e` rounded to an integer (R230), with the exponent cut where R230(b) and
(c) say that larger ones give the same fitted result. -/
def scale10 (mode : RoundingMode) (a e : Int) : Computed :=
  if 0 ≤ e then .ok (a * (10 ^ capExp e.toNat : Nat)) else rnd mode a (10 ^ capExp (-e).toNat : Nat)

/-- MULP10: `fit(ovf, scale10(mode, a, n))` (R231). -/
def computeMulp10 (sel : Selector) (a n : Int) : Computed := fitRounded sel.ovf (scale10 sel.mode a n)

/-- MULP10 (R231). -/
def execMulp10 (sel : Selector) (s : State) : Host.Outcome State Fault Refusal :=
  conclude (computeMulp10 sel s.opA s.opN) s

/-- DIVP10: `fit(ovf, scale10(mode, a, −n))`, the negation a mathematical one (R232). -/
def computeDivp10 (sel : Selector) (a n : Int) : Computed := fitRounded sel.ovf (scale10 sel.mode a (-n))

/-- DIVP10 (R232). -/
def execDivp10 (sel : Selector) (s : State) : Host.Outcome State Fault Refusal :=
  conclude (computeDivp10 sel s.opA s.opN) s

/-- FROMLONG: `fit(ovf, a × SF)` (R233). -/
def computeFromlong (sel : Selector) (a : Int) : Computed := fit sel.ovf (a * selSF sel)

/-- FROMLONG (R233). -/
def execFromlong (sel : Selector) (s : State) : Host.Outcome State Fault Refusal :=
  conclude (computeFromlong sel s.opA) s

/-- TOLONG: `rnd(mode, a, SF)`, no overflow law (R234). -/
def computeTolong (sel : Selector) (a : Int) : Computed := rnd sel.mode a (selSF sel)

/-- TOLONG (R234). -/
def execTolong (sel : Selector) (s : State) : Host.Outcome State Fault Refusal := conclude (computeTolong sel s.opA) s

/-- FROMUNSC: `fit(ovf, scale10(mode, a, s − ss))`, `ss` the source scale (R235). -/
def computeFromunsc (sel : Selector) (ss : Nat) (a : Int) : Computed :=
  fitRounded sel.ovf (scale10 sel.mode a ((selScale sel : Int) - ss))

/-- FROMUNSC (R235). -/
def execFromunsc (sel : Selector) (aux : BitVec 5) (s : State) : Host.Outcome State Fault Refusal :=
  conclude (computeFromunsc sel aux.toNat s.opA) s

/-- TOUNSC: `fit(ovf, scale10(mode, a, ts − s))`, `ts` the target scale (R236). -/
def computeTounsc (sel : Selector) (ts : Nat) (a : Int) : Computed :=
  fitRounded sel.ovf (scale10 sel.mode a ((ts : Int) - selScale sel))

/-- TOUNSC (R236). -/
def execTounsc (sel : Selector) (aux : BitVec 5) (s : State) : Host.Outcome State Fault Refusal :=
  conclude (computeTounsc sel aux.toNat s.opA) s

end Sys2Proof.Machine
end

