-- ==== Sys2Proof/Machine/SqrtPow.lean ====
section
/-! DEFINITION. Square root and integer power (spec/44_sqrt_pow.md R200, R201, R205 to R219), with the 36-digit path as
the reference algorithm of R210 to R217. -/

namespace Sys2Proof.Machine

/-- The class of the square-root remainder `rem = N − t²`: class E never occurs (R201). -/
def sqrtPart (t remainder : Nat) : TruncatedPart :=
  if remainder = 0 then .zero else if remainder ≤ t then .lessThanHalf else .greaterThanHalf

/-- SQRT: a negative operand raises; else the root of `N = a × SF` with the increment of its remainder (R200). -/
def computeSqrt (sel : Selector) (a : Int) : Computed :=
  if a < 0 then .error (.invalidDomain .sqrtNegative)
  else
    roundMagnitude sel.mode 1 (isqrt (a.toNat * scaleFactor (selScale sel)))
      (sqrtPart (isqrt (a.toNat * scaleFactor (selScale sel)))
        (a.toNat * scaleFactor (selScale sel)
          - isqrt (a.toNat * scaleFactor (selScale sel)) * isqrt (a.toNat * scaleFactor (selScale sel))))

/-- SQRT (R200). -/
def execSqrt (sel : Selector) (s : State) : Host.Outcome State Fault Refusal := conclude (computeSqrt sel s.opA) s

/-- One round of the integer path: square, then multiply by the base when the bit is 1, each under the overflow law
(R207). -/
def powIntStep (ovf : OverflowMode) (a : Int) (acc : Computed) (b : Bool) : Computed :=
  match acc with
  | .error e => .error e
  | .ok x =>
    match fit ovf (x * x) with
    | .error e => .error e
    | .ok y => if b then fit ovf (y * a) else .ok y

/-- The integer path for a positive exponent at scale 0: repeated squaring over the exponent's bits, most significant
first (R207). -/
def powInt (ovf : OverflowMode) (a : Int) (n : Nat) : Computed := (bitsMsb n).foldl (powIntStep ovf a) (.ok 1)

/-- The integer path for a negative exponent: the positive power, then its inverse (R208). -/
def powIntNeg (mode : RoundingMode) (ovf : OverflowMode) (a : Int) (n : Nat) : Computed :=
  match powInt ovf a n with
  | .error e => .error e
  | .ok p => if p = 0 then .error .divByZero else rnd mode 1 p

/-- A 36-digit number `mant / 10^35 × 2^exp` with `10^35 ≤ mant < 2 × 10^35` (R210). -/
structure Num36 where
  mant : Nat
  exp : Int
  deriving DecidableEq, Repr

/-- The range of the mantissa of a 36-digit number (R210). -/
def Num36.wf (x : Num36) : Bool := decide (10 ^ 35 ≤ x.mant ∧ x.mant < 2 * 10 ^ 35)

/-- The value 1, where the accumulator starts (R211). -/
def Num36.one : Num36 := { mant := 10 ^ 35, exp := 0 }

/-- `floor(u × 10^35 / (10^s × 2^p))`, for a negative `p` by the other side (R213). -/
def normMant (u s : Nat) (p : Int) : Nat :=
  match p with
  | .ofNat k => u * 10 ^ 35 / (10 ^ s * 2 ^ k)
  | .negSucc k => u * 2 ^ (k + 1) * 10 ^ 35 / 10 ^ s

/-- `norm36(u, s)`: the 36-digit form of `u / 10^s`, `u ≥ 1` (R213). -/
def norm36 (u s : Nat) : Num36 :=
  { mant := normMant u s (floorLog2 u (10 ^ s)), exp := floorLog2 u (10 ^ s) }

/-- `mul36`: the truncated product (R214). -/
def mul36 (x y : Num36) : Num36 :=
  if 2 * 10 ^ 70 ≤ x.mant * y.mant then
    { mant := x.mant * y.mant / (2 * 10 ^ 35), exp := x.exp + y.exp + 1 }
  else { mant := x.mant * y.mant / 10 ^ 35, exp := x.exp + y.exp }

/-- `inv36`: the truncated reciprocal (R215). -/
def inv36 (x : Num36) : Num36 :=
  if x.mant = 10 ^ 35 then { mant := 10 ^ 35, exp := -x.exp }
  else { mant := 2 * 10 ^ 70 / x.mant, exp := -x.exp - 1 }

/-- One round of the 36-digit loop (R211, R212). -/
def pow36Step (base acc : Num36) (b : Bool) : Num36 :=
  if b then mul36 (mul36 acc acc) base else mul36 acc acc

/-- The accumulator after the exponent loop (R211, R212). -/
def pow36 (base : Num36) (n : Nat) : Num36 := (bitsMsb n).foldl (pow36Step base) Num36.one

/-- `unnorm` by its formula (R216): `sign × M / 10^35 × 2^p × 10^s` rounded to an integer. -/
def unnorm (mode : RoundingMode) (sign : Int) (x : Num36) (s : Nat) : Computed :=
  match x.exp with
  | .ofNat k => rnd mode (sign * (x.mant * 10 ^ s * 2 ^ k : Nat)) (10 ^ 35 : Nat)
  | .negSucc k => rnd mode (sign * (x.mant * 10 ^ s : Nat)) (10 ^ 35 * 2 ^ (k + 1) : Nat)

/-- `F = 5^35` of R217(b). -/
def unnormF : Nat := 5 ^ 35

/-- `F⁻¹`, the inverse of `F` modulo `2^64` (R217(b)): `F × F⁻¹ mod 2^64 = 1`. -/
def unnormFInv : Nat := 6358562642300728149

/-- `r = (X × 2^k) mod F` of R217(b), `X = M × 10^s`. -/
def unnormHugeRem (mant s k : Nat) : Nat := mant * 10 ^ s % unnormF * powMod 2 k unnormF % unnormF

/-- `q64 = (−r × F⁻¹) mod 2^64` of R217(b): the low 64 bits of the truncated quotient. -/
def unnormHugeLow (r : Nat) : Nat := (2 ^ 64 - r % 2 ^ 64) * unnormFInv % 2 ^ 64

/-- `fit(ovf, unnorm(...))` for `p ≥ 99`, without forming `2^p`: the increment is evaluated first, then checked mode
overflows and unchecked mode wraps (R217(b)). -/
def unnormHuge (mode : RoundingMode) (ovf : OverflowMode) (sign : Int) (mant s k : Nat) : Computed :=
  match increment mode sign (isOdd (unnormHugeLow (unnormHugeRem mant s k))) (part (unnormHugeRem mant s k) unnormF) with
  | .error e => .error e
  | .ok inc =>
    match ovf with
    | .checked => .error .overflow
    | .unchecked => .ok (wrap64 (sign * unnormHugeLow (unnormHugeRem mant s k) + inc))

/-- `fit(ovf, unnorm(...))` at every exponent (R211, R216, R217): below −61 the exponent is cut at −62 (case (a): the
truncated value is 0 and the class L at each of them), above 98 `2^p` is not formed (case (b)); DEDUCED, log 11. -/
def unnormFit (mode : RoundingMode) (ovf : OverflowMode) (sign : Int) (x : Num36) (s : Nat) : Computed :=
  if x.exp ≤ -62 then fitRounded ovf (unnorm mode sign { x with exp := -62 } s)
  else if x.exp ≤ 98 then fitRounded ovf (unnorm mode sign x s)
  else unnormHuge mode ovf sign x.mant s (x.exp - 35).toNat

/-- The sign of the result on the 36-digit path: negative iff the base is negative and the exponent odd (R210,
R211). -/
def powSign (a n : Int) : Int := if a < 0 ∧ isOdd n.natAbs then -1 else 1

/-- The accumulator of the 36-digit path, inverted for a negative exponent (R211). -/
def powAcc (a n : Int) (s : Nat) : Num36 :=
  if n < 0 then inv36 (pow36 (norm36 a.natAbs s) n.natAbs) else pow36 (norm36 a.natAbs s) n.natAbs

/-- The 36-digit path (R211). -/
def computePow36 (sel : Selector) (a n : Int) : Computed :=
  unnormFit sel.mode sel.ovf (powSign a n) (powAcc a n (selScale sel)) (selScale sel)

/-- The integer path of scale 0 (R206 step 4, R207, R208). -/
def computePowInt (sel : Selector) (a n : Int) : Computed :=
  if 0 ≤ n then powInt sel.ovf a n.natAbs else powIntNeg sel.mode sel.ovf a n.natAbs

/-- POW, the steps 1 to 8 of R206 in their order. -/
def computePow (sel : Selector) (a n : Int) : Computed :=
  if Config.powExpMax < n.natAbs then .error (.invalidDomain .powExponentRange)
  else if n = 0 then .ok (selSF sel)
  else if a = 0 then (if 0 < n then .ok 0 else .error .divByZero)
  else if selScale sel = 0 then computePowInt sel a n
  else if n = 1 then .ok a
  else if n = -1 then fitRounded sel.ovf (rnd sel.mode (selSF sel * selSF sel) a)
  else if n = 2 then fitRounded sel.ovf (rnd sel.mode (a * a) (selSF sel))
  else computePow36 sel a n

/-- POW (R206). -/
def execPow (sel : Selector) (s : State) : Host.Outcome State Fault Refusal := conclude (computePow sel s.opA s.opN) s

end Sys2Proof.Machine
end

