-- ==== Sys2Proof/Machine/Dispatch.lean ====
section
/-! DEFINITION. One arm per command, each a direct call of its meaning (spec/30_encoding.md R76, R79). -/

namespace Sys2Proof.Machine

/-- A command on the port `s.active`, whose `CMD` already holds the command word (20_memory.md R54). -/
def exec (i : Instr) (s : State) : Host.Outcome State Fault Refusal :=
  match i with
  | .nop sel => Sys2Proof.Machine.execNop sel s
  | .add sel => Sys2Proof.Machine.execAdd sel s
  | .sub sel => Sys2Proof.Machine.execSub sel s
  | .neg sel => Sys2Proof.Machine.execNeg sel s
  | .abs sel => Sys2Proof.Machine.execAbs sel s
  | .avg sel => Sys2Proof.Machine.execAvg sel s
  | .shl sel => Sys2Proof.Machine.execShl sel s
  | .shr sel => Sys2Proof.Machine.execShr sel s
  | .mul sel => Sys2Proof.Machine.execMul sel s
  | .sqr sel => Sys2Proof.Machine.execSqr sel s
  | .div sel => Sys2Proof.Machine.execDiv sel s
  | .inv sel => Sys2Proof.Machine.execInv sel s
  | .sqrt sel => Sys2Proof.Machine.execSqrt sel s
  | .pow sel => Sys2Proof.Machine.execPow sel s
  | .mulp10 sel => Sys2Proof.Machine.execMulp10 sel s
  | .divp10 sel => Sys2Proof.Machine.execDivp10 sel s
  | .fromlong sel => Sys2Proof.Machine.execFromlong sel s
  | .tolong sel => Sys2Proof.Machine.execTolong sel s
  | .fromunsc sel aux => Sys2Proof.Machine.execFromunsc sel aux s
  | .tounsc sel aux => Sys2Proof.Machine.execTounsc sel aux s
  | .fromdbl sel => Sys2Proof.Machine.execFromdbl sel s
  | .todbl sel => Sys2Proof.Machine.execTodbl sel s
  | .modsf sel => Sys2Proof.Machine.execModsf sel s
  | .metric sel k => Sys2Proof.Machine.execMetric sel k s

end Sys2Proof.Machine
end

