-- ==== Sys2Proof/Machine/Access.lean ====
section
/-! DEFINITION. The host's accesses: `RegRead`, `RegWrite` and `Execute` (spec/20_memory.md R51 to R55) and the bus
binding that maps byte-addressed accesses onto them (R56 to R58). -/

namespace Sys2Proof.Machine

/-- `Execute(P)` on the addressed port (R54): decode `CMD`; a refused word raises its error (30_encoding.md R78), a
command runs its rule. -/
def executeCommand (s : State) : Host.Outcome State Fault Refusal :=
  match decode s.cur.cmd with
  | .error e => .next (raiseError (CmdError.ofDecode e) s)
  | .ok i => exec i s

/-- A write of `CMD`: the low word is stored; a 64-bit value with non-zero upper bits ends with ILLEGAL_COMMAND,
RESERVED_BITS and runs no command, any other value executes (R53, R55). -/
def writeCmd (v : Word) (s : State) : Host.Outcome State Fault Refusal :=
  if v.toNat / 2 ^ 32 ≠ 0 then
    .next (raiseError (.illegalCommand .reservedBits) (s.setCur { s.cur with cmd := v.setWidth 32 }))
  else executeCommand (s.setCur { s.cur with cmd := v.setWidth 32 })

/-- `RegWrite(P, i, v)` on the addressed port (R53). -/
def writeReg (i : Fin 8) (v : Word) (s : State) : Host.Outcome State Fault Refusal :=
  match i with
  | 0 => .next (s.setCur { s.cur with opa := v })
  | 1 => .next (s.setCur { s.cur with opb := v })
  | 2 => writeCmd v s
  | 3 | 4 => .next s
  | 5 | 6 | 7 => .next s

/-- Address a port by its number, or fault when there is none of that number (10_state.md R34). A bus access never faults
here: `busSlot` names existing ports only. -/
def onPort (p : Nat) (s : State) (k : State → Host.Outcome State Fault Refusal) : Host.Outcome State Fault Refusal :=
  if Config.hasPort p then k { s with active := p } else .fault (.noSuchPort p)

/-- `RegRead(P, i)`: the value goes to the host and no register changes (R52). -/
def regRead (p : Nat) (i : Fin 8) (s : State) : Host.Outcome State Fault Refusal :=
  onPort p s (fun t => .next { t with reply := .value (t.cur.read i) })

/-- `RegWrite(P, i, v)` (R53). -/
def regWrite (p : Nat) (i : Fin 8) (v : Word) (s : State) : Host.Outcome State Fault Refusal :=
  onPort p s (writeReg i v)

/-- The slot a bus access addresses: port, register index, for the accesses R58 accepts (R57, R58): 64-bit at any
slot, 32-bit at the CMD and STATUS slots. Only a port that exists has slots (10_state.md R34), so a block beyond the last
port has none (log 6). -/
def busSlot (addr size : Nat) : Option (Nat × Fin 8) :=
  if addr < Config.base then none
  else if 64 ≤ (addr - Config.base) % Config.stride then none
  else if (addr - Config.base) % Config.stride % 8 ≠ 0 then none
  else if Config.hasPort ((addr - Config.base) / Config.stride) = false then none
  else if size = 8 ∨ (size = 4 ∧ ((addr - Config.base) % Config.stride = 16 ∨ (addr - Config.base) % Config.stride = 32))
  then some ((addr - Config.base) / Config.stride, Fin.ofNat 8 ((addr - Config.base) % Config.stride / 8))
  else none

/-- A bus read: `RegRead` of the slot, its bytes little-endian (R56 to R58); every other access is refused. -/
def busRead (addr size : Nat) (s : State) : Host.Outcome State Fault Refusal :=
  match busSlot addr size with
  | none => .refused (.badBusAccess addr size)
  | some (p, i) => onPort p s (fun t => .next { t with reply := .bytes (leBytes size (t.cur.read i).toNat) })

/-- A bus write: `RegWrite` of the little-endian value, whose bits 63:32 are zero on a 32-bit access (R53, R56 to
R58); every other access is refused. -/
def busWrite (addr : Nat) (bytes : List Byte) (s : State) : Host.Outcome State Fault Refusal :=
  match busSlot addr bytes.length with
  | none => .refused (.badBusAccess addr bytes.length)
  | some (p, i) => regWrite p i (BitVec.ofNat 64 (ofLeBytes bytes)) s

/-- The value a host feeds back with `MOVR` (30_encoding.md R82). -/
def Reply.value? : Reply → Option Word
  | .nothing => none
  | .value v => some v
  | .bytes bs => some (BitVec.ofNat 64 (ofLeBytes bs))

/-- One access of the host (R51, R57; 30_encoding.md R82). -/
def performAccess (x : Access) (s : State) : Host.Outcome State Fault Refusal :=
  match x with
  | .regRead p i => regRead p i s
  | .regWrite p i v => regWrite p i v s
  | .writeReply p i =>
    match s.reply.value? with
    | none => .refused .nothingRead
    | some v => regWrite p i v s
  | .busRead addr size => busRead addr size s
  | .busWrite addr bytes => busWrite addr bytes s

/-- The port an access addresses: the one it names, or the one whose slot a bus access hits (R51, R57); none where R58
refuses it. -/
def Access.port? : Access → Option Nat
  | .regRead p _ => some p
  | .regWrite p _ _ => some p
  | .writeReply p _ => some p
  | .busRead addr size => (busSlot addr size).map Prod.fst
  | .busWrite addr bytes => (busSlot addr bytes.length).map Prod.fst

/-- The accesses in arrival order: the first is performed, the others wait; with none pending the machine idles
(R61(a); log 2, log 3). -/
def nextAccess (s : State) : Host.Outcome State Fault Refusal :=
  match s.host with
  | [] => .next s
  | x :: rest => performAccess x { s with host := rest }

/-- The access that writes a command word to `CMD` of port 0 (30_encoding.md R81: "without one, port 0 is meant"). -/
def commandAccess (nbits w : Nat) : Access := .regWrite 0 2 (BitVec.ofNat 64 (w % 2 ^ nbits))

end Sys2Proof.Machine
end

