-- ==== Sys2Proof/Machine/Step.lean ====
section
/-! DEFINITION. One step of the machine: one access of the host (spec/20_memory.md R51, R61(a)), with the command a
`CMD` write executes inside it (R55). -/

namespace Sys2Proof.Machine

/-- One step: the host's next access, whole (20_memory.md R54, R55, R59). -/
def step (s : State) : Host.Outcome State Fault Refusal := nextAccess s

/-- The state whose next access writes the given command word to `CMD` of port 0: the FDAE fetches nothing, a command
is "executed from the value written, at once" (20_memory.md R64); log 2. -/
def State.withFetchWord (s : State) (nbits w : Nat) : State := { s with host := commandAccess nbits w :: s.host }

end Sys2Proof.Machine
end

