-- ==== Sys2Proof/Machine/Text.lean ====
section
/-! DEFINITION. The decimal text contract of a host library on an FDAE port (spec/47_dispatch_and_text.md R276 to R279).
It is host software, no command (R276); it is kept here as functions on characters beside the commands they use. -/

namespace Sys2Proof.Machine

/-- The ASCII digit of a number below 10. -/
def digitChar (d : Nat) : Char := Char.ofNat (48 + d)

/-- The number of an ASCII digit (D32: "ASCII digits"). -/
def digitValue? (c : Char) : Option Nat := if 48 ≤ c.toNat ∧ c.toNat ≤ 57 then some (c.toNat - 48) else none

/-- The last `k` decimal digits of a number, left-padded with "0" (R278). -/
def paddedDigits : Nat → Nat → List Char
  | 0, _ => []
  | k + 1, n => paddedDigits k (n / 10) ++ [digitChar (n % 10)]

/-- The decimal digits of a number, "at least one digit, no leading zeros beyond "0"" (R278), by a bound on their
count. -/
def plainDigits : Nat → Nat → List Char
  | 0, n => [digitChar (n % 10)]
  | k + 1, n => if n < 10 then [digitChar n] else plainDigits k (n / 10) ++ [digitChar (n % 10)]

/-- `toDecimalText(u)` at scale `s`: sign, integer part, and exactly `s` fraction digits (R278). -/
def toDecimalText (s : Nat) (u : Int) : List Char :=
  (if u < 0 then ['-'] else [])
    ++ plainDigits (bitlen (quot u (romSF s)).natAbs) (quot u (romSF s)).natAbs
    ++ (if 0 < s then '.' :: paddedDigits s (rem u (romSF s)).natAbs else [])

/-- `toString`: `toDecimalText` at the engine's scale (R278). -/
def toDecimalString (sel : Selector) (u : Int) : List Char := toDecimalText (selScale sel) u

/-- TOUNSC as a host issues it, checks 3 and 4 of 30_encoding.md R78 included: an engine scale or a target scale of 19 or
more is SCALE_RANGE (45_scaling.md R236, Errors), else the command's rule. -/
def rescaleText (sel : Selector) (ts : Nat) (u : Int) : Computed :=
  if sel.wf = true ∧ ts ≤ Config.scaleMax then computeTounsc sel ts u else .error (.invalidDomain .scaleRange)

/-- `toDecimalText` with a target scale: rescaled by TOUNSC with the engine's rounding mode, then formatted at the
target scale (R278). -/
def toDecimalTextAt (sel : Selector) (ts : Nat) (u : Int) : Except CmdError (List Char) :=
  match rescaleText sel ts u with
  | .ok v => .ok (toDecimalText ts v)
  | .error e => .error e

/-- A parsed text: the sign, the integer `D` all digits spell, and the number `k` of digits after the point (R277). -/
structure DecimalText where
  negative : Bool
  digits : Nat
  fraction : Nat
  deriving DecidableEq, Repr

/-- The integer part of a text, or `none` where a character is no digit: the value so far extended by digits. -/
def spellDigits : Nat → List Char → Option Nat
  | v, [] => some v
  | v, c :: rest =>
    match digitValue? c with
    | some d => spellDigits (10 * v + d) rest
    | none => none

/-- The characters before the first point, and those after it when there is one. -/
def splitPoint : List Char → List Char × Option (List Char)
  | [] => ([], none)
  | c :: rest =>
    if c = '.' then ([], some rest)
    else
      match splitPoint rest with
      | (i, f) => (c :: i, f)

/-- `digits [ "." digits ]`, with at least one digit on each side of a point (R277, D32). -/
def parseUnsigned (t : List Char) : Option (Nat × Nat) :=
  match splitPoint t with
  | ([], _) => none
  | (_ :: _, some []) => none
  | (i, none) =>
    match spellDigits 0 i with
    | some v => some (v, 0)
    | none => none
  | (i, some f) =>
    match spellDigits 0 i with
    | some v =>
      match spellDigits v f with
      | some d => some (d, f.length)
      | none => none
    | none => none

/-- The grammar of R277: an optional sign, digits, optionally a point and digits; nothing else. -/
def parseDecimalText (t : List Char) : Option DecimalText :=
  match t with
  | '-' :: rest => (parseUnsigned rest).map (fun r => { negative := true, digits := r.1, fraction := r.2 })
  | '+' :: rest => (parseUnsigned rest).map (fun r => { negative := false, digits := r.1, fraction := r.2 })
  | rest => (parseUnsigned rest).map (fun r => { negative := false, digits := r.1, fraction := r.2 })

/-- `σ × D` of a parsed text (R277). -/
def DecimalText.signed (p : DecimalText) : Int := if p.negative then -(p.digits : Int) else p.digits

/-- `rnd(mode, σ × D × 10^s, 10^k)` with "the sign given to the rounding engine ... `σ` also when the truncated value is
0" (R277). -/
def DecimalText.round (p : DecimalText) (mode : RoundingMode) (s : Nat) : Computed :=
  rnd mode (p.signed * romSF s) (10 ^ p.fraction : Nat)

/-- `fromDecimalText` of an engine: any other content is a format error (INVALID_DOMAIN, TEXT_FORMAT), raised by the host
library (R277). -/
def fromDecimalText (sel : Selector) (t : List Char) : Computed :=
  match parseDecimalText t with
  | none => .error (.invalidDomain .textFormat)
  | some p => fitRounded sel.ovf (p.round sel.mode (selScale sel))

end Sys2Proof.Machine
end

