-- ==== Sys2Proof/Machine/Assembler.lean ====
section
/-! DEFINITION. The spec's notation for a host's program and its pseudo-commands (spec/30_encoding.md R81, R82): lines of
text to register accesses. It is the host's, not the engine's: no step of the machine uses it. What the rules leave open of
the spelling is the model's choice (DESIGN CHOICE, log 16), said at the definition that settles it. -/

namespace Sys2Proof.Machine

/-- One line of a host's program (R81). -/
inductive AsmLine
  /-- `PORT <p>`: the accesses that follow go to port `p`. -/
  | port (p : Nat)
  /-- `WR <register>, <value>`. -/
  | wr (i : Fin 8) (v : Word)
  /-- `<command>`: a write of its word to `CMD`. -/
  | command (c : Instr)
  /-- `RD <register>`. -/
  | rd (i : Fin 8)
  /-- `MOVR OPA` or `MOVR OPB`: `RD RES`, then a write of the value read (R82). -/
  | movr (i : Fin 8)
  /-- An empty line or a comment. -/
  | blank
  deriving DecidableEq, Repr

/-- The accesses of one line on the port in force (R81, R82). -/
def AsmLine.accesses (p : Nat) : AsmLine → List Access
  | .port _ => []
  | .wr i v => [.regWrite p i v]
  | .command c => [.regWrite p 2 ((encode c).setWidth 64)]
  | .rd i => [.regRead p i]
  | .movr i => [.regRead p 3, .writeReply p i]
  | .blank => []

/-- The port in force after a line (R81). -/
def AsmLine.portAfter (p : Nat) : AsmLine → Nat
  | .port q => q
  | .wr _ _ | .command _ | .rd _ | .movr _ | .blank => p

/-- The accesses of a program from the port in force (R81: "without one, port 0 is meant"). -/
def assemble : Nat → List AsmLine → List Access
  | _, [] => []
  | p, l :: rest => l.accesses p ++ assemble (l.portAfter p) rest

/-- `ONE.s<k>` is `METRIC.s<k> SF` (R82). DESIGN CHOICE, log 16: a mode or overflow qualifier, for which the table of R82 has
no place, is read too and goes into the METRIC word. -/
def pseudoOne (sel : Selector) : Instr := .metric sel .sf

/-- `MULSF.s<k>.<C or U>` is `FROMLONG.s<k>.<C or U>` (R82). DESIGN CHOICE, log 16: a mode qualifier, for which the table of
R82 has no place, is read too and goes into the FROMLONG word. -/
def pseudoMulsf (sel : Selector) : Instr := .fromlong sel

/-- `DIVSF.s<k>` is `TOLONG.s<k>.DOWN` (R82). DESIGN CHOICE, log 16: a mode or overflow qualifier, for which the table of R82
has no place, is read too; the mode is dropped (`DIVSF.s2.UP` is `TOLONG.s2.DOWN`), the overflow letter goes into the TOLONG
word. -/
def pseudoDivsf (sel : Selector) : Instr := .tolong (sel.deriveRounding .down)

/-- A name in a list of names. -/
def lookupName {α : Type} (t : List Char) : List (String × α) → Option α
  | [] => none
  | (n, x) :: rest => if n.toList = t then some x else lookupName t rest

/-- The mnemonics (R76), the pseudo-commands that stand for one command, and the long spellings (R82). DESIGN CHOICE, log 16:
each is followed by the qualifiers of R81, the pseudo-commands and the long spellings too. -/
def mnemonics : List (String × CommandForm) :=
  [("NOP", .plain .nop), ("ADD", .plain .add), ("SUB", .plain .sub), ("NEG", .plain .neg), ("ABS", .plain .abs),
   ("AVG", .plain .avg), ("SHL", .plain .shl), ("SHR", .plain .shr), ("MUL", .plain .mul), ("SQR", .plain .sqr),
   ("DIV", .plain .div), ("INV", .plain .inv), ("SQRT", .plain .sqrt), ("POW", .plain .pow),
   ("MULP10", .plain .mulp10), ("DIVP10", .plain .divp10), ("FROMLONG", .plain .fromlong),
   ("TOLONG", .plain .tolong), ("FROMUNSC", .scaled .fromunsc), ("TOUNSC", .scaled .tounsc),
   ("FROMDBL", .plain .fromdbl), ("TODBL", .plain .todbl), ("MODSF", .plain .modsf), ("METRIC", .lut .metric),
   ("ONE", .plain pseudoOne), ("MULSF", .plain pseudoMulsf), ("DIVSF", .plain pseudoDivsf),
   ("SUBTRACT", .plain .sub), ("MULTIPLY", .plain .mul), ("DIVIDE", .plain .div), ("INVERT", .plain .inv),
   ("SQUARE", .plain .sqr), ("AVERAGE", .plain .avg)]

/-- The mode mnemonics (R72). -/
def modeNames : List (String × RoundingMode) :=
  [("UP", .up), ("DOWN", .down), ("CEILING", .ceiling), ("FLOOR", .floor), ("HALF_UP", .halfUp),
   ("HALF_DOWN", .halfDown), ("HALF_EVEN", .halfEven), ("UNNECESSARY", .unnecessary)]

/-- The overflow letters (R73). -/
def ovfNames : List (String × OverflowMode) := [("C", .checked), ("U", .unchecked)]

/-- The names of the LUT entries (R81). -/
def metricNames : List (String × Metric) :=
  [("SF", .sf), ("MAXINT", .maxInt), ("MININT", .minInt), ("HALFSF", .halfSf), ("SQRTSF", .sqrtSf),
   ("SFBITS", .sfBits), ("DBLMIN", .dblMin), ("DBLMAX", .dblMax)]

/-- The registers a line may name (R81): written ones first. -/
def registerNames : List (String × Fin 8) := [("OPA", 0), ("OPB", 1), ("CMD", 2), ("RES", 3), ("STATUS", 4)]

/-- The value of a hexadecimal digit, its letter in either case (DESIGN CHOICE, log 16). -/
def hexValue? (c : Char) : Option Nat :=
  if 48 ≤ c.toNat ∧ c.toNat ≤ 57 then some (c.toNat - 48)
  else if 65 ≤ c.toNat ∧ c.toNat ≤ 70 then some (c.toNat - 55)
  else if 97 ≤ c.toNat ∧ c.toNat ≤ 102 then some (c.toNat - 87)
  else none

/-- The value of hexadecimal digits. -/
def spellHex : Nat → List Char → Option Nat
  | v, [] => some v
  | v, c :: rest =>
    match hexValue? c with
    | some d => spellHex (16 * v + d) rest
    | none => none

/-- A decimal number of at least one digit, leading zeros allowed (DESIGN CHOICE, log 16). -/
def readNat? : List Char → Option Nat
  | [] => none
  | t@(_ :: _) => spellDigits 0 t

/-- `<value>`: "a signed decimal integer in [MIN, MAX] (written as `u64` of it), or a `0x` pattern of up to 16
hexadecimal digits" (R81). DESIGN CHOICE, log 16: the only sign read is a leading "-", a number with a leading "+" is
refused; "0x" has a small x. -/
def readValue? : List Char → Option Word
  | '0' :: 'x' :: t => if t.length ≤ 16 ∧ t ≠ [] then (spellHex 0 t).map (BitVec.ofNat 64) else none
  | '-' :: t => (readNat? t).bind (fun n => if inRange (-(n : Int)) then some (u64 (-(n : Int))) else none)
  | t => (readNat? t).bind (fun n => if inRange n then some (u64 n) else none)

/-- Cut a text at every character of a kind, dropping empty pieces. -/
def splitAtChars (cut : Char → Bool) : List Char → List (List Char)
  | [] => [[]]
  | c :: rest =>
    if cut c then [] :: splitAtChars cut rest
    else
      match splitAtChars cut rest with
      | [] => [[c]]
      | w :: ws => (c :: w) :: ws

/-- The non-empty words of a text. -/
def words (cut : Char → Bool) (t : List Char) : List (List Char) := (splitAtChars cut t).filter (fun w => !w.isEmpty)

/-- `[.s<scale>]`: a decimal scale that fits the field; an omitted one is 0 (R81, D38). Scales 19 to 31 are read too, as
program P2 of 95_test_vectors.md writes `NOP.s19` (log 16). -/
def readScale : List (List Char) → Option (BitVec 5 × List (List Char))
  | ('s' :: t) :: rest =>
    match readNat? t with
    | some n => if n < 32 then some (BitVec.ofNat 5 n, rest) else none
    | none => none
  | rest => some (0, rest)

/-- `[.<MODE>]`, by default DOWN (R81). -/
def readMode : List (List Char) → RoundingMode × List (List Char)
  | [] => (.down, [])
  | t :: rest =>
    match lookupName t modeNames with
    | some m => (m, rest)
    | none => (.down, t :: rest)

/-- `[.<C|U>]`, by default U, and nothing after it (R81). -/
def readOvf : List (List Char) → Option OverflowMode
  | [] => some .unchecked
  | [t] => lookupName t ovfNames
  | _ :: _ :: _ => none

/-- The qualifiers of a command, in the order of R81 only (DESIGN CHOICE, log 16: another order is refused). -/
def readQualifiers (t : List (List Char)) : Option Selector :=
  match readScale t with
  | none => none
  | some (s, rest) =>
    match readOvf (readMode rest).2 with
    | none => none
    | some o => some { scale := s, mode := (readMode rest).1, ovf := o }

/-- `MNEMONIC[.s<scale>][.<MODE>][.<C|U>] [<aux>]` (R81). DESIGN CHOICE, log 16: the pseudo-commands ONE, MULSF and DIVSF take
every qualifier of this form, beyond those the table of R82 writes; an aux number is read up to 31, and an aux is refused
after a command that uses none. -/
def readCommand (head : List Char) (args : List (List Char)) : Option Instr :=
  match splitAtChars (fun c => c == '.') head with
  | [] => none
  | m :: quals =>
    match lookupName m mnemonics, readQualifiers quals with
    | some (.plain c), some sel => if args = [] then some (c sel) else none
    | some (.scaled c), some sel =>
      match args with
      | [t] => (readNat? t).bind (fun n => if n < 32 then some (c sel (BitVec.ofNat 5 n)) else none)
      | [] | _ :: _ :: _ => none
    | some (.lut c), some sel =>
      match args with
      | [t] => (lookupName t metricNames).map (c sel)
      | [] | _ :: _ :: _ => none
    | _, _ => none

/-- The words of a line: a comment from ";" on is dropped (R81). DESIGN CHOICE, log 16: any run of blanks and commas separates
two words, and no other character does. -/
def lineWords (t : List Char) : List (List Char) := words (fun c => c == ' ' || c == ',') (t.takeWhile (fun c => c != ';'))

/-- One line of a host's program (R81). DESIGN CHOICE, log 16: the `<word>` of `WR CMD, <word>`, whose spelling R81 leaves
open, is read as a `<value>`, so a negative decimal and a pattern wider than 32 bits are read too (the access is then the
64-bit `RegWrite` of 20_memory.md R53); a line of blanks or of a comment alone is no access; `WR RES` and `WR STATUS`, which
R81 does not write, are refused. -/
def readLine (t : List Char) : Option AsmLine :=
  match lineWords t with
  | [] => some .blank
  | h :: args =>
    if h = "PORT".toList then
      match args with
      | [p] => (readNat? p).map .port
      | [] | _ :: _ :: _ => none
    else if h = "WR".toList then
      match args with
      | [r, v] =>
        match lookupName r (registerNames.take 3), readValue? v with
        | some i, some w => some (.wr i w)
        | _, _ => none
      | [] | [_] | _ :: _ :: _ :: _ => none
    else if h = "RD".toList then
      match args with
      | [r] => (lookupName r registerNames).map .rd
      | [] | _ :: _ :: _ => none
    else if h = "MOVR".toList then
      match args with
      | [r] => (lookupName r (registerNames.take 2)).map .movr
      | [] | _ :: _ :: _ => none
    else (readCommand h args).map .command

end Sys2Proof.Machine
end

