-- ==== Sys2Proof/Machine/Datapath.lean ====
section
/-! DEFINITION. The datapath rules: how the spec says the results of the contract rules are reached with limbs of 64
bits (spec/42_checked_primitives.md R145, R149, R150, R152; 43_mul_div.md R172, R173, R179 to R182; 44_sqrt_pow.md R209;
46_double_conversion.md R253, R255). They are informative ("A model may ignore the datapath rules", 43_mul_div.md) and
no meaning calls them; statements say that they give the contract's values. -/

namespace Sys2Proof.Machine

/-- The floor average `(a AND b) + ((a XOR b) arithmetically shifted right by 1)` (R145). -/
def floorAverage (a b : Word) : Word := (a &&& b) + (a ^^^ b).sshiftRight 1

/-- Add overflows iff `((a XOR r) AND (b XOR r))[63] = 1`, `r` the wrapped sum (R149). -/
def addOverflows (a b : Word) : Bool := ((a ^^^ (a + b)) &&& (b ^^^ (a + b))).getLsbD 63

/-- Subtract overflows iff `((a XOR b) AND (a XOR r))[63] = 1`, `r` the wrapped difference (R149). -/
def subOverflows (a b : Word) : Bool := ((a ^^^ b) &&& (a ^^^ (a - b))).getLsbD 63

/-- `z = nlz(a) + nlz(NOT a) + nlz(b) + nlz(NOT b)` (R150). -/
def mulLeadingZeros (a b : Word) : Nat := nlz a + nlz (~~~a) + nlz b + nlz (~~~b)

/-- Does the product overflow, by leading zeros and a verifying division (R150)? -/
def mulOverflows (a b : Word) : Bool :=
  if 65 < mulLeadingZeros a b then false
  else if mulLeadingZeros a b < 64 then true
  else !(!(decide (s64 a < 0) && decide (s64 b = MIN))
    && (decide (a = 0) || decide (quot (s64 (a * b)) (s64 a) = s64 b)))

/-- Does a left shift by `n ≥ 0` overflow, by leading zeros (R147, R152)? -/
def shlOverflows (a : Word) (n : Nat) : Bool :=
  if 0 < s64 a then decide (nlz a ≤ n) else if s64 a < 0 then decide (nlz (~~~a) ≤ n) else false

/-- A truncated quotient with the magnitude of its remainder, as the split-limb unit leaves it. -/
structure SplitProduct where
  trunc : Int
  remainder : Nat
  deriving DecidableEq, Repr

/-- `T = 10^9`, the limb base of scales above 9 (R173). -/
def limbBase : Int := 10 ^ 9

/-- The product split at the scale factor, scales 1 to 9 (R172). -/
def mulSplitLow (sf a b : Int) : SplitProduct :=
  { trunc := quot a sf * quot b sf * sf + quot a sf * rem b sf + rem a sf * quot b sf + quot (rem a sf * rem b sf) sf
    remainder := (rem (rem a sf * rem b sf) sf).natAbs }

/-- Lane 0 and the carry out of it (R173). -/
def lane0 (a b : Int) : Int := rem (rem a limbBase * rem b limbBase) limbBase

/-- The middle sum `m` of the cross products and the carry `c0` (R173). -/
def laneMid (a b : Int) : Int :=
  quot a limbBase * rem b limbBase + rem a limbBase * quot b limbBase
    + quot (rem a limbBase * rem b limbBase) limbBase

/-- Lane 1 (R173). -/
def lane1 (a b : Int) : Int := rem (laneMid a b) limbBase

/-- Lanes 2 and 3 as one number (R173). -/
def laneTop (a b : Int) : Int := quot a limbBase * quot b limbBase + quot (laneMid a b) limbBase

/-- The product split at `10^9`, scales 10 to 18, `d = s − 9` (R173). -/
def mulSplitHigh (d : Nat) (a b : Int) : SplitProduct :=
  { trunc := laneTop a b * 10 ^ (9 - d) + quot (lane1 a b) (10 ^ d)
    remainder := (rem (lane1 a b) (10 ^ d) * 10 ^ 9 + lane0 a b).natAbs }

/-- Rounding and the overflow law on a split product (R172, R173: `R = t + increment(...)`, `fit(ovf, R)`). -/
def finishSplit (sel : Selector) (sign : Int) (x : SplitProduct) : Computed :=
  match increment sel.mode sign (isOdd x.trunc.natAbs) (part x.remainder (scaleFactor (selScale sel))) with
  | .error e => .error e
  | .ok k => fit sel.ovf (x.trunc + k)

/-- The multiplier: the fast path of scale 0, the split at the scale factor, or the split at `10^9` (R172 to R174;
47_dispatch_and_text.md R273). -/
def mulDatapath (sel : Selector) (a b : Int) : Computed :=
  if selScale sel = 0 then fit sel.ovf (a * b)
  else if selScale sel ≤ 9 then finishSplit sel (sgn a * sgn b) (mulSplitLow (selSF sel) a b)
  else finishSplit sel (sgn a * sgn b) (mulSplitHigh (selScale sel - 9) a b)

/-- Lower a trial quotient digit once when it is too large: "while the estimate is 2^32 or more, or `estimate × v0`
exceeds the next partial remainder" (R182 step 4). The second component is the trial remainder. -/
def lowerDigit (v1 v0 next : Nat) (e : Nat × Nat) : Nat × Nat :=
  if 2 ^ 32 ≤ e.1 ∨ e.2 * 2 ^ 32 + next < e.1 * v0 then (e.1 - 1, e.2 + v1) else e

/-- One 32-bit quotient digit of a partial remainder `top` with the next dividend digit, lowered "at most twice" (R182
step 4); the divisor is `v1 × 2^32 + v0`. -/
def quotientDigit (v1 v0 top next : Nat) : Nat :=
  (lowerDigit v1 v0 next (lowerDigit v1 v0 next (top / v1, top % v1))).1

/-- The two-digit division of a normalised dividend, high part below the divisor (R182 steps 3 to 5): quotient and last
partial remainder. -/
def divDigits (v high low : Nat) : Nat × Nat :=
  let q1 := quotientDigit (v / 2 ^ 32) (v % 2 ^ 32) high (low / 2 ^ 32)
  let mid := high * 2 ^ 32 + low / 2 ^ 32 - q1 * v
  let q0 := quotientDigit (v / 2 ^ 32) (v % 2 ^ 32) mid (low % 2 ^ 32)
  (q1 * 2 ^ 32 + q0, mid * 2 ^ 32 + low % 2 ^ 32 - q0 * v)

/-- The division of a dividend whose high limb is below the divisor: normalise, divide, shift the remainder back (R182
steps 2 and 6). -/
def divNormalised (hi lo v : Nat) : Nat × Nat :=
  let n := (hi * 2 ^ 64 + lo) * 2 ^ (64 - bitlen v)
  let qr := divDigits (v * 2 ^ (64 - bitlen v)) (n / 2 ^ 64) (n % 2 ^ 64)
  (qr.1, qr.2 / 2 ^ (64 - bitlen v))

/-- `DivWide(hi, lo, v)`: quotient and remainder of `hi × 2^64 + lo` by `v`, in two stages when the quotient needs more
than 64 bits (R182 step 1). -/
def divWide (hi lo v : Nat) : Nat × Nat :=
  let qr := divNormalised (hi % v) lo v
  (hi / v * 2 ^ 64 + qr.1, qr.2)

/-- `|b| = 10^k` for some `0 ≤ k ≤ 18` (R179 case 7). -/
def powerOfTen? (b : Int) : Option Nat := (List.range 19).find? (fun k => decide (10 ^ k = b.natAbs))

/-- DIV by a power of ten, with ROM constants only (R180). -/
def divByPow10 (sel : Selector) (a b : Int) (k : Nat) : Computed :=
  if k ≤ selScale sel then fit sel.ovf (sgn b * a * romSF (selScale sel - k))
  else fitRounded sel.ovf (rnd sel.mode (sgn b * a) (romSF (k - selScale sel)))

/-- Quotient and remainder of the scaled dividend by `|b|`: one 64-bit division when `|a| × SF` fits, the 128-bit
division otherwise (R181). -/
def scaledQuotient (n v : Nat) : Nat × Nat :=
  if n < 2 ^ 63 then (n / v, n % v) else divWide (n / 2 ^ 64) (n % 2 ^ 64) v

/-- DIV in the general case (R181). -/
def divGeneral (sel : Selector) (a b : Int) : Computed :=
  let qr := scaledQuotient (a.natAbs * scaleFactor (selScale sel)) b.natAbs
  fitRounded sel.ovf (roundMagnitude sel.mode (sgn a * sgn b) qr.1 (part qr.2 b.natAbs))

/-- The divider: the special cases of R179 in their order, then the power-of-ten and the general case. -/
def divDatapath (sel : Selector) (a b : Int) : Computed :=
  if b = 0 then .error .divByZero
  else if a = 0 then .ok 0
  else if b = selSF sel then .ok a
  else if b = -selSF sel then fit sel.ovf (-a)
  else if a = b then .ok (selSF sel)
  else if a = -b then .ok (-selSF sel)
  else
    match powerOfTen? b with
    | some k => divByPow10 sel a b k
    | none => divGeneral sel a b

/-- The closed forms of the integer power for bases −2 to 2 and `n ≥ 1` (44_sqrt_pow.md R209). -/
def powClosedForm (ovf : OverflowMode) (a : Int) (n : Nat) : Option Computed :=
  if a = 0 then some (.ok 0)
  else if a = 1 then some (.ok 1)
  else if a = -1 then some (.ok (if isOdd n then -1 else 1))
  else if a = 2 ∨ a = -2 then
    some
      (if n ≤ 62 then .ok (if a = -2 ∧ isOdd n then -(2 ^ n) else 2 ^ n)
       else if a = -2 ∧ n = 63 then .ok MIN
       else
        match ovf with
        | .checked => .error .overflow
        | .unchecked => .ok (if n = 63 then MIN else 0))
  else none

/-- "For `e2 ≥ 0` overflow is certain when `bitlen(N) + e2 > 63`" (46_double_conversion.md R253). -/
def fromdblLeftOverflows (n e2 : Nat) : Bool := decide (63 < bitlen n + e2)

/-- Does a finite double's magnitude exceed that of DBLMAX (46_double_conversion.md R255)? Magnitudes of doubles of one
sign compare as their patterns do. -/
def exceedsDblMax (s : Nat) (v : Word) : Bool :=
  decide ((toBinary64 MAX (scaleFactor s)).toNat < v.toNat % 2 ^ 63)

end Sys2Proof.Machine
end

