-- ==== Sys2Proof/Machine/Engine.lean ====
section
/-! DEFINITION. The semantic core of the FDAE as one pure function, `EXEC(w, A, B)` (spec/30_encoding.md R79): "a total
function from a 32-bit word and two 64-bit patterns to an outcome; it reads nothing else" (20_memory.md R54). -/

namespace Sys2Proof.Machine

/-- The outcome of a decoded command on two operand patterns (30_encoding.md R76, R79). -/
def commandResult (i : Instr) (a b : Word) : CmdResult :=
  match i with
  | .nop _ => .okNoValue
  | .add sel => .ofComputed (computeAdd sel (s64 a) (s64 b))
  | .sub sel => .ofComputed (computeSub sel (s64 a) (s64 b))
  | .neg sel => .ofComputed (computeNeg sel (s64 a))
  | .abs sel => .ofComputed (computeAbs sel (s64 a))
  | .avg sel => .ofComputed (computeAvg sel (s64 a) (s64 b))
  | .shl sel => .ofComputed (computeShl sel (s64 a) (s64 b))
  | .shr sel => .ofComputed (computeShr sel (s64 a) (s64 b))
  | .mul sel => .ofComputed (computeMul sel (s64 a) (s64 b))
  | .sqr sel => .ofComputed (computeSqr sel (s64 a))
  | .div sel => .ofComputed (computeDiv sel (s64 a) (s64 b))
  | .inv sel => .ofComputed (computeInv sel (s64 a))
  | .sqrt sel => .ofComputed (computeSqrt sel (s64 a))
  | .pow sel => .ofComputed (computePow sel (s64 a) (s64 b))
  | .mulp10 sel => .ofComputed (computeMulp10 sel (s64 a) (s64 b))
  | .divp10 sel => .ofComputed (computeDivp10 sel (s64 a) (s64 b))
  | .fromlong sel => .ofComputed (computeFromlong sel (s64 a))
  | .tolong sel => .ofComputed (computeTolong sel (s64 a))
  | .fromunsc sel aux => .ofComputed (computeFromunsc sel aux.toNat (s64 a))
  | .tounsc sel aux => .ofComputed (computeTounsc sel aux.toNat (s64 a))
  | .fromdbl sel => .ofComputed (computeFromdbl sel a)
  | .todbl sel => .ofComputed (computeTodbl sel (s64 a))
  | .modsf sel => .ofComputed (computeModsf sel (s64 a))
  | .metric sel k => .ofComputed (computeMetric sel k)

/-- `EXEC(w, A, B)`: checks 1 to 4 of R78, then the command's own rule (R79). -/
def engine (w : CmdWord) (a b : Word) : CmdResult :=
  match decode w with
  | .error e => .err (CmdError.ofDecode e)
  | .ok i => commandResult i a b

end Sys2Proof.Machine
end

