-- ==== Sys2Proof/Safety.lean ====
section
/-! DEFINITION. The terms the statements use: the reset condition of the spec, which leaves three registers open
(spec/10_state.md R35), the invariant every step keeps, sequences of accesses, and the rounding of an exact rational by the
closed forms of 41_rounding.md R128 with the states a command may end in. No meaning calls anything of this file. -/

namespace Sys2Proof.Machine

/-- A state right after reset as the SPEC has it: `CMD` and `STATUS` of every port are 0, and `OPA`, `OPB`, `RES` hold
any value (10_state.md R35). `State.reset` is one of these. -/
def State.IsReset (s : State) : Prop :=
  ∀ p, Config.hasPort p = true → ∃ opa opb res : Word, s.port p = Port.resetWith opa opb res

/-- The status words the FDAE produces (60_exceptions.md R303; R302 code 0): "All other (code, sub) pairs are never
produced", and TEXT_FORMAT "the FDAE never writes". -/
def legalStatus : List CmdWord :=
  [0x00000000, 0x00000001, 0x00000002, 0x00000003, 0x00000005, 0x00000014, 0x00000024, 0x00000034, 0x00000016,
   0x00000026, 0x00000036]

/-- The invariant: the ports are in canonical form, only existing ports are listed (10_state.md R34), and every port's
`STATUS` is a word the FDAE produces. -/
def State.Inv (s : State) : Prop :=
  portsWf s.ports = true ∧ (∀ e ∈ s.ports, Config.hasPort e.1 = true) ∧ (∀ p, (s.port p).status ∈ legalStatus)

/-- Does an access read (20_memory.md R51, R57)? -/
def Access.isRead : Access → Bool
  | .regRead _ _ | .busRead _ _ => true
  | .regWrite _ _ _ | .writeReply _ _ | .busWrite _ _ => false

/-- Does an access write what the host last read, possibly from another port (30_encoding.md R82)? -/
def Access.feedsBack : Access → Bool
  | .writeReply _ _ => true
  | .regRead _ _ | .regWrite _ _ _ | .busRead _ _ | .busWrite _ _ => false

/-- A port after `Execute(P)` of a command word, by the three cases of 20_memory.md R54: `CMD` the word, `RES` and `STATUS` by
the outcome, `OPA` and `OPB` as they were. -/
def Port.executed (q : Port) (w : CmdWord) : Port :=
  match engine w q.opa q.opb with
  | .ok v => { q with cmd := w, res := BitVec.ofInt 64 v, status := 0 }
  | .okNoValue => { q with cmd := w, status := 0 }
  | .err e => { q with cmd := w, status := BitVec.ofNat 32 (e.code + e.subCause * 2 ^ 4) }

/-- Perform accesses one after another (20_memory.md R61(a)). -/
def performAll : List Access → State → Host.Outcome State Fault Refusal
  | [], s => .next s
  | x :: rest, s =>
    match performAccess x s with
    | .next t => performAll rest t
    | .fault f => .fault f
    | .refused r => .refused r

/-- What the reads of port `p` among these accesses answer, in their order, up to the first access that stops. -/
def portAnswers (p : Nat) : List Access → State → List Reply
  | [], _ => []
  | x :: rest, s =>
    match performAccess x s with
    | .next t => if x.isRead ∧ x.port? = some p then t.reply :: portAnswers p rest t else portAnswers p rest t
    | .fault _ => []
    | .refused _ => []

/-- Bytes that are the low bytes of a value, the lowest address holding bits 7:0 (20_memory.md R56). -/
def littleEndian (bs : List Byte) (v : Word) : Prop := ∀ k (hk : k < bs.length), bs[k] = v.extractLsb' (8 * k) 8

/-- The nearest integer to a rational, the even one at a tie (41_rounding.md R128, HALF_EVEN). -/
def nearestEven (x : ℚ) : Int :=
  if x - ⌊x⌋ < 1 / 2 then ⌊x⌋
  else if 1 / 2 < x - ⌊x⌋ then ⌊x⌋ + 1
  else if ⌊x⌋ % 2 = 0 then ⌊x⌋ else ⌊x⌋ + 1

/-- An exact result rounded to an integer by the closed forms of 41_rounding.md R128: UP `sign × ceil(|x|)`, DOWN toward
zero, CEILING and FLOOR, HALF_UP `sign × floor(|x| + 1/2)`, HALF_DOWN `sign × ceil(|x| − 1/2)`, HALF_EVEN the nearest with
ties to even. Under UNNECESSARY it is used for integers only. -/
def roundRat (mode : RoundingMode) (x : ℚ) : Int :=
  match mode with
  | .up => if x < 0 then -⌈-x⌉ else ⌈x⌉
  | .down => if x < 0 then -⌊-x⌋ else ⌊x⌋
  | .ceiling => ⌈x⌉
  | .floor => ⌊x⌋
  | .halfUp => if x < 0 then -⌊-x + 1 / 2⌋ else ⌊x + 1 / 2⌋
  | .halfDown => if x < 0 then -⌈-x - 1 / 2⌉ else ⌈x - 1 / 2⌉
  | .halfEven => nearestEven x
  | .unnecessary => ⌊x⌋

/-- A rational that is no integer under the exact-required mode: the case of ROUNDING_NECESSARY (41_rounding.md R126). -/
def mustRaise (mode : RoundingMode) (x : ℚ) : Bool := decide (mode = .unnecessary ∧ x.den ≠ 1)

/-- The state after a command whose exact integer result is `r`, under the overflow law (41_rounding.md R130): OVERFLOW
(`STATUS` 1) in checked mode when `r` is outside [MIN, MAX], else `RES` is the low 64 bits of `r` and `STATUS` is 0. -/
def State.afterExact (s : State) (ovf : OverflowMode) (r : Int) : State :=
  if ovf = .checked ∧ ¬ (MIN ≤ r ∧ r ≤ MAX) then s.withStatus 1 else s.withResult r

/-- The state after a command whose exact result is the rational `x`, rounded, with no overflow law:
ROUNDING_NECESSARY (`STATUS` 3), else `RES` is the rounded value and `STATUS` is 0. -/
def State.afterRounding (s : State) (mode : RoundingMode) (x : ℚ) : State :=
  if mustRaise mode x then s.withStatus 3 else s.withResult (roundRat mode x)

/-- The state after a command whose exact result is the rational `x`: rounding first, then the overflow law
(41_rounding.md R131). -/
def State.afterRoundingFit (s : State) (sel : Selector) (x : ℚ) : State :=
  if mustRaise sel.mode x then s.withStatus 3 else s.afterExact sel.ovf (roundRat sel.mode x)

/-- The value of a 36-digit number (44_sqrt_pow.md R210): `M / 10^35 × 2^p`. -/
def Num36.value (x : Num36) : ℚ := (x.mant : ℚ) / 10 ^ 35 * 2 ^ x.exp

/-- The value of a finite double (46_double_conversion.md R251): `sign × sig × 2^exp2`. -/
def DoubleValue.value (d : DoubleValue) : ℚ := (d.sign : ℚ) * d.sig * 2 ^ d.exp2

end Sys2Proof.Machine
end

