-- ==== Sys2Proof/Certificates/Slice0/Obligations.lean ====
section
/-! DEFINITION. The statements for the provers. They come from the numbered rules of spec/; OBLIGATIONS.json names the
rule of each. `s.opA`, `s.opB`, `s.opN` are the operands of the addressed port read as signed integers (30_encoding.md
R75), `s.withResult v` sets `RES` to the low 64 bits of `v` and `STATUS` to 0, `s.withStatus w` sets `STATUS`; both on the
addressed port and nowhere else (statement ResultAndStatusWrites). -/

open Sys2Proof Sys2Proof.Machine

/-! ## Encoding -/

/-- Decoding the word of a well-formed command gives the command back (30_encoding.md R70, R76, R78). -/
def Obligations.DecodeOfEncode : Prop := ∀ i : Instr, i.wf = true → decode (encode i) = .ok i

/-- Every word that decodes is the word of the command it decodes to, and that command is well formed (R70, R77). -/
def Obligations.EncodeOfDecode : Prop := ∀ (w : CmdWord) (i : Instr), decode w = .ok i → i.wf = true ∧ encode i = w

/-- The checks 1 to 4 of R78 in their order, with the status words of 60_exceptions.md R303; a word that passes them all is
a command and ends by its own rule. -/
def Obligations.WordChecksInOrder : Prop :=
  ∀ (w : CmdWord) (a b : Word),
    let op := w.toNat % 2 ^ 6
    let scale := w.toNat / 2 ^ 6 % 2 ^ 5
    let aux := w.toNat / 2 ^ 15 % 2 ^ 5
    if w.toNat / 2 ^ 20 ≠ 0 then
      engine w a b = .err (.illegalCommand .reservedBits) ∧ (CmdError.illegalCommand .reservedBits).statusWord = 0x16
    else if 0x18 ≤ op then
      engine w a b = .err (.illegalCommand .reservedOpcode) ∧ (CmdError.illegalCommand .reservedOpcode).statusWord = 0x26
    else if 19 ≤ scale then
      engine w a b = .err (.invalidDomain .scaleRange) ∧ (CmdError.invalidDomain .scaleRange).statusWord = 0x34
    else if (op = 0x12 ∨ op = 0x13) ∧ 19 ≤ aux then engine w a b = .err (.invalidDomain .scaleRange)
    else if op = 0x17 ∧ 8 ≤ aux then
      engine w a b = .err (.illegalCommand .reservedAux) ∧ (CmdError.illegalCommand .reservedAux).statusWord = 0x36
    else if op ≠ 0x12 ∧ op ≠ 0x13 ∧ op ≠ 0x17 ∧ aux ≠ 0 then engine w a b = .err (.illegalCommand .reservedAux)
    else ∃ i, decode w = .ok i ∧ i.opcode = op ∧ engine w a b = commandResult i a b

/-- Words written out from the format of R70 decode to the commands they stand for: DIV.s2.HALF_UP.C is 0x0000608A,
FROMUNSC.s2.HALF_UP.C 3 is 0x0001E092, METRIC.s18 DBLMAX is 0x00038C97, NOP is the reset word 0. -/
def Obligations.KnownWordsDecode : Prop :=
  decode 0x0000608A = .ok (.div { scale := 2, mode := .halfUp, ovf := .checked }) ∧
  decode 0x0001E092 = .ok (.fromunsc { scale := 2, mode := .halfUp, ovf := .checked } 3) ∧
  decode 0x00038C97 = .ok (.metric { scale := 18, mode := .down, ovf := .unchecked } .dblMax) ∧
  decode 0x00000000 = .ok (.nop { scale := 0, mode := .up, ovf := .unchecked })

/-! ## The host's accesses and the step -/

/-- A step whose access writes a command word that decodes to `i` stores the word in `CMD` of the port and is `exec i` at
that state (20_memory.md R53, R54, R55). -/
def Obligations.StepRunsDecodedCommand : Prop :=
  ∀ (s : State) (p : Nat) (v : Word) (rest : List Access) (i : Instr),
    s.host = .regWrite p 2 v :: rest → Config.hasPort p = true → v.toNat < 2 ^ 32 → decode (v.setWidth 32) = .ok i →
    step s = exec i { (s.setPort p { s.port p with cmd := v.setWidth 32 }) with active := p, host := rest }

/-- `Execute(P)`: a `CMD` write leaves exactly the outcome of the pure function EXEC on the port: RES and STATUS by the
three cases, CMD the word, OPA and OPB as they were, every other port untouched (20_memory.md R54; 60_exceptions.md R301). -/
def Obligations.CommandWriteLeavesEngineOutcome : Prop :=
  ∀ (s : State) (p : Nat) (v : Word) (rest : List Access),
    s.host = .regWrite p 2 v :: rest → Config.hasPort p = true → v.toNat < 2 ^ 32 →
    ∃ t, step s = .next t ∧
      t.port p =
        { s.port p with
          cmd := v.setWidth 32
          res := (match engine (v.setWidth 32) (s.port p).opa (s.port p).opb with
            | .ok r => BitVec.ofInt 64 r
            | .okNoValue => (s.port p).res
            | .err _ => (s.port p).res)
          status := (match engine (v.setWidth 32) (s.port p).opa (s.port p).opb with
            | .ok _ => 0
            | .okNoValue => 0
            | .err e => BitVec.ofNat 32 (e.code + e.subCause * 2 ^ 4)) } ∧
      (∀ q, q ≠ p → t.port q = s.port q) ∧ t.host = rest ∧ t.reply = s.reply

/-- `RegWrite` of every register: OPA and OPB take the value, CMD takes the low word and executes it unless a bit above it is
set, the read-only and the reserved registers ignore the write (20_memory.md R53). The access may name its value, or be the
write of the register value the host last read, the second half of MOVR (30_encoding.md section 6). -/
def Obligations.RegisterWriteFollowsRule : Prop :=
  ∀ (s : State) (p : Nat) (i : Fin 8) (v : Word) (x : Access) (rest : List Access),
    s.host = x :: rest → (x = .regWrite p i v ∨ x = .writeReply p i ∧ s.reply = .value v) → Config.hasPort p = true →
    ∃ t, step s = .next t ∧
      t.port p =
        (if i = 0 then { s.port p with opa := v }
         else if i = 1 then { s.port p with opb := v }
         else if i = 2 then
           (if 2 ^ 32 ≤ v.toNat then { s.port p with cmd := v.setWidth 32, status := 0x16 }
            else (s.port p).executed (v.setWidth 32))
         else s.port p) ∧
      (∀ q, q ≠ p → t.port q = s.port q) ∧ t.host = rest ∧ t.reply = s.reply

/-- `RegRead` returns the register, zero-extended, reserved indices 0, and changes no register (20_memory.md R52). -/
def Obligations.RegisterReadFollowsRule : Prop :=
  ∀ (s : State) (p : Nat) (i : Fin 8) (rest : List Access),
    s.host = .regRead p i :: rest → Config.hasPort p = true →
    ∃ t, step s = .next t ∧ (∀ q, t.port q = s.port q) ∧ t.host = rest ∧
      t.reply = .value
        (if i = 0 then (s.port p).opa
         else if i = 1 then (s.port p).opb
         else if i = 2 then BitVec.ofNat 64 (s.port p).cmd.toNat
         else if i = 3 then (s.port p).res
         else if i = 4 then BitVec.ofNat 64 (s.port p).status.toNat
         else 0)

/-- The bus binding: a 64-bit access at slot `i` of port `p`, and a 32-bit one at its CMD and STATUS slots, is `RegRead(p, i)`
and `RegWrite(p, i, v)` with the value in little-endian bytes (20_memory.md sections 2 and 4 to 6). DEDUCED, log 12: a 64-bit
access at a reserved slot (indices 5 to 7) is accepted, a 32-bit read answers the four low bytes, and a 32-bit write has bits
63:32 zero. DEDUCED, log 5: after a bus read, the value the host feeds back with MOVR is the one its bytes spell. -/
def Obligations.BusSlotIsRegister : Prop :=
  ∀ (s : State) (p : Nat) (i : Fin 8) (size : Nat), Config.hasPort p = true →
    (size = 8 ∨ size = 4 ∧ (i = 2 ∨ i = 4)) →
    (∃ t bs, performAccess (.busRead (Config.base + p * Config.stride + 8 * i.val) size) s = .next t ∧
      (∀ q, t.port q = s.port q) ∧ t.host = s.host ∧ t.reply = .bytes bs ∧ bs.length = size ∧
      littleEndian bs ((s.port p).read i) ∧
      ∀ (q : Nat) (j : Fin 8),
        performAccess (.writeReply q j) t = performAccess (.regWrite q j ((s.port p).read i)) t) ∧
    (∀ (bs : List Byte) (v : Word), bs.length = size → littleEndian bs v → (size = 4 → v.toNat < 2 ^ 32) →
      performAccess (.busWrite (Config.base + p * Config.stride + 8 * i.val) bs) s = performAccess (.regWrite p i v) s)

/-- Every bus access but a 64-bit one at a slot and a 32-bit one at the CMD or STATUS slot of a port that exists is refused
(20_memory.md R58). That the block of a port beyond NPORTS has no slot is the model's reading of 10_state.md R34 (DEDUCED,
log 6). -/
def Obligations.OtherBusAccessesRefused : Prop :=
  ∀ (s : State) (addr size : Nat),
    (∀ p i, Config.hasPort p = true → i < 8 → ¬ (size = 8 ∧ addr = Config.base + p * Config.stride + 8 * i)) →
    (∀ p, Config.hasPort p = true →
      ¬ (size = 4 ∧ (addr = Config.base + p * Config.stride + 16 ∨ addr = Config.base + p * Config.stride + 32))) →
    performAccess (.busRead addr size) s = .refused (.badBusAccess addr size) ∧
    ∀ bs : List Byte, bs.length = size → performAccess (.busWrite addr bs) s = .refused (.badBusAccess addr size)

/-- What reset leaves by the spec: `CMD` and `STATUS` of every port are 0, so the first `RegRead` of them answers 0, and the
reserved indices read 0; `OPA`, `OPB` and `RES` are open (10_state.md R35). `State.reset` is one such state (its zeros in the
open registers are the model's choice, log 1). -/
def Obligations.ResetClearsCommandAndStatus : Prop :=
  State.reset.IsReset ∧
  ∀ (s : State) (p : Nat) (i : Fin 8), s.IsReset → Config.hasPort p = true → i ∈ [2, 4, 5, 6, 7] →
    ∃ t, performAccess (.regRead p i) s = .next t ∧ t.reply = .value 0

/-- The invariant holds right after reset. The port list is the model's form (log 7), the zeros of `OPA`, `OPB`, `RES` its
choice (log 1). -/
def Obligations.ResetMeetsInvariant : Prop := State.reset.Inv

/-- Every step keeps the invariant: canonical ports (the model's form, log 7), no port beyond NPORTS, and `STATUS` one of the
words of 60_exceptions.md R303. -/
def Obligations.StepKeepsInvariant : Prop := ∀ s t : State, s.Inv → step s = .next t → t.Inv

/-- A step changes registers of one port only, the one its access addresses: the port the first pending access names, or the
port of the slot a bus access hits; with no access pending it changes none (10_state.md section 9; idling is the model's
choice, log 3). -/
def Obligations.StepChangesOnePort : Prop :=
  ∀ s t : State, step s = .next t →
    (s.host = [] → ∀ q, t.port q = s.port q) ∧
    (∀ x rest, s.host = x :: rest →
      ∃ p, x.port? = some p ∧ Config.hasPort p = true ∧ ∀ q, q ≠ p → t.port q = s.port q)

/-- "Any interleaving of transactions on different ports gives each port the same values as if it ran alone" (20_memory.md
section 8): the accesses of port `p`, register accesses and bus accesses alike, taken out of any sequence that runs, run
alone too, leave port `p` as the whole sequence does, and their reads answer the same. MOVR's second write is left out: it
writes what the host last read, perhaps from another port, so what runs alone is not one fixed transaction. -/
def Obligations.InterleavingKeepsPortValues : Prop :=
  ∀ (xs : List Access) (s t : State) (p : Nat),
    (∀ x ∈ xs, x.feedsBack = false) → performAll xs s = .next t →
    ∃ u, performAll (xs.filter (fun x => x.port? == some p)) s = .next u ∧ u.port p = t.port p ∧
      portAnswers p (xs.filter (fun x => x.port? == some p)) s = portAnswers p xs s

/-- A repeated write of the same word to `CMD` with unchanged operands leaves the same port (20_memory.md R59). -/
def Obligations.RepeatedCommandIsHarmless : Prop :=
  ∀ (s t : State) (p : Nat) (v : Word), performAccess (.regWrite p 2 v) s = .next t →
    ∃ u, performAccess (.regWrite p 2 v) t = .next u ∧ ∀ q, u.port q = t.port q

/-! ## Commands as a whole -/

/-- What `withResult` and `withStatus`, in which the statements below give their next states, do: RES and STATUS of the
addressed port and nothing else (20_memory.md R54). -/
def Obligations.ResultAndStatusWrites : Prop :=
  ∀ (s : State) (r : Int) (w : CmdWord) (q : Nat),
    (s.withResult r).port q =
      (if q = s.active then { s.port q with res := BitVec.ofInt 64 r, status := 0 } else s.port q) ∧
    (s.withStatus w).port q = (if q = s.active then { s.port q with status := w } else s.port q) ∧
    (s.withResult r).host = s.host ∧ (s.withResult r).reply = s.reply ∧ (s.withResult r).active = s.active ∧
    (s.withStatus w).host = s.host ∧ (s.withStatus w).reply = s.reply ∧ (s.withStatus w).active = s.active

/-- The frame of all 24 commands: a command leaves OPA, OPB and CMD of its port, every other port, the pending accesses
and the last answer as they were; an error, and NOP, leave RES too (10_state.md R22, R24; 60_exceptions.md R301). -/
def Obligations.CommandFrame : Prop :=
  ∀ (i : Instr) (s t : State), exec i s = .next t →
    (∀ q, q ≠ s.active → t.port q = s.port q) ∧
    t.cur.opa = s.cur.opa ∧ t.cur.opb = s.cur.opb ∧ t.cur.cmd = s.cur.cmd ∧
    t.host = s.host ∧ t.reply = s.reply ∧ t.active = s.active ∧
    (t.cur.status ≠ 0 → t.cur.res = s.cur.res) ∧
    ((∃ sel, i = .nop sel) → t.cur.res = s.cur.res)

/-- "The same `(cmd, OPA, OPB)` always gives the same outcome on every port at every time" (60_exceptions.md R304): two
states whose addressed ports agree on the operands end with the same STATUS and, when a value was produced, the same RES,
whatever CMD, RES, STATUS and the other ports hold. -/
def Obligations.OutcomeDependsOnOperandsOnly : Prop :=
  ∀ (i : Instr) (s t s' t' : State), s.cur.opa = s'.cur.opa → s.cur.opb = s'.cur.opb →
    exec i s = .next t → exec i s' = .next t' →
    t.cur.status = t'.cur.status ∧
    (t.cur.status = 0 → (∀ sel, i ≠ .nop sel) → t.cur.res = t'.cur.res)

/-- The commands that read one operand ignore `OPB`, and NOP and METRIC ignore both (30_encoding.md R76, column "reads";
10_state.md R22). -/
def Obligations.UnusedOperandsIgnored : Prop :=
  ∀ (sel : Selector) (aux : BitVec 5) (k : Metric) (a a' b b' : Word),
    (∀ i ∈ [Instr.neg sel, .abs sel, .sqr sel, .inv sel, .sqrt sel, .fromlong sel, .tolong sel, .fromunsc sel aux,
        .tounsc sel aux, .fromdbl sel, .todbl sel, .modsf sel],
      commandResult i a b = commandResult i a b') ∧
    (∀ i ∈ [Instr.nop sel, .metric sel k], commandResult i a b = commandResult i a' b')

/-! ## Rounding and the overflow law -/

/-- `rnd(mode, num, den)` is the closed form of its mode on the exact rational, and raises ROUNDING_NECESSARY exactly when
the mode is UNNECESSARY and the rational is no integer (41_rounding.md section 1). Six rows of the increment table are the
spec's own, from general knowledge (log 10). -/
def Obligations.RoundingIsClosedForm : Prop :=
  ∀ (mode : RoundingMode) (num den : Int), den ≠ 0 →
    rnd mode num den =
      (if mode = .unnecessary ∧ ¬ den ∣ num then .error .roundingNecessary
       else .ok (roundRat mode ((num : ℚ) / den)))

/-- 41_rounding.md R127(b) to (e): every mode but UNNECESSARY is total; an exact result is never changed; the error is
below 1, and at most 1/2 in the half modes; UP and DOWN are symmetric under negation and CEILING and FLOOR swap. -/
def Obligations.RoundingProperties : Prop :=
  ∀ (mode : RoundingMode) (num den : Int), den ≠ 0 →
    (mode ≠ .unnecessary → ∃ r, rnd mode num den = .ok r) ∧
    (∀ q, num = q * den → rnd mode num den = .ok q) ∧
    (∀ r, rnd mode num den = .ok r → |(r : ℚ) - (num : ℚ) / den| < 1) ∧
    (∀ r, (mode = .halfUp ∨ mode = .halfDown ∨ mode = .halfEven) → rnd mode num den = .ok r →
      |(r : ℚ) - (num : ℚ) / den| ≤ 1 / 2) ∧
    (∀ r, (rnd .up num den = .ok r → rnd .up (-num) den = .ok (-r)) ∧
      (rnd .down num den = .ok r → rnd .down (-num) den = .ok (-r)) ∧
      (rnd .ceiling num den = .ok r → rnd .floor (-num) den = .ok (-r)) ∧
      (rnd .floor num den = .ok r → rnd .ceiling (-num) den = .ok (-r)))

/-- The power-of-two divisor: the class of the low `k` bits of a magnitude by the half bit and the bits below it
(41_rounding.md R123). -/
def Obligations.PowerOfTwoClass : Prop :=
  ∀ (m k : Nat), 1 ≤ k →
    part (m % 2 ^ k) (2 ^ k) =
      (if m % 2 ^ k = 0 then .zero
       else if m.testBit (k - 1) = false then .lessThanHalf
       else if m % 2 ^ (k - 1) = 0 then .equalToHalf
       else .greaterThanHalf)

/-- The overflow law `fit`: in range unchanged; outside, OVERFLOW when checked, else the one value of [MIN, MAX] that is
congruent modulo 2^64 (41_rounding.md R130 with 00_scope.md R11). -/
def Obligations.OverflowLaw : Prop :=
  ∀ (ovf : OverflowMode) (r : Int),
    (MIN ≤ r ∧ r ≤ MAX → fit ovf r = .ok r) ∧
    (¬ (MIN ≤ r ∧ r ≤ MAX) → fit .checked r = .error .overflow) ∧
    (¬ (MIN ≤ r ∧ r ≤ MAX) → ∃ v, fit .unchecked r = .ok v ∧ MIN ≤ v ∧ v ≤ MAX ∧ (2 ^ 64 : Int) ∣ r - v)

/-! ## Checked primitives -/

/-- NOP sets STATUS to 0 and leaves RES (42_checked_primitives.md R140). -/
def Obligations.NopClearsStatus : Prop := ∀ (sel : Selector) (s : State), exec (.nop sel) s = .next (s.withStatus 0)

/-- ADD and SUB: the exact sum and difference under the overflow law (42_checked_primitives.md R141, R142). -/
def Obligations.AddAndSubtract : Prop :=
  ∀ (sel : Selector) (s : State),
    exec (.add sel) s = .next (s.afterExact sel.ovf (s.opA + s.opB)) ∧
    exec (.sub sel) s = .next (s.afterExact sel.ovf (s.opA - s.opB))

/-- NEG and ABS: OVERFLOW in checked mode for MIN and for nothing else; unchecked MIN gives MIN (42_checked_primitives.md
R143, R144). -/
def Obligations.NegateAndAbsolute : Prop :=
  ∀ (sel : Selector) (s : State),
    exec (.neg sel) s =
      .next (if s.opA = MIN then (if sel.ovf = .checked then s.withStatus 1 else s.withResult MIN)
        else s.withResult (-s.opA)) ∧
    exec (.abs sel) s =
      .next (if s.opA = MIN then (if sel.ovf = .checked then s.withStatus 1 else s.withResult MIN)
        else s.withResult |s.opA|)

/-- AVG: the exact mean rounded; it lies between the operands and so never overflows (42_checked_primitives.md R145). -/
def Obligations.AverageRoundsMean : Prop :=
  ∀ (sel : Selector) (s : State),
    exec (.avg sel) s = .next (s.afterRounding sel.mode (((s.opA + s.opB : Int) : ℚ) / 2)) ∧
    (∀ r, rnd sel.mode (s.opA + s.opB) 2 = .ok r → min s.opA s.opB ≤ r ∧ r ≤ max s.opA s.opB)

/-- SHL by its formula with no bound on the amount (42_checked_primitives.md R146, R147). -/
def Obligations.ShiftLeftMultiplies : Prop :=
  ∀ (sel : Selector) (s : State),
    (0 ≤ s.opN → exec (.shl sel) s = .next (s.afterExact sel.ovf (s.opA * 2 ^ s.opN.toNat))) ∧
    (s.opN < 0 → exec (.shl sel) s = .next (s.afterRounding sel.mode ((s.opA : ℚ) / 2 ^ (-s.opN).toNat)))

/-- SHR by its formula with no bound on the amount (42_checked_primitives.md R146, R148). -/
def Obligations.ShiftRightDivides : Prop :=
  ∀ (sel : Selector) (s : State),
    (0 ≤ s.opN → exec (.shr sel) s = .next (s.afterRounding sel.mode ((s.opA : ℚ) / 2 ^ s.opN.toNat))) ∧
    (s.opN < 0 → exec (.shr sel) s = .next (s.afterExact sel.ovf (s.opA * 2 ^ (-s.opN).toNat)))

/-- The 64-bit methods of the primitives are right: the sign tests of add and subtract, the leading-zero tests of multiply and
left shift, and the floor average (sections 1 and 2 of 42_checked_primitives.md, which marks the formulas as its own, from
general knowledge). -/
def Obligations.PrimitiveDatapathMeetsContract : Prop :=
  ∀ (a b : Word) (n : Nat),
    (addOverflows a b = true ↔ ¬ (MIN ≤ s64 a + s64 b ∧ s64 a + s64 b ≤ MAX)) ∧
    (subOverflows a b = true ↔ ¬ (MIN ≤ s64 a - s64 b ∧ s64 a - s64 b ≤ MAX)) ∧
    (mulOverflows a b = true ↔ ¬ (MIN ≤ s64 a * s64 b ∧ s64 a * s64 b ≤ MAX)) ∧
    (shlOverflows a n = true ↔ ¬ (MIN ≤ s64 a * 2 ^ n ∧ s64 a * 2 ^ n ≤ MAX)) ∧
    s64 (floorAverage a b) = (s64 a + s64 b) / 2

/-! ## Multiply and divide -/

/-- MUL: the exact product over the scale factor, rounded, then the overflow law (43_mul_div.md R171). -/
def Obligations.MultiplyRoundsExactProduct : Prop :=
  ∀ (sel : Selector) (s : State),
    exec (.mul sel) s =
      .next (s.afterRoundingFit sel (((s.opA * s.opB : Int) : ℚ) / 10 ^ sel.scale.toNat))

/-- SQR: MUL with both operands `a` (43_mul_div.md R176). -/
def Obligations.SquareRoundsExactSquare : Prop :=
  ∀ (sel : Selector) (s : State),
    exec (.sqr sel) s = .next (s.afterRoundingFit sel (((s.opA ^ 2 : Int) : ℚ) / 10 ^ sel.scale.toNat)) ∧
    (s.cur.opb = s.cur.opa → exec (.sqr sel) s = exec (.mul sel) s)

/-- DIV: a zero divisor is DIV_BY_ZERO whatever the dividend and the modes; else the exact decimal quotient, rounded, then
the overflow law (43_mul_div.md R178). -/
def Obligations.DivideRoundsExactQuotient : Prop :=
  ∀ (sel : Selector) (s : State),
    (s.opB = 0 → exec (.div sel) s = .next (s.withStatus 2)) ∧
    (s.opB ≠ 0 → exec (.div sel) s =
      .next (s.afterRoundingFit sel ((s.opA : ℚ) * 10 ^ sel.scale.toNat / s.opB)))

/-- INV: zero is DIV_BY_ZERO; else `SF² / a`, rounded, then the overflow law (43_mul_div.md R184). -/
def Obligations.InvertRoundsExactInverse : Prop :=
  ∀ (sel : Selector) (s : State),
    (s.opA = 0 → exec (.inv sel) s = .next (s.withStatus 2)) ∧
    (s.opA ≠ 0 → exec (.inv sel) s = .next (s.afterRoundingFit sel ((10 ^ sel.scale.toNat) ^ 2 / (s.opA : ℚ))))

/-- The division identities for every rounding and overflow mode: `a / a = one()`, `a / one() = a`, `0 / a = 0`, and
`a / 0` always fails (43_mul_div.md R185 (a) to (d)). -/
def Obligations.DivisionIdentities : Prop :=
  ∀ (sel : Selector) (s : State), sel.wf = true →
    (s.opB ≠ 0 → s.opA = s.opB → exec (.div sel) s = .next (s.withResult (10 ^ sel.scale.toNat))) ∧
    (s.opB = 10 ^ sel.scale.toNat → exec (.div sel) s = .next (s.withResult s.opA)) ∧
    (s.opB ≠ 0 → s.opA = 0 → exec (.div sel) s = .next (s.withResult 0)) ∧
    (s.opB = 0 → exec (.div sel) s = .next (s.withStatus 2))

/-- The split-limb multiplier gives the contract's value at every legal scale (43_mul_div.md R172 to R174). -/
def Obligations.MultiplierMeetsContract : Prop :=
  ∀ (sel : Selector) (a b : Word), sel.wf = true → mulDatapath sel (s64 a) (s64 b) = computeMul sel (s64 a) (s64 b)

/-- `DivWide` is unsigned division of a 128-bit dividend by a divisor from 1 to 2^63 (43_mul_div.md section 3).
The steps are the spec's own, from general knowledge (log 10). -/
def Obligations.WideDivisionDivides : Prop :=
  ∀ hi lo v : Nat, hi < 2 ^ 64 → lo < 2 ^ 64 → 1 ≤ v → v ≤ 2 ^ 63 →
    divWide hi lo v = ((hi * 2 ^ 64 + lo) / v, (hi * 2 ^ 64 + lo) % v)

/-- The divider with its special cases, its power-of-ten path and its 128-bit dividend gives the contract's value
(43_mul_div.md R179 to R181). -/
def Obligations.DividerMeetsContract : Prop :=
  ∀ (sel : Selector) (a b : Word), sel.wf = true → divDatapath sel (s64 a) (s64 b) = computeDiv sel (s64 a) (s64 b)

/-! ## Square root and power -/

/-- SQRT: SQRT_NEGATIVE for a negative operand; else the root of `N = a × SF` with its increment by mode, class E never
occurring; ROUNDING_NECESSARY exactly when `N` is no perfect square under UNNECESSARY (44_sqrt_pow.md R200, R201). -/
def Obligations.SquareRootRoundsRoot : Prop :=
  ∀ (sel : Selector) (s : State),
    (s.opA < 0 → exec (.sqrt sel) s = .next (s.withStatus 0x14)) ∧
    (0 ≤ s.opA →
      let n := s.opA.toNat * 10 ^ sel.scale.toNat
      let t := Nat.sqrt n
      exec (.sqrt sel) s = .next
        (match sel.mode with
        | .down | .floor => s.withResult t
        | .up | .ceiling => s.withResult (if t * t = n then t else t + 1)
        | .halfUp | .halfDown | .halfEven => s.withResult (if n ≤ t * t + t then t else t + 1)
        | .unnecessary => if t * t = n then s.withResult t else s.withStatus 3))

/-- POW, the steps 1 to 3 and 5 to 7 of 44_sqrt_pow.md section 2 in their order. The exponent limit 999999999 is the spec's own,
from general knowledge (log 9). -/
def Obligations.PowerStepsInOrder : Prop :=
  ∀ (sel : Selector) (s : State),
    (999999999 < |s.opN| → exec (.pow sel) s = .next (s.withStatus 0x24)) ∧
    (s.opN = 0 → exec (.pow sel) s = .next (s.withResult (10 ^ sel.scale.toNat))) ∧
    (0 < s.opN → s.opN ≤ 999999999 → s.opA = 0 → exec (.pow sel) s = .next (s.withResult 0)) ∧
    (s.opN < 0 → -999999999 ≤ s.opN → s.opA = 0 → exec (.pow sel) s = .next (s.withStatus 2)) ∧
    (sel.scale ≠ 0 → s.opN = 1 → exec (.pow sel) s = .next (s.withResult s.opA)) ∧
    (sel.scale ≠ 0 → s.opA ≠ 0 → s.opN = -1 → exec (.pow sel) s = exec (.inv sel) s) ∧
    (sel.scale ≠ 0 → s.opN = 2 → exec (.pow sel) s = exec (.sqr sel) s)

/-- POW at scale 0 with a positive exponent is the exact power under the overflow law, though every intermediate step is
checked (44_sqrt_pow.md section 3). The bound 999999999 of the exponent is the spec's own, from general knowledge (log 9). -/
def Obligations.IntegerPowerIsExact : Prop :=
  ∀ (sel : Selector) (s : State), sel.scale = 0 → 1 ≤ s.opN → s.opN ≤ 999999999 →
    exec (.pow sel) s = .next (s.afterExact sel.ovf (s.opA ^ s.opN.toNat))

/-- POW at scale 0 with a negative exponent: the positive power under the overflow law, then its inverse rounded
(44_sqrt_pow.md sections 2 and 3). The limit 999999999 of |n| is the spec's own, from general knowledge (PRESUMED, log 9);
that the positive power is the exact `a^|n|` under the overflow law is the contract the spec derives in section 3. -/
def Obligations.IntegerPowerInverts : Prop :=
  ∀ (sel : Selector) (s : State), sel.scale = 0 → s.opN < 0 → -999999999 ≤ s.opN → s.opA ≠ 0 →
    let p := s.opA ^ s.opN.natAbs
    exec (.pow sel) s = .next
      (if sel.ovf = .checked ∧ ¬ (MIN ≤ p ∧ p ≤ MAX) then s.withStatus 1
       else if wrap64 p = 0 then s.withStatus 2
       else s.afterRounding sel.mode (1 / (wrap64 p : ℚ)))

/-- The closed forms of the integer power for bases −2 to 2 are its values (44_sqrt_pow.md R209). -/
def Obligations.PowerClosedForms : Prop :=
  ∀ (ovf : OverflowMode) (a : Int) (n : Nat), -2 ≤ a → a ≤ 2 → 1 ≤ n → powClosedForm ovf a n = some (powInt ovf a n)

/-- The 36-digit form of `u / 10^s`: its exponent is the floor of the base-2 logarithm, its mantissa the floor of the scaled
quotient, in range (44_sqrt_pow.md R213). -/
def Obligations.NormalisedBase : Prop :=
  ∀ u s : Nat, 1 ≤ u →
    (2 : ℚ) ^ (norm36 u s).exp ≤ (u : ℚ) / 10 ^ s ∧ (u : ℚ) / 10 ^ s < 2 ^ ((norm36 u s).exp + 1) ∧
    ((norm36 u s).mant : Int) = ⌊(u : ℚ) * 10 ^ 35 / (10 ^ s * 2 ^ (norm36 u s).exp)⌋ ∧ (norm36 u s).wf = true

/-- Product and reciprocal stay 36-digit numbers and lose less than one unit of the 35th fraction digit, never upward
(44_sqrt_pow.md R214, R215, R218). -/
def Obligations.Digit36OperationsTruncate : Prop :=
  ∀ x y : Num36, x.wf = true → y.wf = true →
    (mul36 x y).wf = true ∧ (inv36 x).wf = true ∧
    (mul36 x y).value ≤ x.value * y.value ∧
    x.value * y.value < (mul36 x y).value + 2 ^ (mul36 x y).exp / 10 ^ 35 ∧
    (inv36 x).value ≤ 1 / x.value ∧ 1 / x.value < (inv36 x).value + 2 ^ (inv36 x).exp / 10 ^ 35

/-- The error of the 36-digit accumulator: it never exceeds the exact power, and its relative error is that of `3n − 2`
truncations (44_sqrt_pow.md R218). -/
def Obligations.PowerErrorBound : Prop :=
  ∀ u s n : Nat, 1 ≤ u → 1 ≤ n →
    (pow36 (norm36 u s) n).value ≤ ((u : ℚ) / 10 ^ s) ^ n ∧
    (1 - 1 / 10 ^ 35) ^ (3 * n - 2) * ((u : ℚ) / 10 ^ s) ^ n ≤ (pow36 (norm36 u s) n).value

/-- The extreme exponents: cutting the exponent below −61, and the modular evaluation above 98, give what the formula of
44_sqrt_pow.md section 4 gives (log 11). -/
def Obligations.ExtremeExponentsMeetFormula : Prop :=
  ∀ (mode : RoundingMode) (ovf : OverflowMode) (sign : Int) (x : Num36) (s : Nat),
    (sign = 1 ∨ sign = -1) → x.wf = true → s ≤ 18 →
    unnormFit mode ovf sign x s = fitRounded ovf (unnorm mode sign x s)

/-- POW on the 36-digit path: the accumulator, taken as exact, times `10^s`, rounded once, then the overflow law
(44_sqrt_pow.md sections 2 and 4): the exponents are those that section 2 sends there, up to the limit 999999999 of |n|, which
is the spec's own, from general knowledge (PRESUMED, log 9). -/
def Obligations.PowerRoundsAccumulator : Prop :=
  ∀ (sel : Selector) (s : State), sel.wf = true → sel.scale ≠ 0 → s.opA ≠ 0 → |s.opN| ≤ 999999999 →
    s.opN ≠ 0 → s.opN ≠ 1 → s.opN ≠ -1 → s.opN ≠ 2 →
    let base := norm36 s.opA.natAbs sel.scale.toNat
    let acc := if s.opN < 0 then inv36 (pow36 base s.opN.natAbs) else pow36 base s.opN.natAbs
    let sign : ℚ := if s.opA < 0 ∧ s.opN % 2 = 1 then -1 else 1
    exec (.pow sel) s = .next (s.afterRoundingFit sel (sign * acc.value * 10 ^ sel.scale.toNat))

/-! ## Scaling and conversion -/

/-- MULP10 and DIVP10 by their formula with no bound on the power (45_scaling.md R230 to R232). -/
def Obligations.PowerOfTenScaling : Prop :=
  ∀ (sel : Selector) (s : State),
    (0 ≤ s.opN → exec (.mulp10 sel) s = .next (s.afterExact sel.ovf (s.opA * 10 ^ s.opN.toNat))) ∧
    (s.opN < 0 → exec (.mulp10 sel) s = .next (s.afterRounding sel.mode ((s.opA : ℚ) / 10 ^ (-s.opN).toNat))) ∧
    (0 < s.opN → exec (.divp10 sel) s = .next (s.afterRounding sel.mode ((s.opA : ℚ) / 10 ^ s.opN.toNat))) ∧
    (s.opN ≤ 0 → exec (.divp10 sel) s = .next (s.afterExact sel.ovf (s.opA * 10 ^ (-s.opN).toNat)))

/-- FROMLONG is `a × SF` under the overflow law, TOLONG is `a / SF` rounded, with no overflow (45_scaling.md R233,
R234). -/
def Obligations.IntegerConversions : Prop :=
  ∀ (sel : Selector) (s : State),
    exec (.fromlong sel) s = .next (s.afterExact sel.ovf (s.opA * 10 ^ sel.scale.toNat)) ∧
    exec (.tolong sel) s = .next (s.afterRounding sel.mode ((s.opA : ℚ) / 10 ^ sel.scale.toNat))

/-- FROMUNSC and TOUNSC: the decimal re-expressed at the other scale, rounded, then the overflow law (45_scaling.md R235,
R236). -/
def Obligations.ScaleConversions : Prop :=
  ∀ (sel : Selector) (aux : BitVec 5) (s : State),
    exec (.fromunsc sel aux) s =
      .next (s.afterRoundingFit sel ((s.opA : ℚ) * 10 ^ sel.scale.toNat / 10 ^ aux.toNat)) ∧
    exec (.tounsc sel aux) s =
      .next (s.afterRoundingFit sel ((s.opA : ℚ) * 10 ^ aux.toNat / 10 ^ sel.scale.toNat))

/-- The round trip: when TOUNSC to scale `x` is exact and does not wrap, FROMUNSC from scale `x` returns the value under
every mode; TOLONG after a FROMLONG that did not overflow returns the integer (45_scaling.md R237). -/
def Obligations.ScaleRoundTrip : Prop :=
  ∀ (sel sel' : Selector) (x : BitVec 5) (u v : Int), sel'.scale = sel.scale → MIN ≤ u → u ≤ MAX →
    (computeTounsc sel x.toNat u = .ok v → (v : ℚ) = (u : ℚ) * 10 ^ x.toNat / 10 ^ sel.scale.toNat →
      computeFromunsc sel' x.toNat v = .ok u) ∧
    (computeFromlong sel u = .ok v → v = u * 10 ^ sel.scale.toNat → computeTolong sel' v = .ok u)

/-! ## Doubles -/

/-- FROMDBL: NOT_FINITE for infinities and NaNs; else the double's value times `10^s`, rounded; a magnitude of `2^63` or
more is OVERFLOW in both overflow modes and for both signs, so MIN is never a result (46_double_conversion.md sections 1 and
2). The binary64 layout is the spec's own, from general knowledge (log 10). -/
def Obligations.FromDoubleRoundsValue : Prop :=
  ∀ (sel : Selector) (s : State),
    let e : Nat := s.cur.opa.toNat / 2 ^ 52 % 2 ^ 11
    let f : Nat := s.cur.opa.toNat % 2 ^ 52
    let sign : ℚ := if 2 ^ 63 ≤ s.cur.opa.toNat then -1 else 1
    let value : ℚ := if e = 0 then sign * (f : ℚ) / 2 ^ 1074 else sign * (2 ^ 52 + (f : ℚ)) * 2 ^ ((e : Int) - 1075)
    let exact : ℚ := value * 10 ^ sel.scale.toNat
    (e = 2047 → exec (.fromdbl sel) s = .next (s.withStatus 5)) ∧
    (e ≠ 2047 → exec (.fromdbl sel) s = .next
      (if mustRaise sel.mode exact then s.withStatus 3
       else if 2 ^ 63 ≤ |roundRat sel.mode exact| then s.withStatus 1
       else s.withResult (roundRat sel.mode exact)))

/-- TODBL never fails: zero gives +0.0; else a normal double of the sign of `a` to which no finite double is closer to
`a / 10^s`, with an even significand where another double is as close (46_double_conversion.md section 3). The binary64
layout is the spec's own, from general knowledge (log 10). -/
def Obligations.ToDoubleIsNearest : Prop :=
  ∀ (sel : Selector) (s : State),
    ∃ w : Word, exec (.todbl sel) s = .next (s.withResult w.toInt) ∧
      (s.opA = 0 → w = 0) ∧
      (s.opA ≠ 0 → ∃ d : DoubleValue, decodeDouble w = .ok d ∧
        d.sign = Int.sign s.opA ∧ 2 ^ 52 ≤ d.sig ∧ d.sig < 2 ^ 53 ∧
        ∀ (w' : Word) (d' : DoubleValue), decodeDouble w' = .ok d' →
          |d.value - (s.opA : ℚ) / 10 ^ sel.scale.toNat| ≤ |d'.value - (s.opA : ℚ) / 10 ^ sel.scale.toNat| ∧
          (|d.value - (s.opA : ℚ) / 10 ^ sel.scale.toNat| = |d'.value - (s.opA : ℚ) / 10 ^ sel.scale.toNat| →
            w' ≠ w → d.sig % 2 = 0))

/-- The two round trips of 46_double_conversion.md R258: at scale 0 and `|a| ≤ 2^53` under every mode; at any legal scale
and `|a| < 2^52` under the half modes. The binary64 layout is the spec's own, from general knowledge (log 10). -/
def Obligations.DoubleRoundTrip : Prop :=
  ∀ (sel : Selector) (a : Int), sel.wf = true →
    (sel.scale = 0 → |a| ≤ 2 ^ 53 → computeFromdbl sel (toBinary64 a (10 ^ sel.scale.toNat)) = .ok a) ∧
    ((sel.mode = .halfUp ∨ sel.mode = .halfDown ∨ sel.mode = .halfEven) → |a| < 2 ^ 52 →
      computeFromdbl sel (toBinary64 a (10 ^ sel.scale.toNat)) = .ok a)

/-! ## Metrics and text -/

/-- METRIC returns the LUT entry by the definitions of 40_scale_metrics.md R101; the two doubles are TODBL's patterns of
MIN and MAX (R104). -/
def Obligations.MetricReturnsEntry : Prop :=
  ∀ (sel : Selector) (k : Metric) (s : State),
    exec (.metric sel k) s = .next (s.withResult
      (match k with
      | .sf => 10 ^ sel.scale.toNat
      | .maxInt => MAX / 10 ^ sel.scale.toNat
      | .minInt => -(-MIN / 10 ^ sel.scale.toNat)
      | .halfSf => 10 ^ sel.scale.toNat / 2
      | .sqrtSf => Nat.sqrt (10 ^ sel.scale.toNat)
      | .sfBits => Nat.size (10 ^ sel.scale.toNat)
      | .dblMin => (toBinary64 MIN (10 ^ sel.scale.toNat)).toInt
      | .dblMax => (toBinary64 MAX (10 ^ sel.scale.toNat)).toInt))

/-- The integer-part bounds: `x × SF` lies in [MIN, MAX] exactly when `MININT ≤ x ≤ MAXINT` (40_scale_metrics.md R103). -/
def Obligations.IntegerPartBounds : Prop :=
  ∀ (s : Nat) (x : Int), s ≤ 18 →
    (MIN ≤ x * 10 ^ s ∧ x * 10 ^ s ≤ MAX ↔ lut s .minInt ≤ x ∧ x ≤ lut s .maxInt)

/-- MODSF: the remainder of the operand by the scale factor, zero or of the operand's sign and smaller than SF; with TOLONG
under DOWN it splits the operand (40_scale_metrics.md R105). -/
def Obligations.ModuloSplitsOperand : Prop :=
  ∀ (sel : Selector) (s : State),
    ∃ q r : Int, exec (.modsf sel) s = .next (s.withResult r) ∧
      exec (.tolong (sel.deriveRounding .down)) s = .next (s.withResult q) ∧
      s.opA = q * 10 ^ sel.scale.toNat + r ∧ |r| < 10 ^ sel.scale.toNat ∧ 0 ≤ r * s.opA ∧ 0 ≤ q * s.opA

/-- Formatting then parsing at one scale returns the value, under every mode, for every 64-bit value
(47_dispatch_and_text.md section 2). The text functions are a host library's and stand apart from the machine (log 19). -/
def Obligations.TextRoundTrip : Prop :=
  ∀ (sel : Selector) (u : Word), sel.wf = true →
    fromDecimalText sel (toDecimalText (selScale sel) (s64 u)) = .ok (s64 u)
end

