-- ==== Sys2Proof/Laws/Arith.lean ====
section
/-! SUPPORT. The laws of the integer notation: signed reading and wrapping, bit counts, the integer square root, the
base-2 logarithm of a ratio, and little-endian bytes. -/

namespace Sys2Proof.Machine

/-- The ends of the range as numerals, for `omega`. -/
theorem min_eq : MIN = -9223372036854775808 := rfl

theorem max_eq : MAX = 9223372036854775807 := rfl

theorem s64_bounds (v : Word) : MIN ≤ s64 v ∧ s64 v ≤ MAX := by
  have h := v.isLt
  simp only [s64, BitVec.toInt_eq_toNat_cond, min_eq, max_eq]
  split <;> omega

@[simp] theorem u64_s64 (v : Word) : u64 (s64 v) = v := BitVec.ofInt_toInt

theorem s64_u64 (x : Int) : s64 (u64 x) = wrap64 x := rfl

/-- Wrapping leaves a multiple of `2^64` behind (00_scope.md R11). -/
theorem wrap64_congr (x : Int) : ∃ k : Int, wrap64 x = x + k * 2 ^ 64 := by
  refine ⟨-((x + 2 ^ 63) / 2 ^ 64), ?_⟩
  simp only [wrap64, s64, u64, BitVec.toInt_ofInt, Int.bmod_def]
  norm_num
  split <;> omega

theorem wrap64_bounds (x : Int) : MIN ≤ wrap64 x ∧ wrap64 x ≤ MAX := s64_bounds _

theorem wrap64_of_inRange {x : Int} (h : MIN ≤ x ∧ x ≤ MAX) : wrap64 x = x := by
  obtain ⟨k, hk⟩ := wrap64_congr x
  have := wrap64_bounds x
  rw [min_eq, max_eq] at h this
  omega

/-- The stored pattern of a wrapped value is that of the value. -/
@[simp] theorem u64_wrap64 (x : Int) : u64 (wrap64 x) = u64 x := u64_s64 _

/-- Two integers have one pattern exactly when they agree modulo `2^64`. -/
theorem u64_eq_iff (x y : Int) : u64 x = u64 y ↔ (2 ^ 64 : Int) ∣ x - y := by
  have key : u64 x = u64 y ↔ wrap64 x = wrap64 y :=
    ⟨fun h => by simp [wrap64, h], fun h => by rw [← u64_wrap64 x, h, u64_wrap64]⟩
  rw [key]
  obtain ⟨k, hk⟩ := wrap64_congr x
  obtain ⟨j, hj⟩ := wrap64_congr y
  have hx := wrap64_bounds x
  have hy := wrap64_bounds y
  rw [min_eq, max_eq] at hx hy
  constructor <;> intro h <;> omega

theorem bitlen_eq_size (x : Nat) : bitlen x = Nat.size x := by
  unfold bitlen
  split
  · next h => simp [h]
  · next h =>
    apply le_antisymm
    · exact Nat.lt_size.mpr (Nat.log2_self_le h)
    · exact Nat.size_le.mpr Nat.lt_log2_self

theorem lt_two_pow_bitlen (x : Nat) : x < 2 ^ bitlen x := by rw [bitlen_eq_size]; exact Nat.lt_size_self x

theorem two_pow_bitlen_le {x : Nat} (h : x ≠ 0) : 2 ^ (bitlen x - 1) ≤ x := by
  simp only [bitlen, h, ↓reduceIte, Nat.add_sub_cancel]
  exact Nat.log2_self_le h

theorem bitlen_pos {x : Nat} (h : x ≠ 0) : 0 < bitlen x := by simp [bitlen, h]

/-- The loop of 44_sqrt_pow.md R202 leaves root and remainder: `n = t² + r`, `r ≤ 2t`. -/
theorem sqrtPairs_spec (k n : Nat) (h : n < 4 ^ k) :
    n = (sqrtPairs k n).1 * (sqrtPairs k n).1 + (sqrtPairs k n).2 ∧ (sqrtPairs k n).2 ≤ 2 * (sqrtPairs k n).1 := by
  induction k generalizing n with
  | zero => simp only [sqrtPairs]; omega
  | succ k ih =>
    obtain ⟨h1, h2⟩ := ih (n / 4) (by rw [pow_succ] at h; omega)
    simp only [sqrtPairs]
    generalize sqrtPairs k (n / 4) = tr at h1 h2 ⊢
    obtain ⟨t, r⟩ := tr
    have hn : n = 4 * (t * t) + (4 * r + n % 4) := by simp only at h1; omega
    simp only at h1 h2 ⊢
    split
    · next hc =>
      refine ⟨?_, by simp only; omega⟩
      have : (2 * t + 1) * (2 * t + 1) = 4 * (t * t) + (4 * t + 1) := by ring
      simp only [this]; omega
    · next hc =>
      refine ⟨?_, by simp only; omega⟩
      have : (2 * t) * (2 * t) = 4 * (t * t) := by ring
      simp only [this]; omega

/-- `isqrt` is the floor of the square root (00_scope.md R12). -/
theorem isqrt_eq_sqrt (n : Nat) : isqrt n = Nat.sqrt n := by
  have hlt : n < 4 ^ (bitlen n / 2 + 1) := by
    refine lt_of_lt_of_le (lt_two_pow_bitlen n) ?_
    rw [show (4 : Nat) = 2 ^ 2 from rfl, ← pow_mul]
    exact Nat.pow_le_pow_right (by norm_num) (by omega)
  obtain ⟨h1, h2⟩ := sqrtPairs_spec _ n hlt
  unfold isqrt
  generalize sqrtPairs (bitlen n / 2 + 1) n = tr at h1 h2
  apply Nat.le_antisymm
  · exact Nat.le_sqrt.mpr (by omega)
  · exact Nat.lt_succ_iff.mp (Nat.sqrt_lt.mpr (by nlinarith))

theorem pow2Le_iff (p : Int) {u d : Nat} (hd : 1 ≤ d) : pow2Le p u d = true ↔ (2 : ℚ) ^ p ≤ (u : ℚ) / d := by
  have hd' : (0 : ℚ) < d := by exact_mod_cast hd
  cases p with
  | ofNat k =>
    simp only [pow2Le, decide_eq_true_eq, Int.ofNat_eq_natCast, zpow_natCast]
    rw [le_div_iff₀ hd']
    constructor
    · intro h; have : ((d * 2 ^ k : Nat) : ℚ) ≤ u := by exact_mod_cast h
      push_cast at this; linarith
    · intro h; have : ((d * 2 ^ k : Nat) : ℚ) ≤ u := by push_cast; linarith
      exact_mod_cast this
  | negSucc k =>
    simp only [pow2Le, decide_eq_true_eq, zpow_negSucc]
    have h2 : (0 : ℚ) < 2 ^ (k + 1) := by positivity
    rw [le_div_iff₀ hd', inv_mul_le_iff₀ h2]
    constructor
    · intro h; have : (d : ℚ) ≤ ((u * 2 ^ (k + 1) : Nat) : ℚ) := by exact_mod_cast h
      push_cast at this; linarith
    · intro h; have : (d : ℚ) ≤ ((u * 2 ^ (k + 1) : Nat) : ℚ) := by push_cast; linarith
      exact_mod_cast this

/-- `floorLog2` is the floor of the base-2 logarithm of the ratio (44_sqrt_pow.md R213). -/
theorem floorLog2_spec {u d : Nat} (hu : 1 ≤ u) (hd : 1 ≤ d) :
    (2 : ℚ) ^ floorLog2 u d ≤ (u : ℚ) / d ∧ (u : ℚ) / d < 2 ^ (floorLog2 u d + 1) := by
  have hd' : (0 : ℚ) < d := by exact_mod_cast hd
  have hu0 : u ≠ 0 := by omega
  have hd0 : d ≠ 0 := by omega
  have two : (2 : ℚ) ≠ 0 := by norm_num
  have hul : (2 : ℚ) ^ ((bitlen u : Int) - 1) ≤ u := by
    have := two_pow_bitlen_le hu0
    rw [show (bitlen u : Int) - 1 = ((bitlen u - 1 : Nat) : Int) by have := bitlen_pos hu0; omega, zpow_natCast]
    exact_mod_cast this
  have huu : (u : ℚ) < 2 ^ (bitlen u : Int) := by rw [zpow_natCast]; exact_mod_cast lt_two_pow_bitlen u
  have hdl : (2 : ℚ) ^ ((bitlen d : Int) - 1) ≤ d := by
    have := two_pow_bitlen_le hd0
    rw [show (bitlen d : Int) - 1 = ((bitlen d - 1 : Nat) : Int) by have := bitlen_pos hd0; omega, zpow_natCast]
    exact_mod_cast this
  have hdu : (d : ℚ) < 2 ^ (bitlen d : Int) := by rw [zpow_natCast]; exact_mod_cast lt_two_pow_bitlen d
  have lower : (2 : ℚ) ^ ((bitlen u : Int) - bitlen d - 1) ≤ (u : ℚ) / d := by
    rw [le_div_iff₀ hd']
    calc (2 : ℚ) ^ ((bitlen u : Int) - bitlen d - 1) * d
        ≤ 2 ^ ((bitlen u : Int) - bitlen d - 1) * 2 ^ (bitlen d : Int) :=
          mul_le_mul_of_nonneg_left hdu.le (by positivity)
      _ = 2 ^ ((bitlen u : Int) - 1) := by rw [← zpow_add₀ two]; ring_nf
      _ ≤ u := hul
  have upper : (u : ℚ) / d < 2 ^ ((bitlen u : Int) - bitlen d + 1) := by
    rw [div_lt_iff₀ hd']
    calc (u : ℚ) < 2 ^ (bitlen u : Int) := huu
      _ = 2 ^ ((bitlen u : Int) - bitlen d + 1) * 2 ^ ((bitlen d : Int) - 1) := by rw [← zpow_add₀ two]; ring_nf
      _ ≤ 2 ^ ((bitlen u : Int) - bitlen d + 1) * d := mul_le_mul_of_nonneg_left hdl (by positivity)
  unfold floorLog2
  split
  · next h => exact ⟨(pow2Le_iff _ hd).mp h, upper⟩
  · next h =>
    refine ⟨lower, ?_⟩
    rw [sub_add_cancel]
    exact not_le.mp (fun hc => h ((pow2Le_iff _ hd).mpr hc))

@[simp] theorem length_leBytes (k v : Nat) : (leBytes k v).length = k := by
  induction k generalizing v with
  | zero => rfl
  | succ k ih => simp [leBytes, ih]

/-- Reading back written bytes gives the value modulo the width (20_memory.md R56). -/
theorem ofLeBytes_leBytes (k v : Nat) : ofLeBytes (leBytes k v) = v % 256 ^ k := by
  induction k generalizing v with
  | zero => simp [leBytes, ofLeBytes, Nat.mod_one]
  | succ k ih =>
    rw [leBytes, ofLeBytes, ih, BitVec.toNat_ofNat, show (2 : Nat) ^ 8 = 256 from rfl, Nat.pow_succ',
      Nat.mod_mul (a := 256)]

end Sys2Proof.Machine
end

