-- ==== Sys2Proof/Laws/State.lean ====
section
/-! SUPPORT. One lemma per field per update of the state, true by rfl, so that no proof unfolds a record update. -/

namespace Sys2Proof.Machine

@[simp] theorem State.setPort_active (s : State) (p : Nat) (q : Port) : (s.setPort p q).active = s.active := rfl
@[simp] theorem State.setPort_host (s : State) (p : Nat) (q : Port) : (s.setPort p q).host = s.host := rfl
@[simp] theorem State.setPort_reply (s : State) (p : Nat) (q : Port) : (s.setPort p q).reply = s.reply := rfl
@[simp] theorem State.setPort_ports (s : State) (p : Nat) (q : Port) :
    (s.setPort p q).ports = Machine.setPort s.ports p q := rfl

@[simp] theorem State.setCur_active (s : State) (q : Port) : (s.setCur q).active = s.active := rfl
@[simp] theorem State.setCur_host (s : State) (q : Port) : (s.setCur q).host = s.host := rfl
@[simp] theorem State.setCur_reply (s : State) (q : Port) : (s.setCur q).reply = s.reply := rfl
@[simp] theorem State.setCur_ports (s : State) (q : Port) :
    (s.setCur q).ports = Machine.setPort s.ports s.active q := rfl

@[simp] theorem State.withResult_active (s : State) (v : Int) : (s.withResult v).active = s.active := rfl
@[simp] theorem State.withResult_host (s : State) (v : Int) : (s.withResult v).host = s.host := rfl
@[simp] theorem State.withResult_reply (s : State) (v : Int) : (s.withResult v).reply = s.reply := rfl

@[simp] theorem State.withStatus_active (s : State) (w : CmdWord) : (s.withStatus w).active = s.active := rfl
@[simp] theorem State.withStatus_host (s : State) (w : CmdWord) : (s.withStatus w).host = s.host := rfl
@[simp] theorem State.withStatus_reply (s : State) (w : CmdWord) : (s.withStatus w).reply = s.reply := rfl

@[simp] theorem raiseError_active (e : CmdError) (s : State) : (raiseError e s).active = s.active := rfl
@[simp] theorem raiseError_host (e : CmdError) (s : State) : (raiseError e s).host = s.host := rfl
@[simp] theorem raiseError_reply (e : CmdError) (s : State) : (raiseError e s).reply = s.reply := rfl

@[simp] theorem State.setHost_port (s : State) (l : List Access) (p : Nat) :
    ({ s with host := l } : State).port p = s.port p := rfl
@[simp] theorem State.setActive_port (s : State) (a p : Nat) : ({ s with active := a } : State).port p = s.port p := rfl
@[simp] theorem State.setReply_port (s : State) (r : Reply) (p : Nat) :
    ({ s with reply := r } : State).port p = s.port p := rfl
@[simp] theorem State.setActive_cur (s : State) (a : Nat) : ({ s with active := a } : State).cur = s.port a := rfl
@[simp] theorem State.setReply_cur (s : State) (r : Reply) : ({ s with reply := r } : State).cur = s.cur := rfl
@[simp] theorem State.setHost_cur (s : State) (l : List Access) : ({ s with host := l } : State).cur = s.cur := rfl

/-- A state with another's ports has its registers, whatever the model's own fields. -/
@[simp] theorem State.port_of_ports (s : State) (a : Nat) (l : List Access) (r : Reply) (p : Nat) :
    ({ ports := s.ports, active := a, host := l, reply := r } : State).port p = s.port p := rfl

@[simp] theorem State.cur_of_ports (s : State) (a : Nat) (l : List Access) (r : Reply) :
    ({ ports := s.ports, active := a, host := l, reply := r } : State).cur = s.port a := rfl

@[simp] theorem State.reset_port (p : Nat) : State.reset.port p = Port.reset := rfl
@[simp] theorem State.reset_host : State.reset.host = [] := rfl
@[simp] theorem State.reset_ports : State.reset.ports = [] := rfl
@[simp] theorem State.reset_active : State.reset.active = 0 := rfl

@[simp] theorem Port.resetWith_cmd (a b r : Word) : (Port.resetWith a b r).cmd = 0 := rfl
@[simp] theorem Port.resetWith_status (a b r : Word) : (Port.resetWith a b r).status = 0 := rfl
@[simp] theorem Port.resetWith_opa (a b r : Word) : (Port.resetWith a b r).opa = a := rfl
@[simp] theorem Port.resetWith_opb (a b r : Word) : (Port.resetWith a b r).opb = b := rfl
@[simp] theorem Port.resetWith_res (a b r : Word) : (Port.resetWith a b r).res = r := rfl
@[simp] theorem Port.reset_cmd : Port.reset.cmd = 0 := rfl
@[simp] theorem Port.reset_status : Port.reset.status = 0 := rfl

end Sys2Proof.Machine
end

