-- ==== Sys2Proof/Laws/Ops.lean ====
section
/-! SUPPORT. The laws of the port list (read after write, the canonical form is kept) and of the operations that end a
command: each says once what its operation does to every port. -/

namespace Sys2Proof.Machine

theorem getPort_erasePort_same (l : List (Nat × Port)) (p : Nat) : getPort (erasePort l p) p = Port.reset := by
  induction l with
  | nil => rfl
  | cons e rest ih =>
    obtain ⟨k, q⟩ := e
    by_cases h : k = p <;> simp [erasePort, getPort, h, ih]

theorem getPort_erasePort_other (l : List (Nat × Port)) {p r : Nat} (h : r ≠ p) :
    getPort (erasePort l p) r = getPort l r := by
  induction l with
  | nil => rfl
  | cons e rest ih =>
    obtain ⟨k, q⟩ := e
    by_cases hk : k = p
    · subst hk; simp [erasePort, getPort, ih, Ne.symm h]
    · simp only [erasePort, hk, ↓reduceIte, getPort, ih]

theorem mem_erasePort {l : List (Nat × Port)} {p : Nat} {e : Nat × Port} :
    e ∈ erasePort l p ↔ e ∈ l ∧ e.1 ≠ p := by
  induction l with
  | nil => simp [erasePort]
  | cons d rest ih =>
    obtain ⟨k, q⟩ := d
    by_cases h : k = p
    · simp only [erasePort, h, ↓reduceIte, ih, List.mem_cons]
      constructor
      · exact fun ⟨h1, h2⟩ => ⟨.inr h1, h2⟩
      · rintro ⟨h1 | h1, h2⟩
        · exact absurd (by rw [h1]) h2
        · exact ⟨h1, h2⟩
    · simp only [erasePort, h, ↓reduceIte, List.mem_cons, ih]
      constructor
      · rintro (rfl | ⟨h1, h2⟩)
        · exact ⟨.inl rfl, h⟩
        · exact ⟨.inr h1, h2⟩
      · rintro ⟨h1 | h1, h2⟩
        · exact .inl h1
        · exact .inr ⟨h1, h2⟩

theorem mem_insertPort {l : List (Nat × Port)} {p : Nat} {q : Port} {e : Nat × Port} :
    e ∈ insertPort l p q ↔ e = (p, q) ∨ e ∈ l := by
  induction l with
  | nil => simp [insertPort]
  | cons d rest ih =>
    obtain ⟨k, x⟩ := d
    by_cases h : p < k
    · simp [insertPort, h]
    · simp only [insertPort, h, ↓reduceIte, List.mem_cons, ih]; tauto

theorem getPort_insertPort_same {l : List (Nat × Port)} {p : Nat} (q : Port) (h : ∀ e ∈ l, e.1 ≠ p) :
    getPort (insertPort l p q) p = q := by
  induction l with
  | nil => simp [insertPort, getPort]
  | cons d rest ih =>
    obtain ⟨k, x⟩ := d
    have hk : k ≠ p := h (k, x) (by simp)
    have hr : ∀ e ∈ rest, e.1 ≠ p := fun e he => h e (by simp [he])
    by_cases hlt : p < k <;> simp [insertPort, getPort, hlt, hk, ih hr]

theorem getPort_insertPort_other (l : List (Nat × Port)) {p r : Nat} (q : Port) (h : r ≠ p) :
    getPort (insertPort l p q) r = getPort l r := by
  induction l with
  | nil => simp [insertPort, getPort, Ne.symm h]
  | cons d rest ih =>
    obtain ⟨k, x⟩ := d
    by_cases hlt : p < k
    · simp [insertPort, getPort, hlt, Ne.symm h]
    · simp only [insertPort, hlt, ↓reduceIte, getPort, ih]

/-- Read after write, same port. -/
@[simp] theorem getPort_setPort_same (l : List (Nat × Port)) (p : Nat) (q : Port) : getPort (setPort l p q) p = q := by
  unfold setPort
  split
  · next h => rw [getPort_erasePort_same, h]
  · exact getPort_insertPort_same q (fun e he => (mem_erasePort.mp he).2)

/-- Read after write, another port. -/
theorem getPort_setPort_other (l : List (Nat × Port)) {p r : Nat} (q : Port) (h : r ≠ p) :
    getPort (setPort l p q) r = getPort l r := by
  unfold setPort
  split
  · exact getPort_erasePort_other l h
  · rw [getPort_insertPort_other _ q h, getPort_erasePort_other l h]

/-- The entries of a written list: the one written, and those that stood there. -/
theorem mem_setPort {l : List (Nat × Port)} {p : Nat} {q : Port} {e : Nat × Port} (h : e ∈ setPort l p q) :
    e = (p, q) ∨ e ∈ l := by
  unfold setPort at h
  split at h
  · exact .inr (mem_erasePort.mp h).1
  · exact (mem_insertPort.mp h).imp_right (fun he => (mem_erasePort.mp he).1)

theorem portsWf_cons {k : Nat} {q : Port} {rest : List (Nat × Port)} :
    portsWf ((k, q) :: rest) = true ↔ q ≠ Port.reset ∧ (∀ e ∈ rest, k < e.1) ∧ portsWf rest = true := by
  simp [portsWf, and_assoc]

theorem portsWf_erasePort {l : List (Nat × Port)} (p : Nat) (h : portsWf l = true) : portsWf (erasePort l p) = true := by
  induction l with
  | nil => rfl
  | cons d rest ih =>
    obtain ⟨k, x⟩ := d
    obtain ⟨hx, hlt, hw⟩ := portsWf_cons.mp h
    by_cases hk : k = p
    · simpa [erasePort, hk] using ih hw
    · simp only [erasePort, hk, ↓reduceIte]
      exact portsWf_cons.mpr ⟨hx, fun e he => hlt e (mem_erasePort.mp he).1, ih hw⟩

theorem portsWf_insertPort {l : List (Nat × Port)} {p : Nat} {q : Port} (h : portsWf l = true)
    (hp : ∀ e ∈ l, e.1 ≠ p) (hq : q ≠ Port.reset) : portsWf (insertPort l p q) = true := by
  induction l with
  | nil => simp [insertPort, portsWf, hq]
  | cons d rest ih =>
    obtain ⟨k, x⟩ := d
    obtain ⟨hx, hlt, hw⟩ := portsWf_cons.mp h
    have hk : k ≠ p := hp (k, x) (by simp)
    by_cases hpk : p < k
    · simp only [insertPort, hpk, ↓reduceIte]
      refine portsWf_cons.mpr ⟨hq, fun e he => ?_, h⟩
      rcases List.mem_cons.mp he with rfl | he
      · exact hpk
      · exact lt_trans hpk (hlt e he)
    · simp only [insertPort, hpk, ↓reduceIte]
      refine portsWf_cons.mpr ⟨hx, fun e he => ?_, ih hw (fun e he => hp e (by simp [he]))⟩
      rcases mem_insertPort.mp he with rfl | he
      · simp; omega
      · exact hlt e he

/-- A write keeps the canonical form. -/
theorem portsWf_setPort {l : List (Nat × Port)} (p : Nat) (q : Port) (h : portsWf l = true) :
    portsWf (setPort l p q) = true := by
  unfold setPort
  split
  · exact portsWf_erasePort p h
  · next hq => exact portsWf_insertPort (portsWf_erasePort p h) (fun e he => (mem_erasePort.mp he).2) hq

theorem portsWf_reset : portsWf State.reset.ports = true := rfl

/-- In canonical form, a port is listed exactly where it differs from a port right after reset. -/
theorem getPort_of_mem {l : List (Nat × Port)} {k : Nat} {q : Port} (h : portsWf l = true) (hm : (k, q) ∈ l) :
    getPort l k = q := by
  induction l with
  | nil => simp at hm
  | cons d rest ih =>
    obtain ⟨j, x⟩ := d
    obtain ⟨_, hlt, hw⟩ := portsWf_cons.mp h
    rcases List.mem_cons.mp hm with he | hm
    · cases he; simp [getPort]
    · have : j < k := hlt (k, q) hm
      simp [getPort, Nat.ne_of_lt this, ih hw hm]

@[simp] theorem State.port_setPort_same (s : State) (p : Nat) (q : Port) : (s.setPort p q).port p = q := by
  simp [State.port]

theorem State.port_setPort_other (s : State) {p r : Nat} (q : Port) (h : r ≠ p) : (s.setPort p q).port r = s.port r := by
  simp [State.port, getPort_setPort_other _ q h]

/-- What replacing a port does to every port. -/
theorem State.port_setPort (s : State) (p r : Nat) (q : Port) :
    (s.setPort p q).port r = if r = p then q else s.port r := by
  split
  · next h => subst h; simp
  · next h => exact s.port_setPort_other q h

/-- What replacing the addressed port does to every port. -/
theorem State.port_setCur (s : State) (r : Nat) (q : Port) :
    (s.setCur q).port r = if r = s.active then q else s.port r := s.port_setPort s.active r q

@[simp] theorem State.cur_setCur (s : State) (q : Port) : (s.setCur q).cur = q := by
  simp [State.cur, State.port_setCur]

@[simp] theorem State.cur_withResult (s : State) (v : Int) :
    (s.withResult v).cur = { s.cur with res := u64 v, status := statusOk } := by simp [State.withResult]

@[simp] theorem State.cur_withStatus (s : State) (w : CmdWord) : (s.withStatus w).cur = { s.cur with status := w } := by
  simp [State.withStatus]

/-- Everything `P.RES <- u64(v); P.STATUS <- 0` does to the ports. -/
theorem State.port_withResult (s : State) (v : Int) (r : Nat) :
    (s.withResult v).port r = if r = s.active then { s.cur with res := u64 v, status := statusOk } else s.port r :=
  s.port_setCur r _

/-- Everything a status write does to the ports. -/
theorem State.port_withStatus (s : State) (w : CmdWord) (r : Nat) :
    (s.withStatus w).port r = if r = s.active then { s.cur with status := w } else s.port r := s.port_setCur r _

/-- Everything taking an exception does to the ports (60_exceptions.md R301). -/
theorem port_raiseError (e : CmdError) (s : State) (r : Nat) :
    (raiseError e s).port r = if r = s.active then { s.cur with status := e.statusWord } else s.port r :=
  s.port_withStatus e.statusWord r

/-- How a command can end: with a value, without one, or with an error (20_memory.md R54). -/
theorem finish_cases (o : CmdResult) (s : State) :
    (∃ v, o = .ok v ∧ finish o s = s.withResult v) ∨ (o = .okNoValue ∧ finish o s = s.withStatus statusOk) ∨
    (∃ e, o = .err e ∧ finish o s = s.withStatus e.statusWord) := by
  cases o with
  | ok v => exact .inl ⟨v, rfl, rfl⟩
  | okNoValue => exact .inr (.inl ⟨rfl, rfl⟩)
  | err e => exact .inr (.inr ⟨e, rfl, rfl⟩)

/-- Everything the end of a command does to the ports. -/
theorem port_finish (o : CmdResult) (s : State) (r : Nat) :
    (finish o s).port r =
      if r = s.active then
        { s.cur with
          res := (match o with | .ok v => u64 v | .okNoValue => s.cur.res | .err _ => s.cur.res)
          status := (match o with | .ok _ => statusOk | .okNoValue => statusOk | .err e => e.statusWord) }
      else s.port r := by
  cases o with
  | ok v => exact s.port_withResult v r
  | okNoValue => exact s.port_withStatus statusOk r
  | err e => exact port_raiseError e s r

@[simp] theorem finish_active (o : CmdResult) (s : State) : (finish o s).active = s.active := by cases o <;> rfl
@[simp] theorem finish_host (o : CmdResult) (s : State) : (finish o s).host = s.host := by cases o <;> rfl
@[simp] theorem finish_reply (o : CmdResult) (s : State) : (finish o s).reply = s.reply := by cases o <;> rfl

/-- A command that computes a value or an error ends in a next state, one of two. -/
theorem conclude_cases (r : Computed) (s : State) :
    (∃ v, r = .ok v ∧ conclude r s = .next (s.withResult v)) ∨
    (∃ e, r = .error e ∧ conclude r s = .next (raiseError e s)) := by
  cases r with
  | ok v => exact .inl ⟨v, rfl, rfl⟩
  | error e => exact .inr ⟨e, rfl, rfl⟩

@[simp] theorem conclude_ok (v : Int) (s : State) : conclude (.ok v) s = .next (s.withResult v) := rfl
@[simp] theorem conclude_error (e : CmdError) (s : State) : conclude (.error e) s = .next (s.withStatus e.statusWord) :=
  rfl

end Sys2Proof.Machine
end

