-- ==== Sys2Proof/Laws/Exec.lean ====
section
/-! SUPPORT. What a command, an access and a step can do, said once: a command ends with the outcome of the pure function
of its operands, an access addresses one port, a step performs one access. -/

namespace Sys2Proof.Machine

/-- A command ends in the outcome `EXEC` gives on the operands of its port (20_memory.md R54, 30_encoding.md R79). -/
theorem exec_eq_finish (i : Instr) (s : State) : exec i s = .next (finish (commandResult i s.cur.opa s.cur.opb) s) := by
  cases i <;> rfl

/-- `Execute(P)` ends in the outcome of `EXEC(P.CMD, P.OPA, P.OPB)` (20_memory.md R54). -/
theorem executeCommand_eq_finish (s : State) :
    executeCommand s = .next (finish (engine s.cur.cmd s.cur.opa s.cur.opb) s) := by
  unfold executeCommand engine
  cases decode s.cur.cmd with
  | error e => rfl
  | ok i => exact exec_eq_finish i s

theorem onPort_present {p : Nat} (h : Config.hasPort p = true) (s : State)
    (k : State → Host.Outcome State Fault Refusal) : onPort p s k = k { s with active := p } := by simp [onPort, h]

theorem onPort_absent {p : Nat} (h : Config.hasPort p = false) (s : State)
    (k : State → Host.Outcome State Fault Refusal) : onPort p s k = .fault (.noSuchPort p) := by simp [onPort, h]

/-- The ports that exist are those below `NPORTS` (10_state.md R34). -/
theorem hasPort_iff (p : Nat) : Config.hasPort p = true ↔ p < Config.nports := by
  cases p <;> simp [Config.hasPort, Config.nports]

/-- An access that ends in a next state addressed a port that exists (10_state.md R34). -/
theorem onPort_next {p : Nat} {s t : State} {k : State → Host.Outcome State Fault Refusal}
    (h : onPort p s k = .next t) : Config.hasPort p = true ∧ k { s with active := p } = .next t := by
  unfold onPort at h
  split at h
  · next hp => exact ⟨hp, h⟩
  · cases h

/-- What a write of `CMD` leaves: the low word, and either RESERVED_BITS or the command's outcome (20_memory.md R53). -/
theorem writeCmd_cases (v : Word) (s : State) :
    (v.toNat / 2 ^ 32 ≠ 0 ∧
      writeCmd v s =
        .next ((s.setCur { s.cur with cmd := v.setWidth 32 }).withStatus
          (CmdError.illegalCommand .reservedBits).statusWord)) ∨
    (v.toNat / 2 ^ 32 = 0 ∧
      writeCmd v s =
        .next (finish (engine (v.setWidth 32) s.cur.opa s.cur.opb) (s.setCur { s.cur with cmd := v.setWidth 32 }))) := by
  unfold writeCmd
  split
  · next h => exact .inl ⟨h, rfl⟩
  · next h => exact .inr ⟨not_not.mp h, by rw [executeCommand_eq_finish]; simp⟩

/-- A register write always ends in a next state, which differs from the one before on the addressed port only
(20_memory.md R53). -/
theorem writeReg_next (i : Fin 8) (v : Word) (s : State) :
    ∃ t, writeReg i v s = .next t ∧ t.active = s.active ∧ t.host = s.host ∧ t.reply = s.reply ∧
      ∀ q, q ≠ s.active → t.port q = s.port q := by
  have hcmd : ∃ t, writeCmd v s = .next t ∧ t.active = s.active ∧ t.host = s.host ∧ t.reply = s.reply ∧
      ∀ q, q ≠ s.active → t.port q = s.port q := by
    rcases writeCmd_cases v s with ⟨_, h⟩ | ⟨_, h⟩
    · exact ⟨_, h, rfl, rfl, rfl, fun q hq => by
        rw [State.port_withStatus, if_neg (by simpa using hq), State.port_setCur, if_neg hq]⟩
    · exact ⟨_, h, by simp, by simp, by simp, fun q hq => by
        rw [port_finish, if_neg (by simpa using hq), State.port_setCur, if_neg hq]⟩
  have hset : ∀ x : Port, ∃ t, (.next (s.setCur x) : Host.Outcome State Fault Refusal) = .next t ∧
      t.active = s.active ∧ t.host = s.host ∧ t.reply = s.reply ∧ ∀ q, q ≠ s.active → t.port q = s.port q :=
    fun x => ⟨_, rfl, rfl, rfl, rfl, fun q hq => by rw [State.port_setCur, if_neg hq]⟩
  fin_cases i
  · exact hset _
  · exact hset _
  · exact hcmd
  all_goals exact ⟨s, rfl, rfl, rfl, rfl, fun _ _ => rfl⟩

/-- Everything a `RegRead` that ends in a next state does (20_memory.md R52). -/
theorem regRead_next {p : Nat} {i : Fin 8} {s t : State} (h : regRead p i s = .next t) :
    Config.hasPort p = true ∧ t = { s with active := p, reply := .value ((s.port p).read i) } := by
  obtain ⟨hp, h⟩ := onPort_next h
  exact ⟨hp, by cases h; rfl⟩

/-- Everything a bus read that ends in a next state does (20_memory.md R56 to R58). -/
theorem busRead_next {addr size : Nat} {s t : State} (h : busRead addr size s = .next t) :
    ∃ p i, busSlot addr size = some (p, i) ∧ Config.hasPort p = true ∧
      t = { s with active := p, reply := .bytes (leBytes size ((s.port p).read i).toNat) } := by
  unfold busRead at h
  split at h
  · cases h
  · next p i hs =>
    obtain ⟨hp, h⟩ := onPort_next h
    exact ⟨p, i, hs, hp, by cases h; rfl⟩

/-- The slot of register `i` of an existing port `p` is decoded to them (20_memory.md R57, R58). -/
theorem busSlot_register {p : Nat} (hp : Config.hasPort p = true) (i : Fin 8) {size : Nat}
    (h : size = 8 ∨ size = 4 ∧ (i = 2 ∨ i = 4)) :
    busSlot (Config.base + p * Config.stride + 8 * i.val) size = some (p, i) := by
  have hs : 64 ≤ Config.stride := by simp only [Config.stride]; omega
  have hsub : Config.base + p * Config.stride + 8 * i.val - Config.base = 8 * i.val + p * Config.stride := by omega
  have hmod : (8 * i.val + p * Config.stride) % Config.stride = 8 * i.val := by
    rw [Nat.add_mul_mod_self_right]; exact Nat.mod_eq_of_lt (by omega)
  have hdiv : (8 * i.val + p * Config.stride) / Config.stride = p := by
    rw [Nat.add_mul_div_right _ _ (by omega), Nat.div_eq_of_lt (by omega), Nat.zero_add]
  have hi : Fin.ofNat 8 (8 * i.val / 8) = i := Fin.ext (by simp [Fin.ofNat])
  unfold busSlot
  rw [hsub, hmod, hdiv, hi, if_neg (by omega), if_neg (by omega), if_neg (by omega), if_neg (by simp [hp]), if_pos]
  rcases h with h | ⟨h, rfl | rfl⟩
  · exact .inl h
  · exact .inr ⟨h, .inl rfl⟩
  · exact .inr ⟨h, .inr rfl⟩

/-- Everything a bus access that R58 accepts can be: a slot of a port that exists, 64-bit, or 32-bit at `CMD` or `STATUS`
(20_memory.md R57, R58). -/
theorem busSlot_some {addr size p : Nat} {i : Fin 8} (h : busSlot addr size = some (p, i)) :
    Config.hasPort p = true ∧ addr = Config.base + p * Config.stride + 8 * i.val ∧
      (size = 8 ∨ size = 4 ∧ (i = 2 ∨ i = 4)) := by
  unfold busSlot at h
  split at h; · cases h
  split at h; · cases h
  split at h; · cases h
  split at h; · cases h
  split at h
  · next h1 h2 h3 hp hs =>
    simp only [Option.some.injEq, Prod.mk.injEq] at h
    obtain ⟨rfl, rfl⟩ := h
    have hdm := Nat.div_add_mod (addr - Config.base) Config.stride
    rw [Nat.mul_comm] at hdm
    have hi : (Fin.ofNat 8 ((addr - Config.base) % Config.stride / 8)).val = (addr - Config.base) % Config.stride / 8 :=
      Nat.mod_eq_of_lt (by omega)
    refine ⟨by simpa using hp, by omega, hs.imp_right (And.imp_right (Or.imp ?_ ?_))⟩ <;>
      exact fun h => Fin.ext (by rw [hi, h]; rfl)
  · cases h

/-- Everything an access that ends in a next state can be: a read of the port it addresses, which leaves the ports, or a
`RegWrite` of it (20_memory.md R51, R57; 30_encoding.md R82). -/
theorem performAccess_next {x : Access} {s t : State} (h : performAccess x s = .next t) :
    ∃ p, x.port? = some p ∧ Config.hasPort p = true ∧
      ((∃ r, t = { s with active := p, reply := r }) ∨
       (∃ i v, performAccess x s = regWrite p i v s ∧ writeReg i v { s with active := p } = .next t)) := by
  cases x with
  | regRead p i =>
    obtain ⟨hp, rfl⟩ := regRead_next h
    exact ⟨p, rfl, hp, .inl ⟨_, rfl⟩⟩
  | regWrite p i v =>
    obtain ⟨hp, hw⟩ := onPort_next h
    exact ⟨p, rfl, hp, .inr ⟨i, v, rfl, hw⟩⟩
  | writeReply p i =>
    cases hv : s.reply.value? with
    | none => simp [performAccess, hv] at h
    | some v =>
      have hx : performAccess (.writeReply p i) s = regWrite p i v s := by simp [performAccess, hv]
      obtain ⟨hp, hw⟩ := onPort_next (hx ▸ h : regWrite p i v s = .next t)
      exact ⟨p, rfl, hp, .inr ⟨i, v, hx, hw⟩⟩
  | busRead addr size =>
    obtain ⟨p, i, hs, hp, rfl⟩ := busRead_next h
    exact ⟨p, by simp [Access.port?, hs], hp, .inl ⟨_, rfl⟩⟩
  | busWrite addr bs =>
    cases hs : busSlot addr bs.length with
    | none => simp [performAccess, busWrite, hs] at h
    | some pi =>
      have hx : performAccess (.busWrite addr bs) s = regWrite pi.1 pi.2 (BitVec.ofNat 64 (ofLeBytes bs)) s := by
        simp [performAccess, busWrite, hs]
      obtain ⟨hp, hw⟩ := onPort_next (hx ▸ h : regWrite pi.1 pi.2 (BitVec.ofNat 64 (ofLeBytes bs)) s = .next t)
      exact ⟨pi.1, by simp [Access.port?, hs], hp, .inr ⟨_, _, hx, hw⟩⟩

/-- An access that ends in a next state leaves the pending accesses and every port but the one it addresses
(10_state.md R34). -/
theorem performAccess_frame {x : Access} {s t : State} (h : performAccess x s = .next t) :
    ∃ p, x.port? = some p ∧ Config.hasPort p = true ∧ t.host = s.host ∧ ∀ q, q ≠ p → t.port q = s.port q := by
  obtain ⟨p, hx, hp, ⟨r, rfl⟩ | ⟨i, v, _, hw⟩⟩ := performAccess_next h
  · exact ⟨p, hx, hp, rfl, fun _ _ => rfl⟩
  · obtain ⟨u, hu, _, hh, _, hf⟩ := writeReg_next i v { s with active := p }
    obtain rfl := Host.Outcome.next.inj (hu.symm.trans hw)
    exact ⟨p, hx, hp, hh, hf⟩

/-- Everything a step that ends in a next state can be: idling, or the first pending access (20_memory.md R61(a)). -/
theorem step_next {s t : State} (h : step s = .next t) :
    (s.host = [] ∧ t = s) ∨ ∃ x rest, s.host = x :: rest ∧ performAccess x { s with host := rest } = .next t := by
  unfold step nextAccess at h
  split at h
  · next hs => exact .inl ⟨hs, by cases h; rfl⟩
  · next x rest hs => exact .inr ⟨x, rest, hs, h⟩

theorem step_cons {s : State} {x : Access} {rest : List Access} (h : s.host = x :: rest) :
    step s = performAccess x { s with host := rest } := by simp [step, nextAccess, h]

end Sys2Proof.Machine
end

