-- ==== Sys2Proof/Laws/Accesses.lean ====
section
/-! SUPPORT. The laws of sequences of accesses and of the bytes of a bus access, one step of each definition of Safety.lean at
a time. -/

namespace Sys2Proof.Machine

@[simp] theorem performAll_nil (s : State) : performAll [] s = .next s := rfl

/-- A sequence that runs begins with an access that runs (20_memory.md R61(a)). -/
theorem performAll_cons_next {x : Access} {rest : List Access} {s t : State} :
    performAll (x :: rest) s = .next t ↔ ∃ u, performAccess x s = .next u ∧ performAll rest u = .next t := by
  simp only [performAll]
  cases performAccess x s <;> simp

@[simp] theorem portAnswers_nil (p : Nat) (s : State) : portAnswers p [] s = [] := rfl

/-- An access that runs adds its answer exactly where it reads port `p`. -/
theorem portAnswers_cons {p : Nat} {x : Access} {rest : List Access} {s t : State} (h : performAccess x s = .next t) :
    portAnswers p (x :: rest) s =
      if x.isRead ∧ x.port? = some p then t.reply :: portAnswers p rest t else portAnswers p rest t := by
  simp [portAnswers, h]

/-- Bytes that are the low bytes of a value spell it, modulo their width (20_memory.md R56). -/
theorem ofLeBytes_littleEndian {bs : List Byte} {v : Word} (h : littleEndian bs v) :
    ofLeBytes bs = v.toNat % 256 ^ bs.length := by
  induction bs generalizing v with
  | nil => simp [ofLeBytes, Nat.mod_one]
  | cons b rest ih =>
    have low : b.toNat = v.toNat % 256 := by
      have := h 0 (by simp)
      simp only [List.getElem_cons_zero] at this
      rw [this]; simp [BitVec.extractLsb'_toNat]
    have high : littleEndian rest (v >>> 8) := fun k hk => by
      have := h (k + 1) (by simpa using hk)
      simp only [List.getElem_cons_succ] at this
      rw [this]
      apply BitVec.eq_of_toNat_eq
      rw [BitVec.extractLsb'_toNat, BitVec.extractLsb'_toNat, BitVec.toNat_ushiftRight, ← Nat.shiftRight_add]
      congr 2; omega
    rw [ofLeBytes, ih high, low, BitVec.toNat_ushiftRight, Nat.shiftRight_eq_div_pow, List.length_cons,
      Nat.pow_succ' (m := 256), show (2 : Nat) ^ 8 = 256 from rfl, Nat.mod_mul (a := 256)]

end Sys2Proof.Machine
end

