-- ==== Sys2Proof/Laws/PerInstr.lean ====
section
/-! SUPPORT. The family `EncodeFields`: each field of the word of a command reads back as the field of the command, for every
one of the 24 commands (spec/30_encoding.md R70, R74, R76). -/

namespace Sys2Proof

/-- The number that the format of R70 makes of its fields. -/
theorem toNat_commandWord {op aux : Nat} (sel : Selector) (ho : op < 64) (ha : aux < 32) :
    (commandWord op sel aux).toNat =
      op + sel.scale.toNat * 2 ^ 6 + sel.mode.code * 2 ^ 11 + sel.ovf.code * 2 ^ 14 + aux * 2 ^ 15 := by
  have hs := sel.scale.isLt
  have hm : sel.mode.code < 8 := by cases sel.mode <;> decide
  have hv : sel.ovf.code < 2 := by cases sel.ovf <;> decide
  rw [commandWord, BitVec.toNat_ofNat]
  exact Nat.mod_eq_of_lt (by omega)

/-- Each field of the word made of fields reads back (R70). -/
theorem fields_commandWord {op aux : Nat} (sel : Selector) (ho : op < 64) (ha : aux < 32) :
    opField (commandWord op sel aux) = op ∧ (scaleField (commandWord op sel aux)).toNat = sel.scale.toNat ∧
    modeField (commandWord op sel aux) = sel.mode.code ∧ ovfField (commandWord op sel aux) = sel.ovf.code ∧
    (auxField (commandWord op sel aux)).toNat = aux ∧ zeroField (commandWord op sel aux) = 0 := by
  have hw := toNat_commandWord sel ho ha
  have hs := sel.scale.isLt
  have hm : sel.mode.code < 8 := by cases sel.mode <;> decide
  have hv : sel.ovf.code < 2 := by cases sel.ovf <;> decide
  simp only [opField, scaleField, modeField, ovfField, auxField, zeroField, bits, BitVec.toNat_ofNat, hw]
  norm_num
  omega

/-- What every command's word says: its opcode, its selector, its aux value, and zeros above (R70, R76). -/
def Laws.EncodeFields.Statement (i : Instr) : Prop :=
  opField (encode i) = i.opcode ∧ (scaleField (encode i)).toNat = i.sel.scale.toNat ∧
  modeField (encode i) = i.sel.mode.code ∧ ovfField (encode i) = i.sel.ovf.code ∧
  (auxField (encode i)).toNat = i.aux ∧ zeroField (encode i) = 0

theorem Metric.code_lt (k : Metric) : k.code < 32 := by cases k <;> decide

theorem Instr.opcode_lt (i : Instr) : i.opcode < 64 := by cases i <;> simp [Instr.opcode]

theorem Instr.aux_lt (i : Instr) : i.aux < 32 := by
  cases i <;> simp only [Instr.aux, Metric.code_lt, Nat.zero_lt_succ] <;> exact BitVec.isLt _

theorem Laws.EncodeFields.nop (sel : Selector) : Laws.EncodeFields.Statement (.nop sel) :=
  fields_commandWord sel (Instr.opcode_lt _) (Instr.aux_lt _)

theorem Laws.EncodeFields.add (sel : Selector) : Laws.EncodeFields.Statement (.add sel) :=
  fields_commandWord sel (Instr.opcode_lt _) (Instr.aux_lt _)

theorem Laws.EncodeFields.sub (sel : Selector) : Laws.EncodeFields.Statement (.sub sel) :=
  fields_commandWord sel (Instr.opcode_lt _) (Instr.aux_lt _)

theorem Laws.EncodeFields.neg (sel : Selector) : Laws.EncodeFields.Statement (.neg sel) :=
  fields_commandWord sel (Instr.opcode_lt _) (Instr.aux_lt _)

theorem Laws.EncodeFields.abs (sel : Selector) : Laws.EncodeFields.Statement (.abs sel) :=
  fields_commandWord sel (Instr.opcode_lt _) (Instr.aux_lt _)

theorem Laws.EncodeFields.avg (sel : Selector) : Laws.EncodeFields.Statement (.avg sel) :=
  fields_commandWord sel (Instr.opcode_lt _) (Instr.aux_lt _)

theorem Laws.EncodeFields.shl (sel : Selector) : Laws.EncodeFields.Statement (.shl sel) :=
  fields_commandWord sel (Instr.opcode_lt _) (Instr.aux_lt _)

theorem Laws.EncodeFields.shr (sel : Selector) : Laws.EncodeFields.Statement (.shr sel) :=
  fields_commandWord sel (Instr.opcode_lt _) (Instr.aux_lt _)

theorem Laws.EncodeFields.mul (sel : Selector) : Laws.EncodeFields.Statement (.mul sel) :=
  fields_commandWord sel (Instr.opcode_lt _) (Instr.aux_lt _)

theorem Laws.EncodeFields.sqr (sel : Selector) : Laws.EncodeFields.Statement (.sqr sel) :=
  fields_commandWord sel (Instr.opcode_lt _) (Instr.aux_lt _)

theorem Laws.EncodeFields.div (sel : Selector) : Laws.EncodeFields.Statement (.div sel) :=
  fields_commandWord sel (Instr.opcode_lt _) (Instr.aux_lt _)

theorem Laws.EncodeFields.inv (sel : Selector) : Laws.EncodeFields.Statement (.inv sel) :=
  fields_commandWord sel (Instr.opcode_lt _) (Instr.aux_lt _)

theorem Laws.EncodeFields.sqrt (sel : Selector) : Laws.EncodeFields.Statement (.sqrt sel) :=
  fields_commandWord sel (Instr.opcode_lt _) (Instr.aux_lt _)

theorem Laws.EncodeFields.pow (sel : Selector) : Laws.EncodeFields.Statement (.pow sel) :=
  fields_commandWord sel (Instr.opcode_lt _) (Instr.aux_lt _)

theorem Laws.EncodeFields.mulp10 (sel : Selector) : Laws.EncodeFields.Statement (.mulp10 sel) :=
  fields_commandWord sel (Instr.opcode_lt _) (Instr.aux_lt _)

theorem Laws.EncodeFields.divp10 (sel : Selector) : Laws.EncodeFields.Statement (.divp10 sel) :=
  fields_commandWord sel (Instr.opcode_lt _) (Instr.aux_lt _)

theorem Laws.EncodeFields.fromlong (sel : Selector) : Laws.EncodeFields.Statement (.fromlong sel) :=
  fields_commandWord sel (Instr.opcode_lt _) (Instr.aux_lt _)

theorem Laws.EncodeFields.tolong (sel : Selector) : Laws.EncodeFields.Statement (.tolong sel) :=
  fields_commandWord sel (Instr.opcode_lt _) (Instr.aux_lt _)

theorem Laws.EncodeFields.fromunsc (sel : Selector) (aux : BitVec 5) : Laws.EncodeFields.Statement (.fromunsc sel aux) :=
  fields_commandWord sel (Instr.opcode_lt _) (Instr.aux_lt _)

theorem Laws.EncodeFields.tounsc (sel : Selector) (aux : BitVec 5) : Laws.EncodeFields.Statement (.tounsc sel aux) :=
  fields_commandWord sel (Instr.opcode_lt _) (Instr.aux_lt _)

theorem Laws.EncodeFields.fromdbl (sel : Selector) : Laws.EncodeFields.Statement (.fromdbl sel) :=
  fields_commandWord sel (Instr.opcode_lt _) (Instr.aux_lt _)

theorem Laws.EncodeFields.todbl (sel : Selector) : Laws.EncodeFields.Statement (.todbl sel) :=
  fields_commandWord sel (Instr.opcode_lt _) (Instr.aux_lt _)

theorem Laws.EncodeFields.modsf (sel : Selector) : Laws.EncodeFields.Statement (.modsf sel) :=
  fields_commandWord sel (Instr.opcode_lt _) (Instr.aux_lt _)

theorem Laws.EncodeFields.metric (sel : Selector) (k : Metric) : Laws.EncodeFields.Statement (.metric sel k) :=
  fields_commandWord sel (Instr.opcode_lt _) (Instr.aux_lt _)

end Sys2Proof
end

