-- ==== Sys2Proof/Laws/Rounding.lean ====
section
/-! SUPPORT. The laws of the rounding engine and of the overflow law: what the increment, a rounding and `fit` can
answer. -/

namespace Sys2Proof.Machine

/-- The class is Z exactly when nothing is discarded (41_rounding.md R122). -/
theorem part_eq_zero {r d : Nat} : part r d = .zero ↔ r = 0 := by
  unfold part; split
  · simp_all
  · split <;> [skip; split] <;> simp_all

theorem part_eq_lessThanHalf {r d : Nat} : part r d = .lessThanHalf ↔ r ≠ 0 ∧ 2 * r < d := by
  unfold part; split
  · simp_all
  · split <;> [skip; split] <;> simp_all

theorem part_eq_equalToHalf {r d : Nat} : part r d = .equalToHalf ↔ r ≠ 0 ∧ 2 * r = d := by
  unfold part; split
  · simp_all
  · split
    · simp only [reduceCtorEq, ne_eq, false_iff, not_and]; omega
    · split <;> simp_all

theorem part_eq_greaterThanHalf {r d : Nat} : part r d = .greaterThanHalf ↔ r ≠ 0 ∧ d < 2 * r := by
  unfold part; split
  · simp_all
  · split
    · simp only [reduceCtorEq, ne_eq, false_iff, not_and]; omega
    · split
      · simp only [reduceCtorEq, ne_eq, false_iff, not_and]; omega
      · simp only [ne_eq, true_iff]; omega

@[simp] theorem increment_zero (mode : RoundingMode) (sign : Int) (odd : Bool) :
    increment mode sign odd .zero = .ok 0 := rfl

/-- The exact-required mode refuses every discarded part that is not zero (41_rounding.md R126). -/
theorem increment_unnecessary {sign : Int} {odd : Bool} {p : TruncatedPart} (h : p ≠ .zero) :
    increment .unnecessary sign odd p = .error .roundingNecessary := by
  cases p <;> first | rfl | exact absurd rfl h

/-- Everything the increment table can answer (41_rounding.md R124): ROUNDING_NECESSARY, 0 or the sign. -/
theorem increment_cases (mode : RoundingMode) {sign : Int} (odd : Bool) (p : TruncatedPart)
    (h : sign = 1 ∨ sign = -1) :
    (mode = .unnecessary ∧ p ≠ .zero ∧ increment mode sign odd p = .error .roundingNecessary) ∨
    increment mode sign odd p = .ok 0 ∨ (p ≠ .zero ∧ increment mode sign odd p = .ok sign) := by
  rcases h with rfl | rfl <;> cases mode <;> cases p <;> cases odd <;> simp [increment]

theorem ratioSign_cases (num den : Int) : ratioSign num den = 1 ∨ ratioSign num den = -1 := by
  unfold ratioSign; split <;> split <;> simp

/-- The sign given to the engine with the magnitudes is the ratio, up to its discarded part (41_rounding.md R125). -/
theorem ratioSign_mul_natAbs (num : Int) {den : Int} (h : den ≠ 0) :
    ratioSign num den * num.natAbs * den.natAbs = num * den := by
  have key : ∀ a b : Int, (a.natAbs : Int) * b.natAbs = |a * b| := fun a b => by
    rw [abs_mul, Int.natCast_natAbs, Int.natCast_natAbs]
  rw [mul_assoc, key]
  unfold ratioSign
  rcases lt_trichotomy den 0 with hd | hd | hd
  · rw [if_pos hd]
    split
    · next hn => rw [abs_of_neg (by nlinarith)]; ring
    · next hn => rw [abs_of_nonneg (by nlinarith)]; ring
  · exact absurd hd h
  · rw [if_neg (not_lt.mpr hd.le)]
    split
    · next hn => rw [abs_of_neg (by nlinarith)]; ring
    · next hn => rw [abs_of_nonneg (by nlinarith)]; ring

/-- Everything a rounding can answer: ROUNDING_NECESSARY where something is discarded under UNNECESSARY, or the truncated
value, moved away from zero by one or not (41_rounding.md R125, R126). -/
theorem rnd_cases (mode : RoundingMode) (num den : Int) :
    (mode = .unnecessary ∧ num.natAbs % den.natAbs ≠ 0 ∧ rnd mode num den = .error .roundingNecessary) ∨
    rnd mode num den = .ok (ratioSign num den * (num.natAbs / den.natAbs : Nat)) ∨
    (num.natAbs % den.natAbs ≠ 0 ∧
      rnd mode num den = .ok (ratioSign num den * (num.natAbs / den.natAbs : Nat) + ratioSign num den)) := by
  unfold rnd roundMagnitude
  rcases increment_cases mode (isOdd (num.natAbs / den.natAbs)) (part (num.natAbs % den.natAbs) den.natAbs)
    (ratioSign_cases num den) with ⟨hm, hp, hi⟩ | hi | ⟨hp, hi⟩
  · exact .inl ⟨hm, fun h => hp (part_eq_zero.mpr h), by rw [hi]⟩
  · exact .inr (.inl (by rw [hi]; simp))
  · exact .inr (.inr ⟨fun h => hp (part_eq_zero.mpr h), by rw [hi]⟩)

/-- A rounding never raises but ROUNDING_NECESSARY, and only under UNNECESSARY (41_rounding.md R126, R127(b)). -/
theorem rnd_error {mode : RoundingMode} {num den : Int} {e : CmdError} (h : rnd mode num den = .error e) :
    mode = .unnecessary ∧ e = .roundingNecessary := by
  rcases rnd_cases mode num den with ⟨hm, _, hr⟩ | hr | ⟨_, hr⟩ <;> rw [hr] at h
  · exact ⟨hm, (Except.error.inj h).symm⟩
  · cases h
  · cases h

theorem rndHalfEven_spec (num den : Int) : rnd .halfEven num den = .ok (rndHalfEven num den) := by
  unfold rndHalfEven
  cases h : rnd .halfEven num den with
  | ok q => rfl
  | error e => exact absurd (rnd_error h).1 (by decide)

theorem inRange_iff (x : Int) : inRange x = true ↔ MIN ≤ x ∧ x ≤ MAX := by simp [inRange]

theorem fit_inRange {ovf : OverflowMode} {r : Int} (h : MIN ≤ r ∧ r ≤ MAX) : fit ovf r = .ok r := by
  simp [fit, (inRange_iff r).mpr h]

/-- Unchecked mode never fails: it keeps the low 64 bits (41_rounding.md R130). -/
theorem fit_unchecked (r : Int) : fit .unchecked r = .ok (wrap64 r) := by
  unfold fit
  split
  · next h => rw [wrap64_of_inRange ((inRange_iff r).mp h)]
  · rfl

theorem fit_checked_outside {r : Int} (h : ¬ (MIN ≤ r ∧ r ≤ MAX)) : fit .checked r = .error .overflow := by
  have : inRange r = false := by rw [Bool.eq_false_iff]; exact fun hc => h ((inRange_iff r).mp hc)
  simp [fit, this]

/-- Everything the overflow law can answer (41_rounding.md R130). -/
theorem fit_cases (ovf : OverflowMode) (r : Int) :
    (ovf = .checked ∧ ¬ (MIN ≤ r ∧ r ≤ MAX) ∧ fit ovf r = .error .overflow) ∨ fit ovf r = .ok (wrap64 r) := by
  by_cases h : MIN ≤ r ∧ r ≤ MAX
  · exact .inr (by rw [fit_inRange h, wrap64_of_inRange h])
  · cases ovf with
    | checked => exact .inl ⟨rfl, h, fit_checked_outside h⟩
    | unchecked => exact .inr (fit_unchecked r)

theorem fit_error {ovf : OverflowMode} {r : Int} {e : CmdError} (h : fit ovf r = .error e) : e = .overflow := by
  rcases fit_cases ovf r with ⟨_, _, hr⟩ | hr <;> rw [hr] at h
  · exact (Except.error.inj h).symm
  · cases h

@[simp] theorem fitRounded_ok (ovf : OverflowMode) (v : Int) : fitRounded ovf (.ok v) = fit ovf v := rfl
@[simp] theorem fitRounded_error (ovf : OverflowMode) (e : CmdError) : fitRounded ovf (.error e) = .error e := rfl

end Sys2Proof.Machine
end

