-- ==== Sys2Proof/Tests/Slice0.lean ====
section
/-! SUPPORT. The model's own tests. The smoke test of WellFormed; one word per command written out field by field from
spec/30_encoding.md R70 and R76 (`zero_aux_ovf_mode_scale_op` in binary); one or two vectors per command from
spec/95_test_vectors.md, named in the comment, each one step; the host's accesses; and for every obligation that has
hypotheses a state and operands that meet them. -/

namespace Sys2Proof.Tests

open Sys2Proof Sys2Proof.Machine

/-! ## WellFormed: each check refuses an ill-formed term -/

theorem test_wf_refuses_scale : (Instr.add { scale := 19, mode := .up, ovf := .checked }).wf = false := by decide

theorem test_wf_refuses_scale_of_fromunsc :
    (Instr.fromunsc { scale := 31, mode := .up, ovf := .checked } 0).wf = false := by decide

theorem test_wf_refuses_source_scale :
    (Instr.fromunsc { scale := 18, mode := .up, ovf := .checked } 19).wf = false := by decide

theorem test_wf_refuses_target_scale :
    (Instr.tounsc { scale := 0, mode := .up, ovf := .checked } 31).wf = false := by decide

theorem test_wf_accepts_boundary :
    (Instr.tounsc { scale := 18, mode := .unnecessary, ovf := .checked } 18).wf = true := by decide

/-! ## Decode: one word per command, written out from its fields -/

theorem test_decode_nop :
    decode (BitVec.ofNat 32 0b000000000000_00000_1_100_00010_000000) =
      .ok (.nop { scale := 2, mode := .halfUp, ovf := .checked }) := by decide

theorem test_decode_add :
    decode (BitVec.ofNat 32 0b000000000000_00000_0_111_01001_000001) =
      .ok (.add { scale := 9, mode := .unnecessary, ovf := .unchecked }) := by decide

theorem test_decode_sub :
    decode (BitVec.ofNat 32 0b000000000000_00000_1_010_10000_000010) =
      .ok (.sub { scale := 16, mode := .ceiling, ovf := .checked }) := by decide

theorem test_decode_neg :
    decode (BitVec.ofNat 32 0b000000000000_00000_0_101_00100_000011) =
      .ok (.neg { scale := 4, mode := .halfDown, ovf := .unchecked }) := by decide

theorem test_decode_abs :
    decode (BitVec.ofNat 32 0b000000000000_00000_1_000_01011_000100) =
      .ok (.abs { scale := 11, mode := .up, ovf := .checked }) := by decide

theorem test_decode_avg :
    decode (BitVec.ofNat 32 0b000000000000_00000_0_011_10010_000101) =
      .ok (.avg { scale := 18, mode := .floor, ovf := .unchecked }) := by decide

theorem test_decode_shl :
    decode (BitVec.ofNat 32 0b000000000000_00000_1_110_00110_000110) =
      .ok (.shl { scale := 6, mode := .halfEven, ovf := .checked }) := by decide

theorem test_decode_shr :
    decode (BitVec.ofNat 32 0b000000000000_00000_0_001_01101_000111) =
      .ok (.shr { scale := 13, mode := .down, ovf := .unchecked }) := by decide

theorem test_decode_mul :
    decode (BitVec.ofNat 32 0b000000000000_00000_1_100_00001_001000) =
      .ok (.mul { scale := 1, mode := .halfUp, ovf := .checked }) := by decide

theorem test_decode_sqr :
    decode (BitVec.ofNat 32 0b000000000000_00000_0_111_01000_001001) =
      .ok (.sqr { scale := 8, mode := .unnecessary, ovf := .unchecked }) := by decide

theorem test_decode_div :
    decode (BitVec.ofNat 32 0b000000000000_00000_1_010_01111_001010) =
      .ok (.div { scale := 15, mode := .ceiling, ovf := .checked }) := by decide

theorem test_decode_inv :
    decode (BitVec.ofNat 32 0b000000000000_00000_0_101_00011_001011) =
      .ok (.inv { scale := 3, mode := .halfDown, ovf := .unchecked }) := by decide

theorem test_decode_sqrt :
    decode (BitVec.ofNat 32 0b000000000000_00000_1_000_01010_001100) =
      .ok (.sqrt { scale := 10, mode := .up, ovf := .checked }) := by decide

theorem test_decode_pow :
    decode (BitVec.ofNat 32 0b000000000000_00000_0_011_10001_001101) =
      .ok (.pow { scale := 17, mode := .floor, ovf := .unchecked }) := by decide

theorem test_decode_mulp10 :
    decode (BitVec.ofNat 32 0b000000000000_00000_1_110_00101_001110) =
      .ok (.mulp10 { scale := 5, mode := .halfEven, ovf := .checked }) := by decide

theorem test_decode_divp10 :
    decode (BitVec.ofNat 32 0b000000000000_00000_0_001_01100_001111) =
      .ok (.divp10 { scale := 12, mode := .down, ovf := .unchecked }) := by decide

theorem test_decode_fromlong :
    decode (BitVec.ofNat 32 0b000000000000_00000_1_100_00000_010000) =
      .ok (.fromlong { scale := 0, mode := .halfUp, ovf := .checked }) := by decide

theorem test_decode_tolong :
    decode (BitVec.ofNat 32 0b000000000000_00000_0_111_00111_010001) =
      .ok (.tolong { scale := 7, mode := .unnecessary, ovf := .unchecked }) := by decide

theorem test_decode_fromunsc :
    decode (BitVec.ofNat 32 0b000000000000_10010_1_010_01110_010010) =
      .ok (.fromunsc { scale := 14, mode := .ceiling, ovf := .checked } 18) := by decide

theorem test_decode_tounsc :
    decode (BitVec.ofNat 32 0b000000000000_00011_0_101_00010_010011) =
      .ok (.tounsc { scale := 2, mode := .halfDown, ovf := .unchecked } 3) := by decide

theorem test_decode_fromdbl :
    decode (BitVec.ofNat 32 0b000000000000_00000_1_000_01001_010100) =
      .ok (.fromdbl { scale := 9, mode := .up, ovf := .checked }) := by decide

theorem test_decode_todbl :
    decode (BitVec.ofNat 32 0b000000000000_00000_0_011_10000_010101) =
      .ok (.todbl { scale := 16, mode := .floor, ovf := .unchecked }) := by decide

theorem test_decode_modsf :
    decode (BitVec.ofNat 32 0b000000000000_00000_1_110_00100_010110) =
      .ok (.modsf { scale := 4, mode := .halfEven, ovf := .checked }) := by decide

theorem test_decode_metric :
    decode (BitVec.ofNat 32 0b000000000000_00100_0_001_01011_010111) =
      .ok (.metric { scale := 11, mode := .down, ovf := .unchecked } .sqrtSf) := by decide

/-! ## One step per vector -/

/-- Port 0 with these operands; `RES` 777 and `STATUS` 9 stand for what an earlier run left. -/
def atPort (a b : Int) : State :=
  State.reset.setPort 0 { opa := u64 a, opb := u64 b, cmd := 5, res := 777, status := 9 }

/-- `RES` and `STATUS` of port 0 after one step that writes the command word. -/
def runCommand (w : Nat) (a b : Int) : Option (Word × CmdWord) :=
  match step ((atPort a b).withFetchWord 32 w) with
  | .next t => some ((t.port 0).res, (t.port 0).status)
  | .fault _ => none
  | .refused _ => none

/-- Vector E1. -/
theorem test_nop_e1 : runCommand 0x00000800 7 9 = some (u64 777, 0x00) := by decide

/-- Vector S6. -/
theorem test_add_s6 : runCommand 0x00000881 9223372036854775807 100 = some (u64 (-9223372036854775709), 0x00) := by decide

/-- Vector A2. -/
theorem test_add_a2 : runCommand 0x00004801 (-9223372036854775808) (-1) = some (u64 777, 0x01) := by decide

/-- Vector A10. -/
theorem test_sub_a10 : runCommand 0x00004802 (-1) (-9223372036854775808) = some (u64 9223372036854775807, 0x00) := by decide

/-- Vector A13. -/
theorem test_sub_a13 : runCommand 0x00000802 9223372036854775807 (-1) = some (u64 (-9223372036854775808), 0x00) := by decide

/-- Vector A14. -/
theorem test_neg_a14 : runCommand 0x00004803 5 12345 = some (u64 (-5), 0x00) := by decide

/-- Vector A16. -/
theorem test_neg_a16 : runCommand 0x00000803 (-9223372036854775808) 12345 = some (u64 (-9223372036854775808), 0x00) := by decide

/-- Vector A18. -/
theorem test_abs_a18 : runCommand 0x00004804 (-5) 12345 = some (u64 5, 0x00) := by decide

/-- Vector A19. -/
theorem test_abs_a19 : runCommand 0x00004804 (-9223372036854775808) 12345 = some (u64 777, 0x01) := by decide

/-- Vector A21. -/
theorem test_avg_a21 : runCommand 0x00003005 3 4 = some (u64 4, 0x00) := by decide

/-- Vector A35. -/
theorem test_avg_a35 : runCommand 0x00001805 (-3) (-4) = some (u64 (-4), 0x00) := by decide

/-- Vector A38. -/
theorem test_shl_a38 : runCommand 0x00000806 1 63 = some (u64 (-9223372036854775808), 0x00) := by decide

/-- Vector A45. -/
theorem test_shl_a45 : runCommand 0x00004006 5 (-9223372036854775808) = some (u64 1, 0x00) := by decide

/-- Vector A51. -/
theorem test_shr_a51 : runCommand 0x00001807 (-5) 1 = some (u64 (-3), 0x00) := by decide

/-- Vector A58. -/
theorem test_shr_a58 : runCommand 0x00002007 (-9223372036854775808) 64 = some (u64 (-1), 0x00) := by decide

/-- Vector M7. -/
theorem test_mul_m7 : runCommand 0x00006088 (-150) 225 = some (u64 (-338), 0x00) := by decide

/-- Vector F1. -/
theorem test_mul_f1 : runCommand 0x00007848 9223372036854775807 15 = some (u64 777, 0x03) := by decide

/-- Vector M31. -/
theorem test_sqr_m31 : runCommand 0x00006089 15 12345 = some (u64 2, 0x00) := by decide

/-- Vector M34. -/
theorem test_sqr_m34 : runCommand 0x00000C89 (-9223372036854775808) 12345 = some (u64 (-7163128638313142215), 0x00) := by decide

/-- Vector S3. -/
theorem test_div_s3 : runCommand 0x0000708A 100 300 = some (u64 33, 0x00) := by decide

/-- Vector N4FLOOR. -/
theorem test_div_n4floor : runCommand 0x0000580A (-1) 3 = some (u64 (-1), 0x00) := by decide

/-- Vector M72. -/
theorem test_inv_m72 : runCommand 0x0000608B 3 12345 = some (u64 3333, 0x00) := by decide

/-- Vector M77. -/
theorem test_inv_m77 : runCommand 0x00000C8B 1 12345 = some (u64 (-5527149226598858752), 0x00) := by decide

/-- Vector Q1. -/
theorem test_sqrt_q1 : runCommand 0x0000008C 200 12345 = some (u64 142, 0x00) := by decide

/-- Vector Q8. -/
theorem test_sqrt_q8 : runCommand 0x0000080C (-9223372036854775808) 12345 = some (u64 777, 0x14) := by decide

/-- Vector Q32. -/
theorem test_pow_q32 : runCommand 0x0000608D (-150) 3 = some (u64 (-338), 0x00) := by decide

/-- Vector Q24. -/
theorem test_pow_q24 : runCommand 0x0000408D 150 (-2) = some (u64 45, 0x00) := by decide

/-- Vector T6. -/
theorem test_mulp10_t6 : runCommand 0x0000080E 1 19 = some (u64 (-8446744073709551616), 0x00) := by decide

/-- Vector T14. -/
theorem test_mulp10_t14 : runCommand 0x0000280E 9223372036854775807 (-19) = some (u64 1, 0x00) := by decide

/-- Vector T27. -/
theorem test_divp10_t27 : runCommand 0x0000300F (-25) 1 = some (u64 (-2), 0x00) := by decide

/-- Vector T21. -/
theorem test_divp10_t21 : runCommand 0x0000480F 1 (-9223372036854775808) = some (u64 777, 0x01) := by decide

/-- Vector T33. -/
theorem test_fromlong_t33 : runCommand 0x00004890 (-92233720368547759) 12345 = some (u64 777, 0x01) := by decide

/-- Vector T32. -/
theorem test_fromlong_t32 : runCommand 0x00004890 (-92233720368547758) 12345 = some (u64 (-9223372036854775800), 0x00) := by decide

/-- Vector T41. -/
theorem test_tolong_t41 : runCommand 0x00003091 (-12450) 12345 = some (u64 (-124), 0x00) := by decide

/-- Vector T44. -/
theorem test_tolong_t44 : runCommand 0x00000491 (-9223372036854775808) 12345 = some (u64 (-10), 0x00) := by decide

/-- Vector T48. -/
theorem test_fromunsc_t48 : runCommand 0x0001F092 12345 12345 = some (u64 1234, 0x00) := by decide

/-- Vector T58. -/
theorem test_fromunsc_t58 : runCommand 0x00019812 (-4) 12345 = some (u64 (-1), 0x00) := by decide

/-- Vector T61. -/
theorem test_tounsc_t61 : runCommand 0x000160D3 12345 12345 = some (u64 1235, 0x00) := by decide

/-- Vector T64. -/
theorem test_tounsc_t64 : runCommand 0x00018893 9223372036854775807 12345 = some (u64 (-10), 0x00) := by decide

/-- Vector W12. -/
theorem test_fromdbl_w12 : runCommand 0x00006014 0xc004000000000000 12345 = some (u64 (-3), 0x00) := by decide

/-- Vector W22. -/
theorem test_fromdbl_w22 : runCommand 0x00000894 0x7ff0000000000000 12345 = some (u64 777, 0x05) := by decide

/-- Vector W47. -/
theorem test_todbl_w47 : runCommand 0x00000895 (-150) 12345 = some (u64 13832806255468478464, 0x00) := by decide

/-- Vector W55. -/
theorem test_todbl_w55 : runCommand 0x00000815 9007199254740995 12345 = some (u64 4845873199050653698, 0x00) := by decide

/-- Vector L40. -/
theorem test_modsf_l40 : runCommand 0x00000C96 (-9223372036854775808) 12345 = some (u64 (-223372036854775808), 0x00) := by decide

/-- Vector L37. -/
theorem test_modsf_l37 : runCommand 0x00000896 (-12345) 12345 = some (u64 (-45), 0x00) := by decide

/-- Vector L10. -/
theorem test_metric_l10 : runCommand 0x00008897 12345 12345 = some (u64 92233720368547758, 0x00) := by decide

/-- Vector L23. -/
theorem test_metric_l23 : runCommand 0x00030A57 12345 12345 = some (u64 13979505347009107605, 0x00) := by decide

/-! ## The printed table of 40_scale_metrics.md R101 -/

/-- MAXINT, MININT, HALFSF, SQRTSF, SFBITS, DBLMAX as the spec prints them, scales 0 to 18. -/
def printedLut : List (List Int) :=
  [[9223372036854775807, -9223372036854775808, 0, 1, 1, 0x43E0000000000000],
   [922337203685477580, -922337203685477580, 5, 3, 4, 0x43A999999999999A],
   [92233720368547758, -92233720368547758, 50, 10, 7, 0x43747AE147AE147B],
   [9223372036854775, -9223372036854775, 500, 31, 10, 0x4340624DD2F1A9FC],
   [922337203685477, -922337203685477, 5000, 100, 14, 0x430A36E2EB1C432D],
   [92233720368547, -92233720368547, 50000, 316, 17, 0x42D4F8B588E368F1],
   [9223372036854, -9223372036854, 500000, 1000, 20, 0x42A0C6F7A0B5ED8D]] ++
  [[922337203685, -922337203685, 5000000, 3162, 24, 0x426AD7F29ABCAF48],
   [92233720368, -92233720368, 50000000, 10000, 27, 0x4235798EE2308C3A],
   [9223372036, -9223372036, 500000000, 31622, 30, 0x42012E0BE826D695],
   [922337203, -922337203, 5000000000, 100000, 34, 0x41CB7CDFD9D7BDBB],
   [92233720, -92233720, 50000000000, 316227, 37, 0x4195FD7FE1796495],
   [9223372, -9223372, 500000000000, 1000000, 40, 0x41619799812DEA11],
   [922337, -922337, 5000000000000, 3162277, 44, 0x412C25C268497682]] ++
  [[92233, -92233, 50000000000000, 10000000, 47, 0x40F6849B86A12B9B],
   [9223, -9223, 500000000000000, 31622776, 50, 0x40C203AF9EE75616],
   [922, -922, 5000000000000000, 100000000, 54, 0x408CD2B297D889BC],
   [92, -92, 50000000000000000, 316227766, 57, 0x40570EF54646D497],
   [9, -9, 500000000000000000, 1000000000, 60, 0x4022725DD1D243AC]]

theorem test_lut_is_printed_table :
    (List.range 19).map (fun s => [Metric.maxInt, .minInt, .halfSf, .sqrtSf, .sfBits, .dblMax].map (lut s)) =
      printedLut := by decide

/-- 46_double_conversion.md R253, R255: the range screens of FROMDBL on both sides of their bounds. -/
theorem test_range_screens :
    exceedsDblMax 2 0x7FEFFFFFFFFFFFFF = true ∧ exceedsDblMax 2 0x43747AE147AE147B = false ∧
    fromdblLeftOverflows 1 63 = true ∧ fromdblLeftOverflows 1 62 = false := by decide

/-! ## The host's accesses -/

/-- The answer of a step on these pending accesses after a MUL of 1.50 by 2.15 at scale 2 (program P1 of
95_test_vectors.md computes so). -/
def answerAfter (xs : List Access) : Option Reply :=
  match performAll xs State.reset with
  | .next t => some t.reply
  | .fault _ => none
  | .refused _ => none

/-- 20_memory.md R52, R53: what is written is read back, reserved and read-only indices ignore the write. -/
theorem test_registers_read_back :
    answerAfter [.regWrite 0 1 7, .regRead 0 1] = some (.value 7) ∧
    answerAfter [.regWrite 0 3 7, .regRead 0 3] = some (.value 0) ∧
    answerAfter [.regWrite 0 7 7, .regRead 0 7] = some (.value 0) := by decide

/-- 20_memory.md R53: bits 63:32 of a 64-bit `CMD` write are reserved bits. -/
theorem test_wide_command_write_is_reserved :
    answerAfter [.regWrite 0 2 0x100000000, .regRead 0 4] = some (.value 0x16) := by decide

/-- 30_encoding.md R82: MOVR copies `RES` to an operand through the host. -/
theorem test_movr_copies_result :
    answerAfter [.regWrite 0 0 5, .regWrite 0 2 0x00004890, .regRead 0 3, .writeReply 0 1, .regRead 0 1] =
      some (.value 500) := by decide

/-- 30_encoding.md R81: a line of the notation and its word (vector S1). -/
theorem test_assembler_reads_a_command :
    (readLine "FROMLONG.s2.DOWN.C ; 5.00".toList).map (AsmLine.accesses 0) =
      some [.regWrite 0 2 0x00004890] := by decide

/-- 47_dispatch_and_text.md R278: exactly `s` fraction digits. -/
theorem test_text_of_minus_five_hundredths : toDecimalText 2 (-5) = "-0.05".toList := by decide

/-- 47_dispatch_and_text.md R278 with a target scale; a scale above 18 is SCALE_RANGE (45_scaling.md R236, Errors). -/
theorem test_text_at_target_scale :
    toDecimalTextAt { scale := 2, mode := .halfUp, ovf := .checked } 1 125 = .ok "1.3".toList ∧
    toDecimalTextAt { scale := 2, mode := .halfUp, ovf := .checked } 19 125 = .error (.invalidDomain .scaleRange) ∧
    toDecimalTextAt { scale := 19, mode := .halfUp, ovf := .checked } 2 125 = .error (.invalidDomain .scaleRange) := by
  decide

/-! ## States and operands that meet the hypotheses of the obligations -/

/-- A selector of scale 2. -/
def scale2 : Selector := { scale := 2, mode := .halfUp, ovf := .checked }

/-- A selector of scale 0. -/
def scale0 : Selector := { scale := 0, mode := .up, ovf := .unchecked }

/-- A selector of scale 18, the last legal one. -/
def scale18 : Selector := { scale := 18, mode := .down, ovf := .checked }

theorem test_hyp_DecodeOfEncode :
    (Instr.div scale2).wf = true ∧ (Instr.fromunsc scale18 18).wf = true ∧ (Instr.metric scale0 .dblMax).wf = true := by decide

theorem test_hyp_EncodeOfDecode :
    decode 0x0000608A = .ok (.div scale2) ∧ decode 0x0 = .ok (.nop scale0) := by decide

theorem test_hyp_WordChecksInOrder :
    (0x00100000#32).toNat / 2 ^ 20 ≠ 0 ∧ 0x18 ≤ (0x18#32).toNat % 2 ^ 6 ∧ 19 ≤ (0x4C1#32).toNat / 2 ^ 6 % 2 ^ 5 ∧
    ((0x98012#32).toNat % 2 ^ 6 = 0x12 ∧ 19 ≤ (0x98012#32).toNat / 2 ^ 15 % 2 ^ 5) ∧
    ((0x40017#32).toNat % 2 ^ 6 = 0x17 ∧ 8 ≤ (0x40017#32).toNat / 2 ^ 15 % 2 ^ 5) ∧
    (0x8001#32).toNat / 2 ^ 15 % 2 ^ 5 ≠ 0 ∧
    engine 0x00100000 1 2 = .err (.illegalCommand .reservedBits) ∧
    engine 0x18 1 2 = .err (.illegalCommand .reservedOpcode) ∧ engine 0x4C1 1 2 = .err (.invalidDomain .scaleRange) ∧
    engine 0x98012 1 2 = .err (.invalidDomain .scaleRange) ∧ engine 0x40017 1 2 = .err (.illegalCommand .reservedAux) ∧
    engine 0x8001 1 2 = .err (.illegalCommand .reservedAux) ∧ engine 0x7801 1 2 = .ok 3 := by decide

theorem test_hyp_StepRunsDecodedCommand :
    ((atPort 100 300).withFetchWord 32 0x608A).host = .regWrite 0 2 0x608A :: [] ∧ Config.hasPort 0 = true ∧
    (0x608A#64).toNat < 2 ^ 32 ∧ decode ((0x608A#64).setWidth 32) = .ok (.div scale2) := by decide

theorem test_hyp_CommandWriteLeavesEngineOutcome :
    ((atPort 1 2).withFetchWord 32 0x8001).host = .regWrite 0 2 0x8001 :: [] ∧ Config.hasPort 0 = true ∧
    (0x8001#64).toNat < 2 ^ 32 ∧ (0xFFFFFFFF#64).toNat < 2 ^ 32 := by decide

theorem test_hyp_RegisterWriteFollowsRule :
    ({ atPort 1 2 with host := [.regWrite 0 2 0x100000000] } : State).host = .regWrite 0 2 0x100000000 :: [] ∧
    ({ atPort 1 2 with host := [.regWrite 0 7 5] } : State).host = .regWrite 0 7 5 :: [] ∧
    ({ atPort 1 2 with host := [.writeReply 0 1], reply := .value 500 } : State).host = .writeReply 0 1 :: [] ∧
    ({ atPort 1 2 with host := [.writeReply 0 1], reply := .value 500 } : State).reply = .value 500 ∧
    2 ^ 32 ≤ (0x100000000#64).toNat ∧ ¬ 2 ^ 32 ≤ (0xFFFFFFFF#64).toNat ∧ Config.hasPort 0 = true := by decide

theorem test_hyp_RegisterReadFollowsRule :
    ({ atPort 1 2 with host := [.regRead 0 7] } : State).host = .regRead 0 7 :: [] ∧ Config.hasPort 0 = true := by decide

theorem test_hyp_BusSlotIsRegister :
    Config.hasPort 0 = true ∧ ((8 : Nat) = 8 ∨ (8 : Nat) = 4 ∧ ((7 : Fin 8) = 2 ∨ (7 : Fin 8) = 4)) ∧
    ((4 : Nat) = 8 ∨ (4 : Nat) = 4 ∧ ((2 : Fin 8) = 2 ∨ (2 : Fin 8) = 4)) ∧
    ([0x8A, 0x60, 0, 0] : List Byte).length = 4 ∧ (0x608A#64).toNat < 2 ^ 32 := by decide

theorem test_hyp_BusSlotIsRegister_bytes : littleEndian [0x8A, 0x60, 0, 0] 0x608A := by
  unfold littleEndian; decide

/-- A byte access, a misaligned one, a 32-bit one at `OPA` and one at the block after the last port's are none of the
accepted accesses (20_memory.md R58). -/
theorem test_hyp_OtherBusAccessesRefused :
    ∀ x ∈ [(Config.base, 1), (Config.base + 1, 8), (Config.base, 4), (Config.base + Config.nports * Config.stride, 8)],
      (∀ p i, Config.hasPort p = true → i < 8 → ¬ (x.2 = 8 ∧ x.1 = Config.base + p * Config.stride + 8 * i)) ∧
      (∀ p, Config.hasPort p = true →
        ¬ (x.2 = 4 ∧ (x.1 = Config.base + p * Config.stride + 16 ∨ x.1 = Config.base + p * Config.stride + 32))) := by
  have mul8 : ∀ p, ∃ q, p * Config.stride = 8 * q := fun p =>
    ⟨p * (8 * (Config.extraStride + 1)), by simp only [Config.stride]; ring⟩
  intro x hx
  simp only [List.mem_cons, List.not_mem_nil, or_false] at hx
  rcases hx with rfl | rfl | rfl | rfl
  · exact ⟨fun p i _ _ h => by simp at h, fun p _ h => by simp at h⟩
  · refine ⟨fun p i _ _ h => ?_, fun p _ h => by simp at h⟩
    obtain ⟨q, hq⟩ := mul8 p
    have := h.2
    omega
  · exact ⟨fun p i _ _ h => by simp at h, fun p _ h => by omega⟩
  · refine ⟨fun p i hp hi h => ?_, fun p _ h => by simp at h⟩
    have hle := Nat.mul_le_mul_right Config.stride (Nat.succ_le_of_lt ((hasPort_iff p).1 hp))
    have hs : 64 ≤ Config.stride := by simp only [Config.stride]; omega
    have := h.2
    rw [Nat.succ_mul] at hle
    omega

theorem test_bus_access_after_last_port_refused :
    busSlot (Config.base + Config.nports * Config.stride) 8 = none := by
  cases h : busSlot (Config.base + Config.nports * Config.stride) 8 with
  | none => rfl
  | some x =>
    obtain ⟨hp, ha, -⟩ := busSlot_some (p := x.1) (i := x.2) h
    exact (test_hyp_OtherBusAccessesRefused (Config.base + Config.nports * Config.stride, 8) (by simp)).1 x.1 x.2.val hp
      x.2.isLt ⟨rfl, ha⟩ |>.elim

theorem test_hyp_ResetClearsCommandAndStatus :
    State.reset.IsReset ∧ Config.hasPort 0 = true ∧ (2 : Fin 8) ∈ [2, 4, 5, 6, 7] ∧ (7 : Fin 8) ∈ [2, 4, 5, 6, 7] :=
  ⟨fun _ _ => ⟨0, 0, 0, rfl⟩, rfl, by decide, by decide⟩

/-- A state of the invariant beside the reset one: port 0 is listed, its `STATUS` a word of 60_exceptions.md R303. -/
def listedPort : State := State.reset.setPort 0 { opa := 1, opb := 0, cmd := 0, res := 0, status := 0x36 }

theorem test_hyp_StepKeepsInvariant :
    listedPort.Inv ∧ ∃ t, step (listedPort.withFetchWord 32 0x608A) = .next t := by
  refine ⟨⟨by decide, by decide, fun p => ?_⟩, _, rfl⟩
  rw [listedPort, State.port_setPort]
  split
  · decide
  · exact List.mem_cons_self

theorem test_hyp_StepChangesOnePort :
    (∃ t, step ((atPort 100 300).withFetchWord 32 0x608A) = .next t) ∧
    ((atPort 100 300).withFetchWord 32 0x608A).host = .regWrite 0 2 0x608A :: [] ∧
    (∃ t, step (atPort 1 2) = .next t) ∧ (atPort 1 2).host = [] :=
  ⟨⟨_, rfl⟩, rfl, ⟨_, rfl⟩, rfl⟩

theorem test_hyp_InterleavingKeepsPortValues :
    (∀ x ∈ [Access.regWrite 0 0 7, .regWrite 0 2 0x4890, .regRead 0 3], x.feedsBack = false) ∧
    ∃ t, performAll [.regWrite 0 0 7, .regWrite 0 2 0x4890, .regRead 0 3] State.reset = .next t :=
  ⟨by decide, _, rfl⟩

/-- The statement's answers are the reads' own: `RES` after FROMLONG of 7 at scale 2 (45_scaling.md R233). -/
theorem test_port_answers :
    portAnswers 0 [.regWrite 0 0 7, .regWrite 0 2 0x4890, .regRead 0 3] State.reset = [.value 700] := by decide

theorem test_hyp_RepeatedCommandIsHarmless :
    ∃ t, performAccess (.regWrite 0 2 0x608A) (atPort 100 300) = .next t := ⟨_, rfl⟩

theorem test_hyp_CommandFrame : ∃ t, exec (.div scale2) (atPort 100 0) = .next t ∧ t.cur.status ≠ 0 :=
  ⟨_, rfl, by decide⟩

theorem test_hyp_OutcomeDependsOnOperandsOnly :
    (atPort 100 300).cur.opa = (State.reset.setPort 0 { opa := 100, opb := 300, cmd := 1, res := 2, status := 0 }).cur.opa ∧
    ∃ t, exec (.div scale2) (atPort 100 300) = .next t ∧ t.cur.status = 0 :=
  ⟨by decide, _, rfl, by decide⟩

theorem test_hyp_RoundingIsClosedForm : (-3 : Int) ≠ 0 := by decide

theorem test_hyp_RoundingProperties :
    (2 : Int) ≠ 0 ∧ (6 : Int) = 3 * 2 ∧ rnd .halfEven 7 2 = .ok 4 ∧ rnd .up 7 2 = .ok 4 ∧ rnd .down 7 2 = .ok 3 ∧
    rnd .ceiling 7 2 = .ok 4 ∧ rnd .floor 7 2 = .ok 3 := by decide

theorem test_hyp_PowerOfTwoClass : (1 : Nat) ≤ 1 := by decide

theorem test_hyp_OverflowLaw :
    (MIN ≤ MAX ∧ MAX ≤ MAX) ∧ ¬ (MIN ≤ MAX + 1 ∧ MAX + 1 ≤ MAX) ∧ ¬ (MIN ≤ MIN - 1 ∧ MIN - 1 ≤ MAX) := by decide

theorem test_hyp_AverageRoundsMean : rnd .halfEven ((atPort 3 4).opA + (atPort 3 4).opB) 2 = .ok 4 := by decide

theorem test_hyp_ShiftLeftMultiplies_ShiftRightDivides :
    0 ≤ (atPort 5 0).opN ∧ (atPort 5 (-1)).opN < 0 ∧ (atPort 5 MIN).opN < 0 ∧ 0 ≤ (atPort 5 MAX).opN := by decide

theorem test_hyp_SquareRoundsExactSquare : (atPort (-150) (-150)).cur.opb = (atPort (-150) (-150)).cur.opa := by decide

theorem test_hyp_DivideRoundsExactQuotient : (atPort 0 0).opB = 0 ∧ (atPort 1 (-1)).opB ≠ 0 := by decide

theorem test_hyp_InvertRoundsExactInverse : (atPort 0 5).opA = 0 ∧ (atPort MIN 5).opA ≠ 0 := by decide

theorem test_hyp_DivisionIdentities :
    scale18.wf = true ∧ (atPort MIN MIN).opB ≠ 0 ∧ (atPort MIN MIN).opA = (atPort MIN MIN).opB ∧
    (atPort 7 (10 ^ 18)).opB = 10 ^ scale18.scale.toNat ∧ (atPort 0 7).opB ≠ 0 ∧ (atPort 0 7).opA = 0 ∧
    (atPort 0 0).opB = 0 := by decide

theorem test_hyp_MultiplierMeetsContract_DividerMeetsContract_TextRoundTrip : scale18.wf = true ∧ scale2.wf = true ∧ scale0.wf = true := by decide

theorem test_hyp_WideDivisionDivides :
    2 ^ 64 - 1 < 2 ^ 64 ∧ 1 ≤ 2 ^ 63 ∧ 2 ^ 63 ≤ 2 ^ 63 ∧
    divWide (2 ^ 64 - 1) (2 ^ 64 - 1) (2 ^ 63) = ((2 ^ 128 - 1) / 2 ^ 63, (2 ^ 128 - 1) % 2 ^ 63) := by decide

theorem test_hyp_SquareRootRoundsRoot : (atPort (-1) 0).opA < 0 ∧ 0 ≤ (atPort 0 0).opA := by decide

theorem test_hyp_PowerStepsInOrder :
    999999999 < |(atPort 5 1000000000).opN| ∧ 999999999 < |(atPort 5 MIN).opN| ∧ (atPort 0 0).opN = 0 ∧
    (0 < (atPort 0 999999999).opN ∧ (atPort 0 999999999).opN ≤ 999999999 ∧ (atPort 0 999999999).opA = 0) ∧
    ((atPort 0 (-999999999)).opN < 0 ∧ -999999999 ≤ (atPort 0 (-999999999)).opN) ∧
    (scale2.scale ≠ 0 ∧ (atPort 0 1).opN = 1) ∧ ((atPort MIN (-1)).opA ≠ 0 ∧ (atPort MIN (-1)).opN = -1) ∧
    (atPort 0 2).opN = 2 := by decide

theorem test_hyp_IntegerPowerIsExact :
    scale0.scale = 0 ∧ 1 ≤ (atPort (-2) 63).opN ∧ (atPort (-2) 63).opN ≤ 999999999 ∧
    (atPort 3 999999999).opN ≤ 999999999 := by decide

theorem test_hyp_IntegerPowerInverts :
    scale0.scale = 0 ∧ (atPort 2 (-64)).opN < 0 ∧ -999999999 ≤ (atPort 2 (-64)).opN ∧ (atPort 2 (-64)).opA ≠ 0 := by decide

theorem test_hyp_PowerClosedForms : (-2 : Int) ≤ -2 ∧ (2 : Int) ≤ 2 ∧ (1 : Nat) ≤ 63 := by decide

theorem test_hyp_NormalisedBase : 1 ≤ (1 : Nat) ∧ (norm36 1 18).wf = true := by decide

theorem test_hyp_Digit36OperationsTruncate :
    Num36.one.wf = true ∧ ({ mant := 2 * 10 ^ 35 - 1, exp := -3 } : Num36).wf = true := by decide

theorem test_hyp_PowerErrorBound : 1 ≤ (1 : Nat) ∧ 1 ≤ (9223372036854775808 : Nat) := by decide

theorem test_hyp_ExtremeExponentsMeetFormula :
    ((-1 : Int) = 1 ∨ (-1 : Int) = -1) ∧ ({ mant := 10 ^ 35, exp := -62 } : Num36).wf = true ∧ 18 ≤ 18 := by decide

theorem test_hyp_PowerRoundsAccumulator :
    scale2.wf = true ∧ scale2.scale ≠ 0 ∧ (atPort (-150) 3).opA ≠ 0 ∧ |(atPort (-150) 3).opN| ≤ 999999999 ∧
    (atPort (-150) 3).opN ≠ 0 ∧ (atPort (-150) 3).opN ≠ 1 ∧ (atPort (-150) 3).opN ≠ -1 ∧ (atPort (-150) 3).opN ≠ 2 ∧
    |(atPort 150 (-999999999)).opN| ≤ 999999999 := by decide

theorem test_hyp_PowerOfTenScaling :
    0 ≤ (atPort 5 0).opN ∧ (atPort 5 (-1)).opN < 0 ∧ 0 < (atPort 5 1).opN ∧ (atPort 5 MIN).opN ≤ 0 := by decide

theorem test_hyp_ScaleRoundTrip :
    scale2.scale = scale2.scale ∧ MIN ≤ 1235 ∧ 1235 ≤ MAX ∧ computeTounsc scale2 3 1235 = .ok 12350 ∧
    ((12350 : Int) : ℚ) = ((1235 : Int) : ℚ) * 10 ^ (3#5).toNat / 10 ^ scale2.scale.toNat ∧
    computeFromlong scale2 5 = .ok 500 ∧ (500 : Int) = 5 * 10 ^ scale2.scale.toNat := by
  refine ⟨rfl, by decide, by decide, by decide, ?_, by decide, by decide⟩
  rw [show (3#5).toNat = 3 from rfl, show scale2.scale.toNat = 2 from rfl]; norm_num

theorem test_hyp_FromDoubleRoundsValue :
    (atPort 0x7FF0000000000000 0).cur.opa.toNat / 2 ^ 52 % 2 ^ 11 = 2047 ∧
    (atPort 0x3FE0000000000000 0).cur.opa.toNat / 2 ^ 52 % 2 ^ 11 ≠ 2047 := by decide

theorem test_hyp_ToDoubleIsNearest :
    (atPort 0 0).opA = 0 ∧ (atPort (-150) 0).opA ≠ 0 ∧
    decodeDouble 0x4340000000000001 = .ok { sign := 1, sig := 2 ^ 52 + 1, exp2 := 1 } := by decide

/-- 46_double_conversion.md R257 at a binade boundary: `2^55 − 3` goes to `2^55 − 4`, not to `2^55`. -/
theorem test_todbl_below_binade :
    decodeDouble (toBinary64 (2 ^ 55 - 3) 1) = .ok { sign := 1, sig := 2 ^ 53 - 1, exp2 := 2 } := by decide

theorem test_hyp_DoubleRoundTrip :
    scale0.wf = true ∧ scale0.scale = 0 ∧ |(2 ^ 53 : Int)| ≤ 2 ^ 53 ∧ scale2.mode = .halfUp ∧
    |(-(2 ^ 52 - 1) : Int)| < 2 ^ 52 := by decide

theorem test_hyp_IntegerPartBounds : 18 ≤ 18 ∧ lut 18 .maxInt = 9 ∧ lut 18 .minInt = -9 := by decide

end Sys2Proof.Tests
end

section
/-! SUPPORT. The register accesses of spec/20_memory.md R52 to R54: what a `RegWrite` leaves in its port, said once as
`Port.written`, and the statements of the family 20_memory.md (O6, O7, O8). -/

namespace Sys2Proof.Machine

/-- The port a `RegWrite(P, i, v)` leaves where `q` was: the operands take the value, `CMD` the low word, which is executed
unless a bit above it is set, and the other indices ignore the write (20_memory.md R53). `writeReg_cur` ties it to the
model. -/
def Port.written (q : Port) (i : Fin 8) (v : Word) : Port :=
  match i with
  | 0 => { q with opa := v }
  | 1 => { q with opb := v }
  | 2 => if 2 ^ 32 ≤ v.toNat then { q with cmd := v.setWidth 32, status := 0x16 } else q.executed (v.setWidth 32)
  | 3 | 4 | 5 | 6 | 7 => q

theorem Port.written_cmd {v : Word} (h : v.toNat < 2 ^ 32) (q : Port) : q.written 2 v = q.executed (v.setWidth 32) :=
  if_neg (Nat.not_le.mpr h)

theorem Port.written_eq (q : Port) (i : Fin 8) (v : Word) :
    q.written i v =
      if i = 0 then { q with opa := v }
      else if i = 1 then { q with opb := v }
      else if i = 2 then
        (if 2 ^ 32 ≤ v.toNat then { q with cmd := v.setWidth 32, status := 0x16 } else q.executed (v.setWidth 32))
      else q := by
  fin_cases i <;> rfl

theorem Port.read_eq (q : Port) (i : Fin 8) :
    q.read i =
      if i = 0 then q.opa
      else if i = 1 then q.opb
      else if i = 2 then BitVec.ofNat 64 q.cmd.toNat
      else if i = 3 then q.res
      else if i = 4 then BitVec.ofNat 64 q.status.toNat
      else 0 := by
  simp only [BitVec.ofNat_toNat]
  fin_cases i <;> rfl

/-- Storing a command word and ending with its outcome is `Execute(P)` on the addressed port (20_memory.md R54). -/
theorem cur_finish_engine (w : CmdWord) (s : State) :
    (finish (engine w s.cur.opa s.cur.opb) (s.setCur { s.cur with cmd := w })).cur = s.cur.executed w := by
  rw [State.cur, finish_active, port_finish, if_pos rfl, State.cur_setCur, Port.executed]
  cases engine w s.cur.opa s.cur.opb <;> rfl

/-- A write of `CMD` leaves RESERVED_BITS or the command's outcome in the addressed port (20_memory.md R53). -/
theorem writeCmd_cur {v : Word} {s t : State} (h : writeCmd v s = .next t) : t.cur = s.cur.written 2 v := by
  rcases writeCmd_cases v s with ⟨hv, hw⟩ | ⟨hv, hw⟩ <;> obtain rfl := Host.Outcome.next.inj (hw.symm.trans h)
  · have hwide : 2 ^ 32 ≤ v.toNat := by omega
    rw [State.cur_withStatus, State.cur_setCur]
    exact (if_pos hwide).symm
  · have hnarrow : v.toNat < 2 ^ 32 := by omega
    rw [cur_finish_engine, Port.written_cmd hnarrow]

/-- What a register write leaves in the addressed port (20_memory.md R53). -/
theorem writeReg_cur {i : Fin 8} {v : Word} {s t : State} (h : writeReg i v s = .next t) :
    t.cur = s.cur.written i v := by
  match i with
  | 0 | 1 => cases h; exact State.cur_setCur ..
  | 2 => exact writeCmd_cur h
  | 3 | 4 | 5 | 6 | 7 => cases h; rfl

/-- Everything a `RegWrite` of an existing port does (20_memory.md R53). -/
theorem regWrite_present {p : Nat} (hp : Config.hasPort p = true) (i : Fin 8) (v : Word) (s : State) :
    ∃ t, regWrite p i v s = .next t ∧ t.port p = (s.port p).written i v ∧
      (∀ q, q ≠ p → t.port q = s.port q) ∧ t.host = s.host ∧ t.reply = s.reply := by
  obtain ⟨t, ht, hactive, hhost, hreply, hframe⟩ := writeReg_next i v { s with active := p }
  have hport : t.port p = (s.port p).written i v := by
    have hcur := writeReg_cur ht
    rwa [State.cur, hactive] at hcur
  exact ⟨t, (onPort_present hp s _).trans ht, hport, hframe, hhost, hreply⟩

/-- Everything a `RegRead` of an existing port does (20_memory.md R52). -/
theorem regRead_present {p : Nat} (hp : Config.hasPort p = true) (i : Fin 8) (s : State) :
    regRead p i s = .next { s with active := p, reply := .value ((s.port p).read i) } :=
  onPort_present hp s _

/-- The second half of MOVR is the `RegWrite` of the value the host last read (30_encoding.md R82). -/
theorem performAccess_writeReply {s : State} {v : Word} (h : s.reply.value? = some v) (p : Nat) (i : Fin 8) :
    performAccess (.writeReply p i) s = regWrite p i v s := by
  simp [performAccess, h]

end Sys2Proof.Machine

section
open Sys2Proof Sys2Proof.Machine

/-- Settles O6: the write is narrow, so it leaves `Port.executed`, which is the outcome of `engine` case by case. -/
theorem commandWriteLeavesEngineOutcome : Obligations.CommandWriteLeavesEngineOutcome := by
  intro s p v rest hhost hp hv
  obtain ⟨t, ht, hport, hframe⟩ := regWrite_present hp 2 v { s with host := rest }
  refine ⟨t, (step_cons hhost).trans ht, ?_, hframe⟩
  rw [hport, Port.written_cmd hv, State.setHost_port, Port.executed]
  cases engine (v.setWidth 32) (s.port p).opa (s.port p).opb <;> rfl

/-- Settles O7: both accesses are the same `RegWrite`, which leaves `Port.written`. -/
theorem registerWriteFollowsRule : Obligations.RegisterWriteFollowsRule := by
  intro s p i v x rest hhost hx hp
  have hwrite : performAccess x { s with host := rest } = regWrite p i v { s with host := rest } := by
    rcases hx with rfl | ⟨rfl, hreply⟩
    · rfl
    · exact performAccess_writeReply (by rw [hreply]; rfl) p i
  obtain ⟨t, ht, hport, hframe⟩ := regWrite_present hp i v { s with host := rest }
  exact ⟨t, (step_cons hhost).trans (hwrite.trans ht), hport.trans (Port.written_eq ..), hframe⟩

/-- Settles O8: a `RegRead` changes the model's own fields only, and `Port.read` is the value it answers. -/
theorem registerReadFollowsRule : Obligations.RegisterReadFollowsRule := by
  intro s p i rest hhost hp
  refine ⟨_, (step_cons hhost).trans (regRead_present hp i _), fun _ => rfl, rfl, ?_⟩
  exact congrArg Reply.value (Port.read_eq (s.port p) i)

end
end

section
/-! SUPPORT. The checks 1 to 4 of spec/30_encoding.md R78: the fields of a word as the numbers of R70, the form of every
opcode, what `decode` answers once each check is reached, and the statement of the family 30_encoding.md (O3). -/

namespace Sys2Proof

/-! ### The fields of a word -/

theorem zeroField_eq (w : CmdWord) : zeroField w = w.toNat / 2 ^ 20 :=
  Nat.mod_eq_of_lt (Nat.div_lt_of_lt_mul w.isLt)

theorem opField_eq (w : CmdWord) : opField w = w.toNat % 2 ^ 6 := by
  rw [opField, bits, pow_zero, Nat.div_one]

theorem toNat_scaleField (w : CmdWord) : (scaleField w).toNat = w.toNat / 2 ^ 6 % 2 ^ 5 :=
  Nat.mod_mod ..

theorem toNat_auxField (w : CmdWord) : (auxField w).toNat = w.toNat / 2 ^ 15 % 2 ^ 5 :=
  Nat.mod_mod ..

theorem legalScale_iff (s : BitVec 5) : legalScale s = true ↔ s.toNat < 19 := by
  rw [legalScale, decide_eq_true_eq, Config.scaleMax, Nat.lt_succ_iff]

/-! ### The opcode map -/

theorem formOf_reserved {op : Nat} (h : 0x18 ≤ op) : formOf op = none := by
  unfold formOf
  split
  case h_25 => rfl
  all_goals omega

/-- FROMUNSC and TOUNSC are the commands whose aux field is a scale (R74). -/
theorem formOf_scaled {op : Nat} (h : op = 0x12 ∨ op = 0x13) :
    ∃ c, formOf op = some (.scaled c) ∧ ∀ sel aux, (c sel aux).opcode = op := by
  rcases h with rfl | rfl
  · exact ⟨.fromunsc, rfl, fun _ _ => rfl⟩
  · exact ⟨.tounsc, rfl, fun _ _ => rfl⟩

theorem formOf_metric {op : Nat} (h : op = 0x17) : formOf op = some (.lut .metric) := by
  rw [h]; rfl

/-- The commands without a use for the aux field (R74). -/
theorem formOf_plain {op : Nat} (hop : op < 0x18) (hscaled : ¬ (op = 0x12 ∨ op = 0x13)) (hmetric : op ≠ 0x17) :
    ∃ c, formOf op = some (.plain c) ∧ ∀ sel, (c sel).opcode = op := by
  unfold formOf
  split
  case h_19 | h_20 | h_24 => omega
  case h_25 => grind
  all_goals exact ⟨_, rfl, fun _ => rfl⟩

/-- Some form stands for every opcode below the reserved ones (R76). -/
theorem formOf_defined {op : Nat} (hop : op < 0x18) : ∃ f, formOf op = some f := by
  unfold formOf
  split
  case h_25 => grind
  all_goals exact ⟨_, rfl⟩

theorem Metric.ofCode_eq_none {n : Nat} (h : 8 ≤ n) : Metric.ofCode n = none := by
  unfold Metric.ofCode
  split
  case h_9 => rfl
  all_goals omega

theorem Metric.ofCode_eq_some {n : Nat} (h : n < 8) : ∃ k, Metric.ofCode n = some k := by
  unfold Metric.ofCode
  split
  case h_9 => grind
  all_goals exact ⟨_, rfl⟩

/-! ### The checks in their order -/

theorem decode_reservedBits {w : CmdWord} (h : zeroField w ≠ 0) : decode w = .error .reservedBits :=
  if_pos h

theorem decode_reservedOpcode {w : CmdWord} (hzero : zeroField w = 0) (hform : formOf (opField w) = none) :
    decode w = .error .reservedOpcode := by
  rw [decode, if_neg (not_not.mpr hzero), hform]

theorem decode_scaleRange {w : CmdWord} {f : CommandForm} (hzero : zeroField w = 0)
    (hform : formOf (opField w) = some f) (hscale : ¬ legalScale (scaleField w) = true) :
    decode w = .error .scaleRange := by
  rw [decode, if_neg (not_not.mpr hzero), hform]
  exact if_neg hscale

/-- A word that passes the checks 1 to 3 is left to check 4. -/
theorem decode_eq_build {w : CmdWord} {f : CommandForm} (hzero : zeroField w = 0)
    (hform : formOf (opField w) = some f) (hscale : legalScale (scaleField w) = true) :
    decode w = f.build (Selector.ofWord w) (auxField w) := by
  rw [decode, if_neg (not_not.mpr hzero), hform]
  exact if_pos hscale

/-! ### Check 4 -/

theorem build_plain_reserved (c : Selector → Instr) (sel : Selector) {aux : BitVec 5} (h : aux.toNat ≠ 0) :
    (CommandForm.plain c).build sel aux = .error .reservedAux :=
  if_neg fun haux => h (congrArg BitVec.toNat haux)

theorem build_scaled_illegal (c : Selector → BitVec 5 → Instr) (sel : Selector) {aux : BitVec 5} (h : 19 ≤ aux.toNat) :
    (CommandForm.scaled c).build sel aux = .error .scaleRange :=
  if_neg fun haux => absurd ((legalScale_iff aux).mp haux) (Nat.not_lt.mpr h)

theorem build_lut_reserved (c : Selector → Metric → Instr) (sel : Selector) {aux : BitVec 5} (h : 8 ≤ aux.toNat) :
    (CommandForm.lut c).build sel aux = .error .reservedAux := by
  rw [CommandForm.build, Metric.ofCode_eq_none h]

theorem build_plain_zero (c : Selector → Instr) (sel : Selector) {aux : BitVec 5} (h : aux.toNat = 0) :
    (CommandForm.plain c).build sel aux = .ok (c sel) :=
  if_pos (BitVec.eq_of_toNat_eq h)

theorem build_scaled_legal (c : Selector → BitVec 5 → Instr) (sel : Selector) {aux : BitVec 5} (h : aux.toNat < 19) :
    (CommandForm.scaled c).build sel aux = .ok (c sel aux) :=
  if_pos ((legalScale_iff aux).mpr h)

theorem build_lut_legal (c : Selector → Metric → Instr) (sel : Selector) {aux : BitVec 5} (h : aux.toNat < 8) :
    ∃ k, (CommandForm.lut c).build sel aux = .ok (c sel k) := by
  obtain ⟨k, hk⟩ := Metric.ofCode_eq_some h
  exact ⟨k, by rw [CommandForm.build, hk]⟩

/-- An opcode and an aux field that pass check 4 make a command of that opcode. -/
theorem build_of_legal_aux {op : Nat} {aux : BitVec 5} (sel : Selector) (hop : op < 0x18)
    (hscaled : op = 0x12 ∨ op = 0x13 → aux.toNat < 19) (hmetric : op = 0x17 → aux.toNat < 8)
    (hplain : ¬ (op = 0x12 ∨ op = 0x13) → op ≠ 0x17 → aux.toNat = 0) :
    ∃ f i, formOf op = some f ∧ f.build sel aux = .ok i ∧ i.opcode = op := by
  by_cases h : op = 0x12 ∨ op = 0x13
  · obtain ⟨c, hform, hopcode⟩ := formOf_scaled h
    exact ⟨_, _, hform, build_scaled_legal c sel (hscaled h), hopcode sel aux⟩
  by_cases hlut : op = 0x17
  · obtain ⟨k, hk⟩ := build_lut_legal .metric sel (hmetric hlut)
    exact ⟨_, _, formOf_metric hlut, hk, hlut.symm⟩
  · obtain ⟨c, hform, hopcode⟩ := formOf_plain hop h hlut
    exact ⟨_, _, hform, build_plain_zero c sel (hplain h hlut), hopcode sel⟩

end Sys2Proof

namespace Sys2Proof.Machine

theorem engine_error {w : CmdWord} {e : DecodeError} (h : decode w = .error e) (a b : Word) :
    engine w a b = .err (CmdError.ofDecode e) := by
  rw [engine, h]

theorem engine_ok {w : CmdWord} {i : Instr} (h : decode w = .ok i) (a b : Word) :
    engine w a b = commandResult i a b := by
  rw [engine, h]

end Sys2Proof.Machine

section
open Sys2Proof Sys2Proof.Machine

/-- Settles O3: one branch per check of R78, in its order; each names the error `decode` gives there. -/
theorem wordChecksInOrder : Obligations.WordChecksInOrder := by
  intro w a b
  simp only [← zeroField_eq, ← opField_eq, ← toNat_scaleField, ← toNat_auxField]
  split_ifs with hzero hreserved hrange hscaled hmetric hplain
  · exact ⟨engine_error (decode_reservedBits hzero) a b, by decide⟩
  all_goals rw [not_not] at hzero
  · exact ⟨engine_error (decode_reservedOpcode hzero (formOf_reserved hreserved)) a b, by decide⟩
  all_goals rw [Nat.not_le] at hreserved
  · obtain ⟨f, hform⟩ := formOf_defined hreserved
    have hillegal := mt (legalScale_iff _).mp (Nat.not_lt.mpr hrange)
    exact ⟨engine_error (decode_scaleRange hzero hform hillegal) a b, by decide⟩
  all_goals
    have hbuild {f} (hform : formOf (opField w) = some f) : decode w = f.build (Selector.ofWord w) (auxField w) :=
      decode_eq_build hzero hform ((legalScale_iff _).mpr (Nat.not_le.mp hrange))
  · obtain ⟨c, hform, -⟩ := formOf_scaled hscaled.1
    exact engine_error ((hbuild hform).trans (build_scaled_illegal c _ hscaled.2)) a b
  · have hform := formOf_metric hmetric.1
    exact ⟨engine_error ((hbuild hform).trans (build_lut_reserved .metric _ hmetric.2)) a b, by decide⟩
  · obtain ⟨hfromunsc, htounsc, hnotMetric, hnonzero⟩ := hplain
    obtain ⟨c, hform, -⟩ := formOf_plain hreserved (not_or.mpr ⟨hfromunsc, htounsc⟩) hnotMetric
    exact engine_error ((hbuild hform).trans (build_plain_reserved c _ hnonzero)) a b
  · obtain ⟨f, i, hform, hi, hopcode⟩ :=
      build_of_legal_aux (aux := auxField w) (Selector.ofWord w) hreserved (by omega) (by omega) (by omega)
    have hdecode := (hbuild hform).trans hi
    exact ⟨i, hdecode, hopcode, engine_ok hdecode a b⟩

end
end

section
/-! SUPPORT. The metrics LUT by its definitions, truncation by the mode DOWN, and the two parts of a value split by the scale
factor (spec/40_scale_metrics.md R100, R101, R105), with the statements of that family (O57, O59). -/

namespace Sys2Proof.Machine

/-! ### Truncating division and the metrics LUT -/

theorem romSF_eq (s : Nat) : romSF s = 10 ^ s := Nat.cast_pow ..

theorem selSF_eq (sel : Selector) : selSF sel = 10 ^ sel.scale.toNat := Nat.cast_pow ..

theorem quot_of_nonneg {a : Int} (h : 0 ≤ a) (d : Int) : quot a d = a / d := Int.tdiv_eq_ediv_of_nonneg h

theorem quot_neg (a d : Int) : quot (-a) d = -quot a d := Int.neg_tdiv ..

theorem rem_neg (a d : Int) : rem (-a) d = -rem a d := Int.neg_tmod ..

theorem lut_maxInt (s : Nat) : lut s .maxInt = MAX / 10 ^ s := by
  rw [lut, romSF_eq, quot_of_nonneg (by decide)]

/-- Truncation of the negative bound is toward zero, so it is minus the floor of its magnitude (00_scope.md R12). -/
theorem lut_minInt (s : Nat) : lut s .minInt = -(-MIN / 10 ^ s) := by
  rw [lut, romSF_eq, ← quot_of_nonneg (by decide), quot_neg, neg_neg]

theorem lut_halfSf (s : Nat) : lut s .halfSf = 10 ^ s / 2 := by
  rw [lut, romSF_eq, quot_of_nonneg (by positivity)]

theorem lut_sqrtSf (s : Nat) : lut s .sqrtSf = Nat.sqrt (10 ^ s) := congrArg Nat.cast (isqrt_eq_sqrt _)

theorem lut_sfBits (s : Nat) : lut s .sfBits = Nat.size (10 ^ s) := congrArg Nat.cast (bitlen_eq_size _)

theorem exec_metric (sel : Selector) (k : Metric) (s : State) :
    exec (.metric sel k) s = .next (s.withResult (lut sel.scale.toNat k)) := conclude_ok ..

/-! ### The mode DOWN and the two parts -/

/-- DOWN discards every part (41_rounding.md R124). -/
theorem increment_down (sign : Int) (odd : Bool) (p : TruncatedPart) : increment .down sign odd p = .ok 0 := by
  cases p <;> rfl

/-- The truncated value the rounding engine starts from is the quotient toward zero (41_rounding.md R125). -/
theorem ratioSign_mul_natAbs_div (num : Int) {den : Int} (h : 0 < den) :
    ratioSign num den * (num.natAbs / den.natAbs : Nat) = quot num den := by
  obtain ⟨d, rfl⟩ := Int.eq_ofNat_of_zero_le h.le
  unfold ratioSign
  rw [if_neg h.not_gt]
  split
  · next hneg =>
    obtain ⟨m, rfl⟩ := Int.exists_eq_neg_ofNat hneg.le
    rw [quot_neg, neg_one_mul, Int.natAbs_neg]
    rfl
  · next hnonneg =>
    obtain ⟨m, rfl⟩ := Int.eq_ofNat_of_zero_le (not_lt.mp hnonneg)
    exact one_mul _

theorem rnd_down (num : Int) {den : Int} (h : 0 < den) : rnd .down num den = .ok (quot num den) := by
  rw [rnd, roundMagnitude, increment_down, ratioSign_mul_natAbs_div num h]
  exact congrArg _ (add_zero _)

theorem quot_mul_add_rem (a d : Int) : a = quot a d * d + rem a d := (Int.tdiv_mul_add_tmod a d).symm

theorem abs_rem_lt (a : Int) {d : Int} (h : 0 < d) : |rem a d| < d := by
  rw [abs_lt]
  exact ⟨Int.lt_tmod_of_pos a h, Int.tmod_lt_of_pos a h⟩

/-- The remainder is 0 or of the operand's sign (00_scope.md R12). -/
theorem rem_mul_self_nonneg (a d : Int) : 0 ≤ rem a d * a := by
  rcases le_total 0 a with h | h
  · exact mul_nonneg (Int.tmod_nonneg d h) h
  · rw [← neg_mul_neg, ← rem_neg]
    exact mul_nonneg (Int.tmod_nonneg d (neg_nonneg.mpr h)) (neg_nonneg.mpr h)

/-- The quotient by a positive divisor is 0 or of the operand's sign (00_scope.md R12). -/
theorem quot_mul_self_nonneg (a : Int) {d : Int} (h : 0 ≤ d) : 0 ≤ quot a d * a := by
  rcases le_total 0 a with ha | ha
  · exact mul_nonneg (Int.tdiv_nonneg ha h) ha
  · rw [← neg_mul_neg, ← quot_neg]
    exact mul_nonneg (Int.tdiv_nonneg (neg_nonneg.mpr ha) h) (neg_nonneg.mpr ha)

theorem exec_modsf (sel : Selector) (s : State) :
    exec (.modsf sel) s = .next (s.withResult (rem s.opA (10 ^ sel.scale.toNat))) := by
  rw [← selSF_eq]
  exact conclude_ok ..

/-- `TOLONG` under DOWN, the pseudo-command DIVSF, never fails (40_scale_metrics.md R105). -/
theorem exec_tolong_down (sel : Selector) (s : State) :
    exec (.tolong (sel.deriveRounding .down)) s = .next (s.withResult (quot s.opA (10 ^ sel.scale.toNat))) := by
  have hvalue : computeTolong (sel.deriveRounding .down) s.opA = .ok (quot s.opA (10 ^ sel.scale.toNat)) := by
    rw [← selSF_eq]
    exact rnd_down _ (by rw [selSF_eq]; positivity)
  exact (congrArg (conclude · s) hvalue).trans (conclude_ok ..)

end Sys2Proof.Machine

section
open Sys2Proof Sys2Proof.Machine

/-- Settles O57: METRIC ends with the LUT entry, which meets its definition entry by entry. -/
theorem metricReturnsEntry : Obligations.MetricReturnsEntry := by
  intro sel k s
  rw [exec_metric]
  congr 2
  cases k with
  | sf => exact romSF_eq _
  | maxInt => exact lut_maxInt _
  | minInt => exact lut_minInt _
  | halfSf => exact lut_halfSf _
  | sqrtSf => exact lut_sqrtSf _
  | sfBits => exact lut_sfBits _
  | dblMin | dblMax => rfl

/-- Settles O59: the two commands leave the truncated quotient and its remainder. -/
theorem moduloSplitsOperand : Obligations.ModuloSplitsOperand := by
  intro sel s
  have hsf : (0 : Int) < 10 ^ sel.scale.toNat := by positivity
  exact ⟨_, _, exec_modsf sel s, exec_tolong_down sel s, quot_mul_add_rem .., abs_rem_lt _ hsf,
    rem_mul_self_nonneg .., quot_mul_self_nonneg _ hsf.le⟩

end
end

section
/-! The overflow law (41_rounding.md R130): in unchecked mode what is lost is a multiple of `2^64`. -/

namespace Sys2Proof.Machine

theorem dvd_sub_wrap64 (x : Int) : (2 ^ 64 : Int) ∣ x - wrap64 x := by
  obtain ⟨k, hk⟩ := wrap64_congr x
  exact ⟨-k, by rw [hk]; ring⟩

end Sys2Proof.Machine

section
open Sys2Proof Sys2Proof.Machine

/-- Settles O24: outside the range checked mode raises, and unchecked mode answers `wrap64 r`. -/
theorem overflowLaw : Obligations.OverflowLaw := by
  intro ovf r
  refine ⟨fit_inRange, fit_checked_outside, fun _ => ?_⟩
  obtain ⟨hmin, hmax⟩ := wrap64_bounds r
  exact ⟨wrap64 r, fit_unchecked r, hmin, hmax, dvd_sub_wrap64 r⟩

end
end

section
/-! SUPPORT. The rounding engine is the closed form of its mode on the exact ratio (spec/41_rounding.md R121 to R128): the
increment table row by row, the closed forms at an integer and at `±(q + f)` with `0 < f < 1`, and the two together. -/

namespace Sys2Proof.Machine

/-! ### The increment table, row by row -/

theorem increment_up (sign : Int) (odd : Bool) {p : TruncatedPart} (h : p ≠ .zero) :
    increment .up sign odd p = .ok sign := by
  cases p with
  | zero => exact absurd rfl h
  | lessThanHalf | equalToHalf | greaterThanHalf => rfl

theorem increment_ceiling (sign : Int) (odd : Bool) {p : TruncatedPart} (h : p ≠ .zero) :
    increment .ceiling sign odd p = .ok (if sign = 1 then 1 else 0) := by
  cases p with
  | zero => exact absurd rfl h
  | lessThanHalf | equalToHalf | greaterThanHalf => rfl

theorem increment_floor (sign : Int) (odd : Bool) {p : TruncatedPart} (h : p ≠ .zero) :
    increment .floor sign odd p = .ok (if sign = -1 then -1 else 0) := by
  cases p with
  | zero => exact absurd rfl h
  | lessThanHalf | equalToHalf | greaterThanHalf => rfl

/-- The three classes of a discarded part that is not zero (41_rounding.md R122). -/
theorem part_cases {r : Nat} (hr : r ≠ 0) (d : Nat) :
    (2 * r < d ∧ part r d = .lessThanHalf) ∨ (2 * r = d ∧ part r d = .equalToHalf) ∨
    (d < 2 * r ∧ part r d = .greaterThanHalf) := by
  rcases lt_trichotomy (2 * r) d with h | h | h
  · exact .inl ⟨h, part_eq_lessThanHalf.mpr ⟨hr, h⟩⟩
  · exact .inr (.inl ⟨h, part_eq_equalToHalf.mpr ⟨hr, h⟩⟩)
  · exact .inr (.inr ⟨h, part_eq_greaterThanHalf.mpr ⟨hr, h⟩⟩)

theorem increment_halfUp (sign : Int) (odd : Bool) {r : Nat} (hr : r ≠ 0) (d : Nat) :
    increment .halfUp sign odd (part r d) = .ok (if 2 * r < d then 0 else sign) := by
  rcases part_cases hr d with ⟨h, hp⟩ | ⟨h, hp⟩ | ⟨h, hp⟩ <;> rw [hp]
  · rw [if_pos h]; rfl
  · rw [if_neg h.not_lt]; rfl
  · rw [if_neg h.not_gt]; rfl

theorem increment_halfDown (sign : Int) (odd : Bool) {r : Nat} (hr : r ≠ 0) (d : Nat) :
    increment .halfDown sign odd (part r d) = .ok (if 2 * r ≤ d then 0 else sign) := by
  rcases part_cases hr d with ⟨h, hp⟩ | ⟨h, hp⟩ | ⟨h, hp⟩ <;> rw [hp]
  · rw [if_pos h.le]; rfl
  · rw [if_pos h.le]; rfl
  · rw [if_neg h.not_ge]; rfl

theorem increment_halfEven (sign : Int) (odd : Bool) {r : Nat} (hr : r ≠ 0) (d : Nat) :
    increment .halfEven sign odd (part r d) =
      .ok (if 2 * r < d then 0 else if d < 2 * r then sign else if odd then sign else 0) := by
  rcases part_cases hr d with ⟨h, hp⟩ | ⟨h, hp⟩ | ⟨h, hp⟩ <;> rw [hp]
  · rw [if_pos h]; rfl
  · rw [if_neg h.not_lt, if_neg h.not_gt]; rfl
  · rw [if_neg h.not_gt, if_pos h]; rfl

theorem roundMagnitude_of_increment {mode : RoundingMode} {sign : Int} {q : Nat} {p : TruncatedPart} {k : Int}
    (h : increment mode sign (isOdd q) p = .ok k) : roundMagnitude mode sign q p = .ok (sign * q + k) := by
  rw [roundMagnitude, h]

/-! ### The closed forms at an integer, and at `±(q + f)` with `0 < f < 1` -/

theorem roundRat_intCast (mode : RoundingMode) (z : Int) : roundRat mode (z : ℚ) = z := by
  cases mode with
  | up | down => simp only [roundRat, ← Int.cast_neg, Int.floor_intCast, Int.ceil_intCast, neg_neg, ite_self]
  | ceiling => exact Int.ceil_intCast z
  | floor | unnecessary => exact Int.floor_intCast z
  | halfUp =>
    have h (w : Int) : ⌊(w : ℚ) + 1 / 2⌋ = w := by norm_num [Int.floor_eq_iff]
    simp only [roundRat, ← Int.cast_neg, h, neg_neg, ite_self]
  | halfDown =>
    have h (w : Int) : ⌈(w : ℚ) - 1 / 2⌉ = w := by norm_num [Int.ceil_eq_iff]
    simp only [roundRat, ← Int.cast_neg, h, neg_neg, ite_self]
  | halfEven => simp [roundRat, nearestEven]

/-- A closed form written as `sign × F(|x|)` (41_rounding.md R128), at `±x` for a positive `x`. -/
theorem ite_neg_eq_sign_mul (F : ℚ → Int) {sign : Int} (hs : sign = 1 ∨ sign = -1) {x : ℚ} (hx : 0 < x) :
    (if (sign * x : ℚ) < 0 then -F (-(sign * x)) else F (sign * x)) = sign * F x := by
  rcases hs with rfl | rfl
  · simp [hx.not_gt]
  · simp [hx]

section
variable (q : Nat) {f : ℚ} (h0 : 0 < f) (h1 : f < 1)
include h0 h1

theorem floor_natCast_add_frac : ⌊(q : ℚ) + f⌋ = q :=
  Int.floor_eq_iff.mpr ⟨by push_cast; linarith, by push_cast; linarith⟩

theorem ceil_natCast_add_frac : ⌈(q : ℚ) + f⌉ = q + 1 :=
  Int.ceil_eq_iff.mpr ⟨by push_cast; linarith, by push_cast; linarith⟩

theorem floor_natCast_add_half : ⌊(q : ℚ) + f + 1 / 2⌋ = q + if f < 1 / 2 then 0 else 1 := by
  split <;> exact Int.floor_eq_iff.mpr ⟨by push_cast; linarith, by push_cast; linarith⟩

theorem ceil_natCast_sub_half : ⌈(q : ℚ) + f - 1 / 2⌉ = q + if f ≤ 1 / 2 then 0 else 1 := by
  split <;> exact Int.ceil_eq_iff.mpr ⟨by push_cast; linarith, by push_cast; linarith⟩

theorem nearestEven_natCast_add :
    nearestEven (q + f) = q + if f < 1 / 2 then 0 else if 1 / 2 < f then 1 else if isOdd q then 1 else 0 := by
  have hodd : isOdd q = true ↔ ¬ (q : Int) % 2 = 0 := by rw [isOdd, beq_iff_eq]; omega
  simp only [nearestEven, floor_natCast_add_frac q h0 h1, Int.cast_natCast, add_sub_cancel_left, hodd]
  split_ifs <;> simp

/-- The parity of `q` decides the tie the same way below zero, where the neighbours are `-q - 1` and `-q`. -/
theorem nearestEven_neg_natCast_add : nearestEven (-(q + f)) = -nearestEven (q + f) := by
  have hfloor : ⌊-((q : ℚ) + f)⌋ = -(q : Int) - 1 := by rw [Int.floor_neg, ceil_natCast_add_frac q h0 h1]; ring
  have hfrac : -((q : ℚ) + f) - ((-(q : Int) - 1 : Int) : ℚ) = 1 - f := by push_cast; ring
  have hodd : isOdd q = true ↔ (-(q : Int) - 1) % 2 = 0 := by rw [isOdd, beq_iff_eq]; omega
  rw [nearestEven_natCast_add q h0 h1, nearestEven, hfloor, hfrac]
  rcases lt_trichotomy f (1 / 2) with h | h | h
  · rw [if_pos h, if_neg (by linarith), if_pos (by linarith)]
    ring
  · rw [if_neg h.not_lt, if_neg h.not_gt, if_neg (by linarith : ¬ 1 - f < 1 / 2), if_neg (by linarith : ¬ 1 / 2 < 1 - f)]
    simp only [hodd]
    split_ifs <;> ring
  · rw [if_neg h.not_gt, if_pos h, if_pos (by linarith)]
    ring

theorem nearestEven_sign_mul {sign : Int} (hs : sign = 1 ∨ sign = -1) :
    nearestEven (sign * (q + f)) = sign * nearestEven (q + f) := by
  rcases hs with rfl | rfl
  · simp
  · simpa using nearestEven_neg_natCast_add q h0 h1

theorem ceil_sign_mul {sign : Int} (hs : sign = 1 ∨ sign = -1) :
    ⌈(sign * (q + f) : ℚ)⌉ = sign * q + if sign = 1 then 1 else 0 := by
  rcases hs with rfl | rfl
  · simp [ceil_natCast_add_frac q h0 h1]
  · rw [Int.cast_neg, Int.cast_one, neg_one_mul, Int.ceil_neg, floor_natCast_add_frac q h0 h1]
    simp

theorem floor_sign_mul {sign : Int} (hs : sign = 1 ∨ sign = -1) :
    ⌊(sign * (q + f) : ℚ)⌋ = sign * q + if sign = -1 then -1 else 0 := by
  rcases hs with rfl | rfl
  · simp [floor_natCast_add_frac q h0 h1]
  · rw [Int.cast_neg, Int.cast_one, neg_one_mul, Int.floor_neg, ceil_natCast_add_frac q h0 h1]
    simp
    ring

end

/-! ### The rounding engine is the closed form -/

/-- A discarded part that is not zero: the truncated value with its increment is the closed form of the mode. -/
theorem roundMagnitude_discarded {mode : RoundingMode} (hm : mode ≠ .unnecessary) {sign : Int}
    (hs : sign = 1 ∨ sign = -1) (q : Nat) {r d : Nat} (hr : r ≠ 0) (hrd : r < d) :
    roundMagnitude mode sign q (part r d) = .ok (roundRat mode (sign * (q + r / d))) := by
  have hp : part r d ≠ .zero := fun h => hr (part_eq_zero.mp h)
  have hd : (0 : ℚ) < d := by exact_mod_cast (Nat.zero_le r).trans_lt hrd
  have h0 : (0 : ℚ) < r / d := div_pos (by exact_mod_cast Nat.pos_of_ne_zero hr) hd
  have h1 : (r / d : ℚ) < 1 := (div_lt_one hd).mpr (by exact_mod_cast hrd)
  have hx : (0 : ℚ) < q + r / d := by positivity
  have hlt : (r / d : ℚ) < 1 / 2 ↔ 2 * r < d := by rw [div_lt_div_iff₀ hd two_pos]; norm_cast; omega
  have hgt : (1 / 2 : ℚ) < r / d ↔ d < 2 * r := by rw [div_lt_div_iff₀ two_pos hd]; norm_cast; omega
  have hle : (r / d : ℚ) ≤ 1 / 2 ↔ 2 * r ≤ d := by rw [← not_lt, hgt, not_lt]
  cases mode with
  | unnecessary => exact absurd rfl hm
  | up =>
    rw [roundMagnitude_of_increment (increment_up _ _ hp), roundRat, ite_neg_eq_sign_mul _ hs hx,
      ceil_natCast_add_frac q h0 h1, mul_add, mul_one]
  | down =>
    rw [roundMagnitude_of_increment (increment_down ..), roundRat, ite_neg_eq_sign_mul _ hs hx,
      floor_natCast_add_frac q h0 h1, add_zero]
  | ceiling => rw [roundMagnitude_of_increment (increment_ceiling _ _ hp), roundRat, ceil_sign_mul q h0 h1 hs]
  | floor => rw [roundMagnitude_of_increment (increment_floor _ _ hp), roundRat, floor_sign_mul q h0 h1 hs]
  | halfUp =>
    rw [roundMagnitude_of_increment (increment_halfUp _ _ hr d), roundRat,
      ite_neg_eq_sign_mul (fun x => ⌊x + 1 / 2⌋) hs hx, floor_natCast_add_half q h0 h1, mul_add, mul_ite, mul_zero,
      mul_one]
    simp only [hlt]
  | halfDown =>
    rw [roundMagnitude_of_increment (increment_halfDown _ _ hr d), roundRat,
      ite_neg_eq_sign_mul (fun x => ⌈x - 1 / 2⌉) hs hx, ceil_natCast_sub_half q h0 h1, mul_add, mul_ite, mul_zero,
      mul_one]
    simp only [hle]
  | halfEven =>
    rw [roundMagnitude_of_increment (increment_halfEven _ _ hr d), roundRat, nearestEven_sign_mul q h0 h1 hs,
      nearestEven_natCast_add q h0 h1]
    simp only [hlt, hgt, mul_add, mul_ite, mul_zero, mul_one]

theorem roundMagnitude_exact (mode : RoundingMode) (sign : Int) (q : Nat) :
    roundMagnitude mode sign q .zero = .ok (roundRat mode (sign * q)) := by
  rw [roundMagnitude_of_increment (increment_zero ..), add_zero, ← roundRat_intCast mode (sign * q), Int.cast_mul,
    Int.cast_natCast]

/-- The sign and the two magnitudes the engine works on are the ratio (41_rounding.md R125). -/
theorem div_eq_ratioSign_mul (num : Int) {den : Int} (h : den ≠ 0) :
    (num : ℚ) / den = ratioSign num den * ((num.natAbs : ℚ) / den.natAbs) := by
  have hden : (den : ℚ) ≠ 0 := Int.cast_ne_zero.mpr h
  have habs : (den.natAbs : ℚ) ≠ 0 := Nat.cast_ne_zero.mpr (Int.natAbs_ne_zero.mpr h)
  have hsq : (den.natAbs : ℚ) * den.natAbs = den * den := by
    simpa only [Int.cast_mul, Int.cast_natCast] using congrArg (Int.cast : Int → ℚ) (Int.natAbs_mul_self' den)
  have hsign : (ratioSign num den : ℚ) * num.natAbs * den.natAbs = num * den := by
    simpa only [Int.cast_mul, Int.cast_natCast] using congrArg (Int.cast : Int → ℚ) (ratioSign_mul_natAbs num h)
  calc (num : ℚ) / den = num * den / (den * den) := (mul_div_mul_right _ _ hden).symm
    _ = ratioSign num den * num.natAbs * den.natAbs / (den.natAbs * den.natAbs) := by rw [hsign, hsq]
    _ = ratioSign num den * (num.natAbs / den.natAbs) := by rw [mul_div_mul_right _ _ habs, mul_div_assoc]

theorem natCast_div_eq_div_add_mod (m : Nat) {d : Nat} (h : d ≠ 0) :
    (m : ℚ) / d = (m / d : Nat) + (m % d : Nat) / (d : ℚ) := by
  have hd : (d : ℚ) ≠ 0 := Nat.cast_ne_zero.mpr h
  rw [← mul_div_cancel_right₀ ((m / d : Nat) : ℚ) hd, ← add_div, ← Nat.cast_mul, ← Nat.cast_add, Nat.div_add_mod']

/-- `rnd` is the closed form of its mode on the exact ratio, and raises exactly when UNNECESSARY meets a ratio that is no
integer (41_rounding.md R126, R128). -/
theorem rnd_eq_roundRat (mode : RoundingMode) (num : Int) {den : Int} (h : den ≠ 0) :
    rnd mode num den =
      if mode = .unnecessary ∧ ¬ den ∣ num then .error .roundingNecessary
      else .ok (roundRat mode ((num : ℚ) / den)) := by
  have hdvd : den ∣ num ↔ num.natAbs % den.natAbs = 0 := by rw [← Nat.dvd_iff_mod_eq_zero, Int.natAbs_dvd_natAbs]
  rw [div_eq_ratioSign_mul num h, natCast_div_eq_div_add_mod _ (Int.natAbs_ne_zero.mpr h), rnd]
  simp only [hdvd]
  by_cases hr : num.natAbs % den.natAbs = 0
  · rw [if_neg (fun hc => hc.2 hr), hr, part_eq_zero.mpr rfl, roundMagnitude_exact, Nat.cast_zero, zero_div, add_zero]
  · by_cases hm : mode = .unnecessary
    · rw [if_pos ⟨hm, hr⟩, hm, roundMagnitude, increment_unnecessary (mt part_eq_zero.mp hr)]
    · rw [if_neg (fun hc => hm hc.1)]
      exact roundMagnitude_discarded hm (ratioSign_cases num den) _ hr (Nat.mod_lt _ (Int.natAbs_pos.mpr h))

end Sys2Proof.Machine
end

section
/-! SUPPORT. How a command that ends with `fit` or with `rnd` leaves its port, the range of the one-operand primitives, the
rounded mean, and the cut of the shift amounts, with the statements of the family 42_checked_primitives.md (O25 to O30). -/

namespace Sys2Proof.Machine

/-! ### How a command ends -/

/-- `RES` keeps the low 64 bits only (20_memory.md R54), so congruent results leave one state. -/
theorem State.withResult_congr {v w : Int} (h : u64 v = u64 w) (s : State) : s.withResult v = s.withResult w := by
  rw [State.withResult, h, State.withResult]

theorem State.afterExact_inRange {r : Int} (h : MIN ≤ r ∧ r ≤ MAX) (s : State) (ovf : OverflowMode) :
    s.afterExact ovf r = s.withResult r := if_neg fun hc => hc.2 h

/-- A command that ends with `fit` leaves its exact result under the overflow law (41_rounding.md R130). -/
theorem conclude_fit (ovf : OverflowMode) (r : Int) (s : State) :
    conclude (fit ovf r) s = .next (s.afterExact ovf r) := by
  unfold State.afterExact
  by_cases h : ovf = .checked ∧ ¬ (MIN ≤ r ∧ r ≤ MAX)
  · rw [if_pos h, h.1, fit_checked_outside h.2]
    rfl
  · have hfit : fit ovf r = .ok (wrap64 r) := (fit_cases ovf r).resolve_left fun ⟨ho, hr, _⟩ => h ⟨ho, hr⟩
    rw [if_neg h, hfit, conclude_ok, s.withResult_congr (u64_wrap64 r)]

theorem mustRaise_div (mode : RoundingMode) (num : Int) {den : Int} (h : den ≠ 0) :
    mustRaise mode ((num : ℚ) / den) = true ↔ mode = .unnecessary ∧ ¬ den ∣ num := by
  rw [mustRaise, decide_eq_true_iff, ne_eq, Rat.den_div_intCast_eq_one_iff num den h]

/-- A command that ends with `rnd` leaves its exact ratio rounded (41_rounding.md R126, R128). -/
theorem conclude_rnd (mode : RoundingMode) (num : Int) {den : Int} (h : den ≠ 0) (s : State) :
    conclude (rnd mode num den) s = .next (s.afterRounding mode ((num : ℚ) / den)) := by
  rw [rnd_eq_roundRat mode num h, State.afterRounding]
  simp only [mustRaise_div mode num h]
  split <;> rfl

theorem State.opA_bounds (s : State) : MIN ≤ s.opA ∧ s.opA ≤ MAX := s64_bounds _

/-! ### NEG and ABS -/

theorem State.afterExact_neg_min (s : State) (ovf : OverflowMode) :
    s.afterExact ovf (-MIN) = if ovf = .checked then s.withStatus 1 else s.withResult MIN := by
  have hout : ¬ (MIN ≤ -MIN ∧ -MIN ≤ MAX) := by decide
  rw [State.afterExact, s.withResult_congr (by decide : u64 (-MIN) = u64 MIN)]
  simp only [hout, not_false_eq_true, and_true]

/-- The negative of an operand leaves the range for `MIN` only (42_checked_primitives.md R143). -/
theorem State.afterExact_neg_opA (s : State) (ovf : OverflowMode) :
    s.afterExact ovf (-s.opA) =
      if s.opA = MIN then (if ovf = .checked then s.withStatus 1 else s.withResult MIN) else s.withResult (-s.opA) := by
  obtain ⟨hmin, hmax⟩ := s.opA_bounds
  split
  · next h => rw [h, s.afterExact_neg_min]
  · next h => exact s.afterExact_inRange (by rw [min_eq, max_eq] at *; omega) ovf

/-- The magnitude of an operand leaves the range for `MIN` only (42_checked_primitives.md R144). -/
theorem State.afterExact_abs_opA (s : State) (ovf : OverflowMode) :
    s.afterExact ovf |s.opA| =
      if s.opA = MIN then (if ovf = .checked then s.withStatus 1 else s.withResult MIN) else s.withResult |s.opA| := by
  rcases lt_or_ge s.opA 0 with h | h
  · rw [abs_of_neg h, s.afterExact_neg_opA]
  · have hne : s.opA ≠ MIN := fun hc => absurd (hc ▸ h) (by decide)
    rw [if_neg hne, s.afterExact_inRange]
    rw [abs_of_nonneg h]
    exact s.opA_bounds

/-! ### AVG -/

theorem ratioSign_two (n : Int) : ratioSign n 2 = if n < 0 then -1 else 1 := rfl

/-- A rounded half is at most 1/2 away from the exact one in every mode (42_checked_primitives.md R145). -/
theorem two_mul_rnd_two_bounds {mode : RoundingMode} {n r : Int} (h : rnd mode n 2 = .ok r) :
    n - 1 ≤ 2 * r ∧ 2 * r ≤ n + 1 := by
  have hcases := rnd_cases mode n 2
  rw [ratioSign_two, show Int.natAbs 2 = 2 from rfl, h] at hcases
  rcases hcases with ⟨_, _, hr⟩ | hr | ⟨hodd, hr⟩
  · cases hr
  · obtain rfl := Except.ok.inj hr
    split <;> omega
  · obtain rfl := Except.ok.inj hr
    split <;> omega

/-! ### SHL and SHR -/

/-- A multiple of `2^64` loses all its bits: OVERFLOW when checked, unless it is 0, and 0 when unchecked. -/
theorem fit_of_dvd (ovf : OverflowMode) {r : Int} (h : (2 ^ 64 : Int) ∣ r) :
    fit ovf r = if ovf = .checked ∧ r ≠ 0 then .error .overflow else .ok 0 := by
  obtain ⟨k, rfl⟩ := h
  have hzero : wrap64 (2 ^ 64 * k) = 0 := by
    rw [wrap64, (u64_eq_iff _ 0).mpr ⟨k, sub_zero _⟩]
    rfl
  rcases eq_or_ne k 0 with rfl | hk
  · rw [mul_zero, if_neg fun hc => hc.2 rfl, fit_inRange (by decide)]
  · have hout : ¬ (MIN ≤ 2 ^ 64 * k ∧ 2 ^ 64 * k ≤ MAX) := by rw [min_eq, max_eq]; omega
    cases ovf with
    | checked => rw [fit_checked_outside hout, if_pos ⟨rfl, by omega⟩]
    | unchecked => rw [fit_unchecked, hzero, if_neg fun hc => nomatch hc.1]

/-- The cut of the exponent changes no left shift (42_checked_primitives.md R147). -/
theorem shiftLeft_eq (sel : Selector) (a : Int) (n : Nat) : shiftLeft sel a n = fit sel.ovf (a * 2 ^ n) := by
  have hdvd {k : Nat} (hk : 64 ≤ k) : (2 ^ 64 : Int) ∣ a * 2 ^ k := Dvd.dvd.mul_left (pow_dvd_pow 2 hk) a
  rw [shiftLeft, Nat.cast_pow, Nat.cast_two, capExp, expCap]
  rcases le_total n 65 with h | h
  · rw [min_eq_left h]
  · rw [min_eq_right h, fit_of_dvd _ (hdvd (by decide)), fit_of_dvd _ (hdvd ((by decide : 64 ≤ 65).trans h))]
    simp

/-- A ratio below 1/2 in magnitude has the truncated value 0 and the class Z or L whatever its denominator is
(41_rounding.md R122). -/
theorem rnd_of_lt_half (mode : RoundingMode) {num : Int} {d : Nat} (h : 2 * num.natAbs < d) :
    rnd mode num d = roundMagnitude mode (if num < 0 then -1 else 1) 0 (if num = 0 then .zero else .lessThanHalf) := by
  have hlt : num.natAbs < d := by omega
  have hpart : part num.natAbs d = if num = 0 then .zero else .lessThanHalf := by
    split
    · next hz => exact part_eq_zero.mpr (Int.natAbs_eq_zero.mpr hz)
    · next hz => exact part_eq_lessThanHalf.mpr ⟨Int.natAbs_ne_zero.mpr hz, h⟩
  rw [rnd, ratioSign, if_neg (Int.natCast_nonneg d).not_gt, Int.natAbs_natCast, Nat.div_eq_of_lt hlt,
    Nat.mod_eq_of_lt hlt, hpart]

/-- The cut of the exponent changes no right shift of a 64-bit operand (42_checked_primitives.md R148). -/
theorem shiftRight_eq (sel : Selector) {a : Int} (ha : MIN ≤ a ∧ a ≤ MAX) (n : Nat) :
    shiftRight sel a n = rnd sel.mode a (2 ^ n : Nat) := by
  have hsmall {k : Nat} (hk : 65 ≤ k) : 2 * a.natAbs < 2 ^ k :=
    calc 2 * a.natAbs < 2 ^ 65 := by rw [min_eq, max_eq] at ha; omega
      _ ≤ 2 ^ k := Nat.pow_le_pow_right two_pos hk
  rw [shiftRight, capExp, expCap]
  rcases le_total n 65 with h | h
  · rw [min_eq_left h]
  · rw [min_eq_right h, rnd_of_lt_half _ (hsmall le_rfl), rnd_of_lt_half _ (hsmall h)]

theorem conclude_shiftLeft (sel : Selector) (n : Nat) (s : State) :
    conclude (shiftLeft sel s.opA n) s = .next (s.afterExact sel.ovf (s.opA * 2 ^ n)) := by
  rw [shiftLeft_eq, conclude_fit]

theorem conclude_shiftRight (sel : Selector) (n : Nat) (s : State) :
    conclude (shiftRight sel s.opA n) s = .next (s.afterRounding sel.mode ((s.opA : ℚ) / 2 ^ n)) := by
  rw [shiftRight_eq sel s.opA_bounds, conclude_rnd _ _ (by positivity)]
  push_cast
  rfl

end Sys2Proof.Machine

section
open Sys2Proof Sys2Proof.Machine

/-- Settles O25: NOP ends without a value, so only STATUS is written. -/
theorem nopClearsStatus : Obligations.NopClearsStatus := fun _ _ => rfl

/-- Settles O26: both commands end with `fit` of their exact result. -/
theorem addAndSubtract : Obligations.AddAndSubtract := fun _ _ => ⟨conclude_fit .., conclude_fit ..⟩

/-- Settles O27: both commands end with `fit`, and only the opposite of `MIN` is outside the range. -/
theorem negateAndAbsolute : Obligations.NegateAndAbsolute := by
  intro sel s
  rw [← s.afterExact_neg_opA, ← s.afterExact_abs_opA, Int.abs_eq_natAbs]
  exact ⟨conclude_fit .., conclude_fit ..⟩

/-- Settles O28: AVG ends with `rnd` of the sum over 2, which no mode moves past an operand. -/
theorem averageRoundsMean : Obligations.AverageRoundsMean := by
  intro sel s
  refine ⟨conclude_rnd _ _ two_ne_zero s, fun r hr => ?_⟩
  obtain ⟨hlow, hhigh⟩ := two_mul_rnd_two_bounds hr
  omega

/-- Settles O29: the sign of the amount chooses the shift, and the cut of the exponent changes neither. -/
theorem shiftLeftMultiplies : Obligations.ShiftLeftMultiplies := by
  intro sel s
  refine ⟨fun h => ?_, fun h => ?_⟩
  · exact (congrArg (conclude · s) (if_pos h)).trans (conclude_shiftLeft ..)
  · exact (congrArg (conclude · s) (if_neg h.not_ge)).trans (conclude_shiftRight ..)

/-- Settles O30: as for SHL, with the two directions exchanged. -/
theorem shiftRightDivides : Obligations.ShiftRightDivides := by
  intro sel s
  refine ⟨fun h => ?_, fun h => ?_⟩
  · exact (congrArg (conclude · s) (if_pos h)).trans (conclude_shiftRight ..)
  · exact (congrArg (conclude · s) (if_neg h.not_ge)).trans (conclude_shiftLeft ..)

end
end

section
/-! SUPPORT. How a command that ends with `fit` of a rounded ratio leaves its port, and the four commands as a product over the
scale factor and a quotient by an operand, with the statements of the family 43_mul_div.md (O32 to O35). -/

namespace Sys2Proof.Machine

/-- A command that ends with `fit` of `rnd` leaves its exact ratio rounded, then under the overflow law
(41_rounding.md R131). -/
theorem conclude_fitRounded_rnd (sel : Selector) (num : Int) {den : Int} (h : den ≠ 0) (s : State) :
    conclude (fitRounded sel.ovf (rnd sel.mode num den)) s =
      .next (s.afterRoundingFit sel ((num : ℚ) / den)) := by
  rw [rnd_eq_roundRat sel.mode num h, State.afterRoundingFit]
  simp only [mustRaise_div sel.mode num h]
  split
  · rfl
  · rw [fitRounded_ok, conclude_fit]

theorem selSF_ne_zero (sel : Selector) : selSF sel ≠ 0 := by
  rw [selSF_eq]
  positivity

theorem cast_selSF (sel : Selector) : (selSF sel : ℚ) = 10 ^ sel.scale.toNat := by
  rw [selSF_eq, Int.cast_pow, Int.cast_ofNat]

/-! ### MUL and SQR -/

/-- The product of two decimals at one scale carries the scale factor twice, so MUL divides it out once
(43_mul_div.md R171). -/
theorem conclude_computeMul (sel : Selector) (a b : Int) (s : State) :
    conclude (computeMul sel a b) s = .next (s.afterRoundingFit sel (((a * b : Int) : ℚ) / 10 ^ sel.scale.toNat)) := by
  rw [computeMul, conclude_fitRounded_rnd sel _ (selSF_ne_zero sel), cast_selSF]

theorem exec_mul (sel : Selector) (s : State) : exec (.mul sel) s = conclude (computeMul sel s.opA s.opB) s := rfl

/-- SQR is MUL with both operands `a` (43_mul_div.md R176). -/
theorem exec_sqr (sel : Selector) (s : State) : exec (.sqr sel) s = conclude (computeMul sel s.opA s.opA) s := rfl

/-! ### DIV and INV -/

theorem conclude_computeDiv_zero (sel : Selector) (a : Int) (s : State) :
    conclude (computeDiv sel a 0) s = .next (s.withStatus 2) := rfl

/-- The quotient of two decimals at one scale loses the scale factor, so DIV multiplies the dividend by it
(43_mul_div.md R178). -/
theorem conclude_computeDiv (sel : Selector) (a : Int) {b : Int} (h : b ≠ 0) (s : State) :
    conclude (computeDiv sel a b) s = .next (s.afterRoundingFit sel ((a : ℚ) * 10 ^ sel.scale.toNat / b)) := by
  rw [computeDiv, if_neg h, conclude_fitRounded_rnd sel _ h, Int.cast_mul, cast_selSF]

theorem exec_div (sel : Selector) (s : State) : exec (.div sel) s = conclude (computeDiv sel s.opA s.opB) s := rfl

/-- INV is DIV with the dividend decimal one and the divisor `a` (43_mul_div.md R184). -/
theorem exec_inv (sel : Selector) (s : State) :
    exec (.inv sel) s = conclude (computeDiv sel (selSF sel) s.opA) s := rfl

end Sys2Proof.Machine

section
open Sys2Proof Sys2Proof.Machine

/-- Settles O32: MUL ends with `fit` of the rounded product over the scale factor. -/
theorem multiplyRoundsExactProduct : Obligations.MultiplyRoundsExactProduct := by
  intro sel s
  rw [exec_mul, conclude_computeMul]

/-- Settles O33: SQR is MUL of the operand with itself, so OPB enters only where it equals OPA. -/
theorem squareRoundsExactSquare : Obligations.SquareRoundsExactSquare := by
  intro sel s
  refine ⟨?_, fun h => ?_⟩
  · rw [exec_sqr, conclude_computeMul, sq]
  · have hoperands : s.opB = s.opA := congrArg s64 h
    rw [exec_sqr, exec_mul, hoperands]

/-- Settles O34: the divisor is tested before any other rule of DIV. -/
theorem divideRoundsExactQuotient : Obligations.DivideRoundsExactQuotient := by
  intro sel s
  rw [exec_div]
  refine ⟨fun h => ?_, fun h => conclude_computeDiv sel _ h s⟩
  rw [h, conclude_computeDiv_zero]

/-- Settles O35: INV is DIV of decimal one, whose pattern is the scale factor. -/
theorem invertRoundsExactInverse : Obligations.InvertRoundsExactInverse := by
  intro sel s
  rw [exec_inv]
  refine ⟨fun h => ?_, fun h => ?_⟩
  · rw [h, conclude_computeDiv_zero]
  · rw [conclude_computeDiv sel _ h, cast_selSF, sq]

end
end

section
/-! SUPPORT. The root with the class of its remainder, and the 36-digit form of a decimal, with the statements of the family
44_sqrt_pow.md (O40, O45). -/

namespace Sys2Proof.Machine

/-! ### The increment of a square-root remainder

The remainder is compared with the root itself (44_sqrt_pow.md R201), so the three half modes agree: there is no tie. -/

/-- The three classes of a square-root remainder (44_sqrt_pow.md R201). -/
theorem sqrtPart_cases (t r : Nat) :
    (r = 0 ∧ sqrtPart t r = .zero) ∨ (0 < r ∧ r ≤ t ∧ sqrtPart t r = .lessThanHalf) ∨
    (t < r ∧ sqrtPart t r = .greaterThanHalf) := by
  unfold sqrtPart
  split_ifs with hzero hle
  · exact .inl ⟨hzero, rfl⟩
  · exact .inr (.inl ⟨Nat.pos_of_ne_zero hzero, hle, rfl⟩)
  · exact .inr (.inr ⟨not_le.mp hle, rfl⟩)

theorem sqrtPart_zero (t : Nat) : sqrtPart t 0 = .zero := rfl

theorem sqrtPart_ne_zero (t : Nat) {r : Nat} (h : r ≠ 0) : sqrtPart t r ≠ .zero := by
  rcases sqrtPart_cases t r with ⟨hr, _⟩ | ⟨_, _, hp⟩ | ⟨_, hp⟩
  · exact absurd hr h
  · exact hp.trans_ne nofun
  · exact hp.trans_ne nofun

theorem increment_sqrtPart_away {mode : RoundingMode} (hm : mode = .up ∨ mode = .ceiling) (odd : Bool) (t r : Nat) :
    increment mode 1 odd (sqrtPart t r) = .ok (if r = 0 then 0 else 1) := by
  by_cases hr : r = 0
  · rw [hr, sqrtPart_zero, increment_zero, if_pos rfl]
  · rw [if_neg hr]
    rcases hm with rfl | rfl
    · exact increment_up _ _ (sqrtPart_ne_zero t hr)
    · exact increment_ceiling _ _ (sqrtPart_ne_zero t hr)

theorem increment_sqrtPart_toZero {mode : RoundingMode} (hm : mode = .down ∨ mode = .floor) (odd : Bool) (t r : Nat) :
    increment mode 1 odd (sqrtPart t r) = .ok 0 := by
  rcases hm with rfl | rfl
  · exact increment_down ..
  · by_cases hr : r = 0
    · rw [hr, sqrtPart_zero, increment_zero]
    · exact increment_floor _ _ (sqrtPart_ne_zero t hr)

theorem increment_sqrtPart_half {mode : RoundingMode} (hm : mode = .halfUp ∨ mode = .halfDown ∨ mode = .halfEven)
    (odd : Bool) (t r : Nat) : increment mode 1 odd (sqrtPart t r) = .ok (if r ≤ t then 0 else 1) := by
  rcases sqrtPart_cases t r with ⟨hr, hp⟩ | ⟨_, hle, hp⟩ | ⟨hlt, hp⟩ <;> rw [hp]
  · rw [increment_zero, if_pos (hr.trans_le t.zero_le)]
  · rw [if_pos hle]
    rcases hm with rfl | rfl | rfl <;> rfl
  · rw [if_neg hlt.not_ge]
    rcases hm with rfl | rfl | rfl <;> rfl

/-! ### SQRT -/

theorem computeSqrt_neg (sel : Selector) {a : Int} (h : a < 0) :
    computeSqrt sel a = .error (.invalidDomain .sqrtNegative) := if_pos h

/-- The root of `a × SF` is `t = ⌊√(a × SF)⌋` with the increment of the remainder `a × SF - t²` (44_sqrt_pow.md R200). -/
theorem computeSqrt_nonneg (sel : Selector) {a : Int} (h : 0 ≤ a) {n : Nat} (hn : n = a.toNat * 10 ^ sel.scale.toNat) :
    computeSqrt sel a =
      roundMagnitude sel.mode 1 (Nat.sqrt n) (sqrtPart (Nat.sqrt n) (n - Nat.sqrt n * Nat.sqrt n)) := by
  rw [computeSqrt, if_neg h.not_gt, isqrt_eq_sqrt, scaleFactor, selScale, ← hn]

theorem exec_sqrt (sel : Selector) (s : State) : exec (.sqrt sel) s = conclude (computeSqrt sel s.opA) s := rfl

section
variable {mode : RoundingMode} {n t : Nat} (s : State)

/-- A command whose value is a natural magnitude with an increment leaves their sum. -/
theorem conclude_roundMagnitude {q : Nat} {p : TruncatedPart} {k : Int} (h : increment mode 1 (isOdd q) p = .ok k) :
    conclude (roundMagnitude mode 1 q p) s = .next (s.withResult (q + k)) := by
  rw [roundMagnitude_of_increment h, one_mul, conclude_ok]

theorem conclude_root_toZero (hm : mode = .down ∨ mode = .floor) :
    conclude (roundMagnitude mode 1 t (sqrtPart t (n - t * t))) s = .next (s.withResult t) := by
  rw [conclude_roundMagnitude s (increment_sqrtPart_toZero hm ..), add_zero]

theorem conclude_root_away (hm : mode = .up ∨ mode = .ceiling) (hle : t * t ≤ n) :
    conclude (roundMagnitude mode 1 t (sqrtPart t (n - t * t))) s =
      .next (s.withResult (if t * t = n then t else t + 1)) := by
  have hexact : n - t * t = 0 ↔ t * t = n := by omega
  rw [conclude_roundMagnitude s (increment_sqrtPart_away hm ..)]
  simp only [hexact, add_ite, add_zero]

theorem conclude_root_half (hm : mode = .halfUp ∨ mode = .halfDown ∨ mode = .halfEven) (hle : t * t ≤ n) :
    conclude (roundMagnitude mode 1 t (sqrtPart t (n - t * t))) s =
      .next (s.withResult (if n ≤ t * t + t then t else t + 1)) := by
  have hhalf : n - t * t ≤ t ↔ n ≤ t * t + t := by omega
  rw [conclude_roundMagnitude s (increment_sqrtPart_half hm ..)]
  simp only [hhalf, add_ite, add_zero]

theorem conclude_root_unnecessary (hle : t * t ≤ n) :
    conclude (roundMagnitude .unnecessary 1 t (sqrtPart t (n - t * t))) s =
      .next (if t * t = n then s.withResult t else s.withStatus 3) := by
  by_cases hsq : t * t = n
  · rw [if_pos hsq, Nat.sub_eq_zero_of_le hsq.ge, sqrtPart_zero, conclude_roundMagnitude s (increment_zero ..), add_zero]
  · have hrem : n - t * t ≠ 0 := by omega
    rw [if_neg hsq, roundMagnitude, increment_unnecessary (sqrtPart_ne_zero t hrem)]
    rfl

end

/-! ### The 36-digit form of a decimal -/

/-- R213 computes the mantissa differently for a negative `p`; both ways give one floor. -/
theorem normMant_eq_floor (u s : Nat) (p : Int) :
    (normMant u s p : Int) = ⌊(u : ℚ) * 10 ^ 35 / (10 ^ s * 2 ^ p)⌋ := by
  cases p with
  | ofNat k =>
    rw [normMant, Int.natCast_div, ← Rat.floor_natCast_div_natCast, Int.ofNat_eq_natCast, zpow_natCast]
    push_cast
    rfl
  | negSucc k =>
    have hratio : (u : ℚ) * 10 ^ 35 / (10 ^ s * 2 ^ Int.negSucc k) = u * 2 ^ (k + 1) * 10 ^ 35 / 10 ^ s := by
      rw [zpow_negSucc]
      field_simp
    rw [normMant, hratio, Int.natCast_div, ← Rat.floor_natCast_div_natCast]
    push_cast
    rfl

/-- A ratio between `2^p` and `2^(p+1)` has its scaled quotient in the range of the mantissa (44_sqrt_pow.md R210). -/
theorem scaledQuotient_bounds {u s : Nat} {p : Int} (hlow : (2 : ℚ) ^ p ≤ (u : ℚ) / 10 ^ s)
    (hhigh : (u : ℚ) / 10 ^ s < 2 ^ (p + 1)) :
    (10 : ℚ) ^ 35 ≤ u * 10 ^ 35 / (10 ^ s * 2 ^ p) ∧ (u : ℚ) * 10 ^ 35 / (10 ^ s * 2 ^ p) < 2 * 10 ^ 35 := by
  have hpow : (0 : ℚ) < 2 ^ p := by positivity
  have hquot : (u : ℚ) * 10 ^ 35 / (10 ^ s * 2 ^ p) = u / 10 ^ s / 2 ^ p * 10 ^ 35 := by field_simp
  rw [zpow_add_one₀ two_ne_zero, mul_comm] at hhigh
  have hone : 1 ≤ (u : ℚ) / 10 ^ s / 2 ^ p := (one_le_div hpow).mpr hlow
  have htwo : (u : ℚ) / 10 ^ s / 2 ^ p < 2 := (div_lt_iff₀ hpow).mpr hhigh
  rw [hquot]
  constructor <;> linarith

theorem norm36_exp_bounds {u : Nat} (hu : 1 ≤ u) (s : Nat) :
    (2 : ℚ) ^ (norm36 u s).exp ≤ (u : ℚ) / 10 ^ s ∧ (u : ℚ) / 10 ^ s < 2 ^ ((norm36 u s).exp + 1) := by
  simpa only [norm36, Nat.cast_pow, Nat.cast_ofNat] using floorLog2_spec hu (Nat.one_le_pow s 10 (by decide))

theorem norm36_mant (u s : Nat) :
    ((norm36 u s).mant : Int) = ⌊(u : ℚ) * 10 ^ 35 / (10 ^ s * 2 ^ (norm36 u s).exp)⌋ := normMant_eq_floor ..

theorem norm36_wf {u : Nat} (hu : 1 ≤ u) (s : Nat) : (norm36 u s).wf = true := by
  obtain ⟨hlow, hhigh⟩ := norm36_exp_bounds hu s
  obtain ⟨hmin, hmax⟩ := scaledQuotient_bounds hlow hhigh
  have hmant := norm36_mant u s
  have hge : (10 ^ 35 : Int) ≤ (norm36 u s).mant := hmant ▸ Int.le_floor.mpr (by exact_mod_cast hmin)
  have hlt : ((norm36 u s).mant : Int) < 2 * 10 ^ 35 := hmant ▸ Int.floor_lt.mpr (by exact_mod_cast hmax)
  rw [Num36.wf, decide_eq_true_eq]
  exact ⟨by exact_mod_cast hge, by exact_mod_cast hlt⟩

end Sys2Proof.Machine

section
open Sys2Proof Sys2Proof.Machine

/-- Settles O40: the remainder `n - t²` gives the increment of each mode, as `t² ≤ n` is the integer root's own bound. -/
theorem squareRootRoundsRoot : Obligations.SquareRootRoundsRoot := by
  intro sel s
  rw [exec_sqrt]
  refine ⟨fun hneg => ?_, fun hnonneg => ?_⟩
  · rw [computeSqrt_neg sel hneg]
    rfl
  · intro n t
    have hle : t * t ≤ n := Nat.sqrt_le n
    rw [computeSqrt_nonneg sel hnonneg (n := n) rfl]
    cases sel.mode with
    | down => exact conclude_root_toZero s (.inl rfl)
    | floor => exact conclude_root_toZero s (.inr rfl)
    | up => exact conclude_root_away s (.inl rfl) hle
    | ceiling => exact conclude_root_away s (.inr rfl) hle
    | halfUp => exact conclude_root_half s (.inl rfl) hle
    | halfDown => exact conclude_root_half s (.inr (.inl rfl)) hle
    | halfEven => exact conclude_root_half s (.inr (.inr rfl)) hle
    | unnecessary => exact conclude_root_unnecessary s hle

/-- Settles O45: the range of the mantissa is that of the exponent, scaled. -/
theorem normalisedBase : Obligations.NormalisedBase := by
  intro u s hu
  obtain ⟨hlow, hhigh⟩ := norm36_exp_bounds hu s
  exact ⟨hlow, hhigh, norm36_mant u s, norm36_wf hu s⟩

end
end

section
/-! SUPPORT. A value times a power of ten as `rnd` or `fit` of its exact result, the cut of the exponent included, and
the decimal re-expressed at another scale, with the statements of the family 45_scaling.md (O50 to O52). -/

namespace Sys2Proof.Machine

/-! ### Scaling by a power of ten -/

/-- The cut of the exponent changes no fitted product: from `10^64` on the low 64 bits are all 0
(45_scaling.md R230(b)). -/
theorem fitRounded_scale10_nonneg (ovf : OverflowMode) (mode : RoundingMode) (a : Int) {e : Int} (h : 0 ≤ e) :
    fitRounded ovf (scale10 mode a e) = fit ovf (a * 10 ^ e.toNat) := by
  have hdvd {k : Nat} (hk : 64 ≤ k) : (2 ^ 64 : Int) ∣ a * 10 ^ k :=
    Dvd.dvd.mul_left ((pow_dvd_pow_of_dvd (by decide) 64).trans (pow_dvd_pow 10 hk)) a
  rw [scale10, if_pos h, fitRounded_ok, Nat.cast_pow, Nat.cast_ofNat, capExp, expCap]
  rcases le_total e.toNat 65 with hn | hn
  · rw [min_eq_left hn]
  · rw [min_eq_right hn, fit_of_dvd _ (hdvd (by decide)), fit_of_dvd _ (hdvd ((by decide : 64 ≤ 65).trans hn))]
    simp

/-- The cut of the exponent changes no rounded quotient of a 64-bit operand: it is below 1/2 from there on
(45_scaling.md R230(c)). -/
theorem scale10_neg (mode : RoundingMode) {a e : Int} (ha : MIN ≤ a ∧ a ≤ MAX) (h : e < 0) :
    scale10 mode a e = rnd mode a (10 ^ (-e).toNat : Nat) := by
  have hsmall {k : Nat} (hk : 65 ≤ k) : 2 * a.natAbs < 10 ^ k :=
    calc 2 * a.natAbs < 10 ^ 65 := by rw [min_eq, max_eq] at ha; omega
      _ ≤ 10 ^ k := Nat.pow_le_pow_right (by decide) hk
  rw [scale10, if_neg h.not_ge, capExp, expCap]
  rcases le_total (-e).toNat 65 with hn | hn
  · rw [min_eq_left hn]
  · rw [min_eq_right hn, rnd_of_lt_half _ (hsmall le_rfl), rnd_of_lt_half _ (hsmall hn)]

/-- A 64-bit operand divided by 2 or more stays in the range in every mode, so the overflow law has nothing to do. -/
theorem fitRounded_rnd_of_two_le (ovf : OverflowMode) (mode : RoundingMode) {a : Int} (ha : MIN ≤ a ∧ a ≤ MAX)
    {d : Nat} (hd : 2 ≤ d) : fitRounded ovf (rnd mode a d) = rnd mode a d := by
  have hquot : a.natAbs / d ≤ a.natAbs / 2 := Nat.div_le_div_left hd two_pos
  have hcases := rnd_cases mode a d
  rw [Int.natAbs_natCast] at hcases
  generalize a.natAbs / d = q at hquot hcases
  rw [min_eq, max_eq] at ha
  rcases hcases with ⟨_, _, hr⟩ | hr | ⟨_, hr⟩ <;> rw [hr]
  · rfl
  all_goals
    rw [fitRounded_ok, fit_inRange]
    rw [min_eq, max_eq]
    rcases ratioSign_cases a d with h | h <;> rw [h] <;> omega

section
variable (sel : Selector) (s : State) {e : Int}

theorem conclude_scale10_nonneg (h : 0 ≤ e) :
    conclude (fitRounded sel.ovf (scale10 sel.mode s.opA e)) s =
      .next (s.afterExact sel.ovf (s.opA * 10 ^ e.toNat)) := by
  rw [fitRounded_scale10_nonneg _ _ _ h, conclude_fit]

theorem conclude_scale10_neg (h : e < 0) :
    conclude (fitRounded sel.ovf (scale10 sel.mode s.opA e)) s =
      .next (s.afterRounding sel.mode ((s.opA : ℚ) / 10 ^ (-e).toNat)) := by
  have hden : 2 ≤ 10 ^ (-e).toNat :=
    (by decide : 2 ≤ 10 ^ 1).trans (Nat.pow_le_pow_right (by decide) (by omega))
  rw [scale10_neg _ s.opA_bounds h, fitRounded_rnd_of_two_le _ _ s.opA_bounds hden, conclude_rnd _ _ (by positivity)]
  push_cast
  rfl

end

theorem exec_mulp10 (sel : Selector) (s : State) :
    exec (.mulp10 sel) s = conclude (fitRounded sel.ovf (scale10 sel.mode s.opA s.opN)) s := rfl

/-- DIVP10 is MULP10 with the count negated as an integer, so the count `MIN` has an opposite too
(45_scaling.md R232). -/
theorem exec_divp10 (sel : Selector) (s : State) :
    exec (.divp10 sel) s = conclude (fitRounded sel.ovf (scale10 sel.mode s.opA (-s.opN))) s := rfl

/-! ### Integers as decimals -/

theorem exec_fromlong (sel : Selector) (s : State) :
    exec (.fromlong sel) s = conclude (fit sel.ovf (s.opA * selSF sel)) s := rfl

theorem exec_tolong (sel : Selector) (s : State) :
    exec (.tolong sel) s = conclude (rnd sel.mode s.opA (selSF sel)) s := rfl

/-! ### Decimals at another scale -/

/-- An integer needs no rounding, so only the overflow law is left. -/
theorem State.afterRoundingFit_intCast (s : State) (sel : Selector) (r : Int) :
    s.afterRoundingFit sel (r : ℚ) = s.afterExact sel.ovf r := by
  have hexact : ¬ mustRaise sel.mode (r : ℚ) = true := by simp [mustRaise]
  rw [State.afterRoundingFit, if_neg hexact, roundRat_intCast]

/-- A decimal at scale `n` re-expressed at scale `m` is `a × 10^m / 10^n`, whichever scale is larger. -/
theorem conclude_rescale (sel : Selector) (m n : Nat) (s : State) :
    conclude (fitRounded sel.ovf (scale10 sel.mode s.opA ((m : Int) - n))) s =
      .next (s.afterRoundingFit sel ((s.opA : ℚ) * 10 ^ m / 10 ^ n)) := by
  rcases le_or_gt n m with h | h
  · obtain ⟨k, rfl⟩ := Nat.exists_eq_add_of_le h
    have hexp : ((n + k : Nat) : Int) - n = k := by omega
    have hratio : (s.opA : ℚ) * 10 ^ (n + k) / 10 ^ n = (s.opA * 10 ^ k : Int) := by
      push_cast
      field_simp
      ring
    rw [hexp, conclude_scale10_nonneg sel s k.cast_nonneg, hratio, s.afterRoundingFit_intCast, Int.toNat_natCast]
  · obtain ⟨k, rfl⟩ := Nat.exists_eq_add_of_le h.le
    have hneg : (m : Int) - (m + k : Nat) < 0 := by omega
    have hexp : (-((m : Int) - (m + k : Nat))).toNat = k := by omega
    have hratio : (s.opA : ℚ) * 10 ^ m / 10 ^ (m + k) = (s.opA : ℚ) / ((10 ^ k : Nat) : Int) := by
      push_cast
      field_simp
      ring
    rw [scale10_neg _ s.opA_bounds hneg, hexp, conclude_fitRounded_rnd sel _ (by positivity), hratio]

theorem exec_fromunsc (sel : Selector) (aux : BitVec 5) (s : State) :
    exec (.fromunsc sel aux) s =
      conclude (fitRounded sel.ovf (scale10 sel.mode s.opA ((sel.scale.toNat : Int) - aux.toNat))) s := rfl

theorem exec_tounsc (sel : Selector) (aux : BitVec 5) (s : State) :
    exec (.tounsc sel aux) s =
      conclude (fitRounded sel.ovf (scale10 sel.mode s.opA ((aux.toNat : Int) - sel.scale.toNat))) s := rfl

end Sys2Proof.Machine

section
open Sys2Proof Sys2Proof.Machine

/-- Settles O50: the sign of the count chooses between the product and the quotient, and the cut of the exponent changes
neither; for DIVP10 the count is negated first. -/
theorem powerOfTenScaling : Obligations.PowerOfTenScaling := by
  intro sel s
  rw [exec_mulp10, exec_divp10]
  refine ⟨conclude_scale10_nonneg sel s, conclude_scale10_neg sel s, fun h => ?_, fun h => ?_⟩
  · rw [conclude_scale10_neg sel s (neg_lt_zero.mpr h), neg_neg]
  · exact conclude_scale10_nonneg sel s (neg_nonneg.mpr h)

/-- Settles O51: FROMLONG ends with `fit` of the product with the scale factor, TOLONG with `rnd` of the quotient. -/
theorem integerConversions : Obligations.IntegerConversions := by
  intro sel s
  refine ⟨?_, ?_⟩
  · rw [exec_fromlong, conclude_fit, selSF_eq]
  · rw [exec_tolong, conclude_rnd _ _ (selSF_ne_zero sel), cast_selSF]

/-- Settles O52: both commands are one change of scale, in opposite directions. -/
theorem scaleConversions : Obligations.ScaleConversions := by
  intro sel aux s
  rw [exec_fromunsc, exec_tounsc]
  exact ⟨conclude_rescale .., conclude_rescale ..⟩

end
end

section
/-! SUPPORT. The two directions of the word format (spec/30_encoding.md R70 to R78): the fields of a command's word read back as
the command, and a word that decodes is made of the fields it was read from; with the statements O1, O2 and O4. -/

namespace Sys2Proof

/-! ### The codes of modes and of LUT entries -/

theorem RoundingMode.ofCode_code (m : RoundingMode) : RoundingMode.ofCode m.code = m := by cases m <;> rfl

theorem OverflowMode.ofCode_code (o : OverflowMode) : OverflowMode.ofCode o.code = o := by cases o <;> rfl

theorem Metric.ofCode_code (k : Metric) : Metric.ofCode k.code = some k := by cases k <;> rfl

theorem RoundingMode.code_ofCode {n : Nat} (h : n < 8) : (RoundingMode.ofCode n).code = n := by
  interval_cases n <;> rfl

theorem OverflowMode.code_ofCode {n : Nat} (h : n < 2) : (OverflowMode.ofCode n).code = n := by
  interval_cases n <;> rfl

theorem Metric.code_of_ofCode {n : Nat} {k : Metric} (h : Metric.ofCode n = some k) : k.code = n := by
  have hn : n < 8 := by
    by_contra hge
    rw [Metric.ofCode_eq_none (not_lt.mp hge)] at h
    cases h
  interval_cases n <;> cases h <;> rfl

/-! ### From the command to its word and back -/

theorem encode_fields (i : Instr) : Laws.EncodeFields.Statement i :=
  fields_commandWord i.sel i.opcode_lt i.aux_lt

theorem Selector.ofWord_encode (i : Instr) : Selector.ofWord (encode i) = i.sel := by
  obtain ⟨_, hscale, hmode, hovf, _, _⟩ := encode_fields i
  rw [Selector.ofWord, BitVec.eq_of_toNat_eq hscale, hmode, hovf, RoundingMode.ofCode_code, OverflowMode.ofCode_code]

/-- The second scale of a well-formed command is legal (R74). -/
theorem Instr.wf_iff (i : Instr) : i.wf = true ↔ i.sel.wf = true ∧ ∀ aux, i.auxScale? = some aux → legalScale aux = true := by
  rw [Instr.wf, Bool.and_eq_true]
  cases i.auxScale? <;> simp

/-- The opcode of a command selects the form that makes the command of its selector and aux value (R76). -/
theorem formOf_opcode {i : Instr} (h : i.wf = true) {aux : BitVec 5} (haux : aux.toNat = i.aux) :
    ∃ f, formOf i.opcode = some f ∧ f.build i.sel aux = .ok i := by
  obtain ⟨_, hscale⟩ := i.wf_iff.mp h
  cases i with
  | fromunsc sel x | tounsc sel x =>
    obtain rfl := BitVec.eq_of_toNat_eq haux
    exact ⟨_, rfl, if_pos (hscale aux rfl)⟩
  | metric sel k =>
    refine ⟨_, rfl, ?_⟩
    rw [CommandForm.build, haux, Instr.aux, Metric.ofCode_code]
    rfl
  | _ => exact ⟨_, rfl, build_plain_zero _ _ haux⟩

/-! ### From a word that decodes to its fields -/

/-- The form of an opcode makes commands of that opcode from a selector and an aux value, and keeps both (R74, R76). -/
theorem build_eq_ok {op : Nat} {f : CommandForm} {sel : Selector} {aux : BitVec 5} {i : Instr}
    (hform : formOf op = some f) (hbuild : f.build sel aux = .ok i) (hsel : sel.wf = true) :
    i.opcode = op ∧ i.sel = sel ∧ i.aux = aux.toNat ∧ i.wf = true := by
  cases f with
  | plain c =>
    have hzero : aux = 0 := by
      by_contra hne
      exact nomatch (if_neg hne).symm.trans hbuild
    subst hzero
    obtain rfl := Except.ok.inj ((build_plain_zero c sel rfl).symm.trans hbuild)
    unfold formOf at hform
    split at hform <;> cases hform <;> exact ⟨rfl, rfl, rfl, (Instr.wf_iff _).mpr ⟨hsel, nofun⟩⟩
  | scaled c =>
    have hlegal : legalScale aux = true := by
      by_contra hne
      exact nomatch (if_neg hne).symm.trans hbuild
    obtain rfl := Except.ok.inj ((if_pos hlegal).symm.trans hbuild)
    unfold formOf at hform
    split at hform <;> cases hform <;>
      exact ⟨rfl, rfl, rfl, (Instr.wf_iff _).mpr ⟨hsel, fun _ h => Option.some.inj h ▸ hlegal⟩⟩
  | lut c =>
    unfold formOf at hform
    split at hform <;> cases hform
    rw [CommandForm.build] at hbuild
    split at hbuild
    · next k hk =>
      obtain rfl := Except.ok.inj hbuild
      exact ⟨rfl, rfl, Metric.code_of_ofCode hk, (Instr.wf_iff _).mpr ⟨hsel, nofun⟩⟩
    · cases hbuild

/-- A word that decodes passed the checks 1 to 4 of R78. -/
theorem decode_eq_ok {w : CmdWord} {i : Instr} (h : decode w = .ok i) :
    zeroField w = 0 ∧ legalScale (scaleField w) = true ∧
    ∃ f, formOf (opField w) = some f ∧ f.build (Selector.ofWord w) (auxField w) = .ok i := by
  by_cases hzero : zeroField w = 0
  · cases hform : formOf (opField w) with
    | none => exact nomatch (decode_reservedOpcode hzero hform).symm.trans h
    | some f =>
      by_cases hscale : legalScale (scaleField w) = true
      · exact ⟨hzero, hscale, f, rfl, (decode_eq_build hzero hform hscale).symm.trans h⟩
      · exact nomatch (decode_scaleRange hzero hform hscale).symm.trans h
  · exact nomatch (decode_reservedBits hzero).symm.trans h

/-- A word with zeros above bit 19 is the sum of its fields (R70). -/
theorem commandWord_fields {w : CmdWord} (h : zeroField w = 0) :
    commandWord (opField w) (Selector.ofWord w) (auxField w).toNat = w := by
  have hop : opField w < 64 := by rw [opField_eq]; omega
  have hmode : (Selector.ofWord w).mode.code = modeField w := RoundingMode.code_ofCode (Nat.mod_lt _ (by decide))
  have hovf : (Selector.ofWord w).ovf.code = ovfField w := OverflowMode.code_ofCode (Nat.mod_lt _ (by decide))
  apply BitVec.eq_of_toNat_eq
  rw [toNat_commandWord _ hop (auxField w).isLt, hmode, hovf, Selector.ofWord, toNat_scaleField, toNat_auxField,
    opField_eq, modeField, ovfField, bits, bits]
  rw [zeroField_eq] at h
  norm_num at h ⊢
  omega

end Sys2Proof

section
open Sys2Proof Sys2Proof.Machine

/-- Settles O1: every check of `decode` reads the field the word was made of. -/
theorem decodeOfEncode : Obligations.DecodeOfEncode := by
  intro i hwf
  obtain ⟨hop, hscale, _, _, haux, hzero⟩ := encode_fields i
  obtain ⟨f, hform, hbuild⟩ := formOf_opcode hwf haux
  have hlegal : legalScale (scaleField (encode i)) = true := by
    rw [BitVec.eq_of_toNat_eq hscale]
    exact (i.wf_iff.mp hwf).1
  rw [decode_eq_build hzero (hop ▸ hform) hlegal, Selector.ofWord_encode, hbuild]

/-- Settles O2: the command keeps the opcode, the selector and the aux field of the word, which are all its bits. -/
theorem encodeOfDecode : Obligations.EncodeOfDecode := by
  intro w i h
  obtain ⟨hzero, hlegal, f, hform, hbuild⟩ := decode_eq_ok h
  obtain ⟨hop, hsel, haux, hwf⟩ := build_eq_ok hform hbuild hlegal
  refine ⟨hwf, ?_⟩
  rw [encode, hop, hsel, haux, commandWord_fields hzero]

/-- Settles O4: four closed words, decoded by evaluation. -/
theorem knownWordsDecode : Obligations.KnownWordsDecode := by
  unfold Obligations.KnownWordsDecode
  decide

end
end

section
/-! SUPPORT. The reset state, the decoded command of a `CMD` write, and the bus binding (spec/10_state.md R34, R35;
spec/20_memory.md R52 to R58), with the statements O5, O9 to O12, O14 and O16. -/

namespace Sys2Proof.Machine

/-- A `CMD` write of an existing port with a narrow value that decodes runs the command at the stored word
(20_memory.md R53, R54). -/
theorem regWrite_cmd_of_decode {p : Nat} {v : Word} {i : Instr} (hp : Config.hasPort p = true) (hv : v.toNat < 2 ^ 32)
    (hi : decode (v.setWidth 32) = .ok i) (s : State) :
    regWrite p 2 v s = exec i { s.setPort p { s.port p with cmd := v.setWidth 32 } with active := p } := by
  have hnarrow : ¬ v.toNat / 2 ^ 32 ≠ 0 := by omega
  rw [regWrite, onPort_present hp, writeReg, writeCmd, if_neg hnarrow, executeCommand, State.cur_setCur, hi]
  rfl

theorem Port.read_resetWith (opa opb res : Word) {i : Fin 8} (h : i ∈ [2, 4, 5, 6, 7]) :
    (Port.resetWith opa opb res).read i = 0 := by
  fin_cases i <;> simp at h <;> rfl

/-! ### The bytes of a bus access -/

/-- The bytes of a bus read are the low bytes of the register (20_memory.md R56). -/
theorem littleEndian_leBytes (k : Nat) (v : Word) : littleEndian (leBytes k v.toNat) v := by
  induction k generalizing v with
  | zero => exact fun j hj => absurd hj (by simp [leBytes])
  | succ k ih =>
    have hhigh : v.toNat / 256 = (v >>> 8).toNat := by
      rw [BitVec.toNat_ushiftRight, Nat.shiftRight_eq_div_pow]
    intro j hj
    cases j with
    | zero =>
      apply BitVec.eq_of_toNat_eq
      simp [leBytes, BitVec.extractLsb'_toNat]
    | succ j =>
      have hj' : j < (leBytes k (v >>> 8).toNat).length := by simpa using hj
      have hbyte := ih (v >>> 8) j hj'
      simp only [leBytes, hhigh, List.getElem_cons_succ]
      rw [hbyte]
      apply BitVec.eq_of_toNat_eq
      rw [BitVec.extractLsb'_toNat, BitVec.extractLsb'_toNat, BitVec.toNat_ushiftRight, ← Nat.shiftRight_add]
      congr 2; omega

/-- The registers that have 32 bits fit a 32-bit access (20_memory.md R52, R58). -/
theorem Port.read_lt {q : Port} {i : Fin 8} {size : Nat} (h : size = 8 ∨ size = 4 ∧ (i = 2 ∨ i = 4)) :
    (q.read i).toNat < 256 ^ size := by
  rcases h with rfl | ⟨rfl, rfl | rfl⟩
  · exact (q.read i).isLt
  · exact (BitVec.toNat_setWidth_of_le (by decide : 32 ≤ 64)).trans_lt q.cmd.isLt
  · exact (BitVec.toNat_setWidth_of_le (by decide : 32 ≤ 64)).trans_lt q.status.isLt

/-- Reading the bytes of a value that fits them gives it back (20_memory.md R56). -/
theorem ofNat_ofLeBytes_leBytes {k : Nat} {v : Word} (h : v.toNat < 256 ^ k) :
    BitVec.ofNat 64 (ofLeBytes (leBytes k v.toNat)) = v := by
  rw [ofLeBytes_leBytes, Nat.mod_eq_of_lt h, BitVec.ofNat_toNat, BitVec.setWidth_eq]

/-- Bytes that are the low bytes of a value and leave no bit of it out spell it (20_memory.md R56). -/
theorem ofNat_ofLeBytes_littleEndian {bs : List Byte} {v : Word} (h : littleEndian bs v) (hv : v.toNat < 256 ^ bs.length) :
    BitVec.ofNat 64 (ofLeBytes bs) = v := by
  rw [ofLeBytes_littleEndian h, Nat.mod_eq_of_lt hv, BitVec.ofNat_toNat, BitVec.setWidth_eq]

/-! ### Bus accesses -/

theorem busRead_slot {addr size p : Nat} {i : Fin 8} (h : busSlot addr size = some (p, i)) (s : State) :
    busRead addr size s = .next { s with active := p, reply := .bytes (leBytes size ((s.port p).read i).toNat) } := by
  rw [busRead, h]
  exact onPort_present (busSlot_some h).1 s _

theorem busWrite_slot {addr p : Nat} {i : Fin 8} {bs : List Byte} (h : busSlot addr bs.length = some (p, i)) (s : State) :
    busWrite addr bs s = regWrite p i (BitVec.ofNat 64 (ofLeBytes bs)) s := by
  rw [busWrite, h]

theorem busRead_noSlot {addr size : Nat} (h : busSlot addr size = none) (s : State) :
    busRead addr size s = .refused (.badBusAccess addr size) := by
  rw [busRead, h]

theorem busWrite_noSlot {addr : Nat} {bs : List Byte} (h : busSlot addr bs.length = none) (s : State) :
    busWrite addr bs s = .refused (.badBusAccess addr bs.length) := by
  rw [busWrite, h]

/-- An access that is at no slot of a port that exists, of no size the slot accepts, hits none (20_memory.md R58). -/
theorem busSlot_eq_none {addr size : Nat}
    (hwide : ∀ p i, Config.hasPort p = true → i < 8 → ¬ (size = 8 ∧ addr = Config.base + p * Config.stride + 8 * i))
    (hnarrow : ∀ p, Config.hasPort p = true →
      ¬ (size = 4 ∧ (addr = Config.base + p * Config.stride + 16 ∨ addr = Config.base + p * Config.stride + 32))) :
    busSlot addr size = none := by
  cases hslot : busSlot addr size with
  | none => rfl
  | some pi =>
    obtain ⟨p, i⟩ := pi
    obtain ⟨hp, haddr, h8 | ⟨h4, hi⟩⟩ := busSlot_some hslot
    · exact absurd ⟨h8, haddr⟩ (hwide p i hp i.isLt)
    · exact absurd ⟨h4, by rcases hi with rfl | rfl <;> simp [haddr]⟩ (hnarrow p hp)

/-! ### Writing a command word twice -/

/-- What a command word leaves depends on the operands only, which it keeps, so running it again changes nothing
(20_memory.md R59). -/
theorem Port.executed_executed (q : Port) (w : CmdWord) : (q.executed w).executed w = q.executed w := by
  unfold Port.executed
  cases h : engine w q.opa q.opb <;> simp only [h]

theorem Port.written_cmd_written (q : Port) (v : Word) : (q.written 2 v).written 2 v = q.written 2 v := by
  by_cases hv : v.toNat < 2 ^ 32
  · rw [Port.written_cmd hv, Port.written_cmd hv, Port.executed_executed]
  · simp only [Port.written, if_pos (not_lt.mp hv)]

end Sys2Proof.Machine

section
open Sys2Proof Sys2Proof.Machine

/-- Settles O5: the first access is the `CMD` write, which runs the decoded command at the stored word. -/
theorem stepRunsDecodedCommand : Obligations.StepRunsDecodedCommand := by
  intro s p v rest i hhost hp hv hi
  exact (step_cons hhost).trans (regWrite_cmd_of_decode hp hv hi _)

/-- Settles O9: the access hits the slot, and its bytes leave out no bit of the value. -/
theorem busSlotIsRegister : Obligations.BusSlotIsRegister := by
  intro s p i size hp hsize
  have hslot := busSlot_register hp i hsize
  refine ⟨⟨_, _, busRead_slot hslot s, fun _ => rfl, rfl, rfl, length_leBytes .., littleEndian_leBytes _ _, ?_⟩, ?_⟩
  · intro q j
    refine performAccess_writeReply ?_ q j
    rw [Reply.value?, ofNat_ofLeBytes_leBytes (Port.read_lt hsize)]
  · rintro bs v rfl hbytes hfour
    have hv : v.toNat < 256 ^ bs.length := by
      rcases hsize with h | ⟨h, _⟩
      · rw [h]
        exact v.isLt
      · rw [h]
        exact hfour h
    exact (busWrite_slot hslot s).trans (congrArg (regWrite p i · s) (ofNat_ofLeBytes_littleEndian hbytes hv))

/-- Settles O10: what hits no slot is refused, whether it reads or writes. -/
theorem otherBusAccessesRefused : Obligations.OtherBusAccessesRefused := by
  intro s addr size hwide hnarrow
  have hslot := busSlot_eq_none hwide hnarrow
  refine ⟨busRead_noSlot hslot s, ?_⟩
  rintro bs rfl
  exact busWrite_noSlot hslot s

/-- Settles O11: `CMD`, `STATUS` and the reserved indices are 0 in every port that reset leaves. -/
theorem resetClearsCommandAndStatus : Obligations.ResetClearsCommandAndStatus := by
  refine ⟨fun p _ => ⟨0, 0, 0, State.reset_port p⟩, fun s p i hs hp hi => ?_⟩
  obtain ⟨opa, opb, res, hport⟩ := hs p hp
  refine ⟨_, regRead_present hp i s, ?_⟩
  rw [hport, Port.read_resetWith opa opb res hi]

/-- Settles O12: no port is listed, and a port that is not listed has `STATUS` 0. -/
theorem resetMeetsInvariant : Obligations.ResetMeetsInvariant :=
  ⟨portsWf_reset, fun _ he => (nomatch he), fun _ => List.mem_cons_self⟩

/-- Settles O14: idling changes nothing, and an access has the frame of the port it addresses. -/
theorem stepChangesOnePort : Obligations.StepChangesOnePort := by
  intro s t h
  rcases step_next h with ⟨hidle, rfl⟩ | ⟨x, rest, hhost, hx⟩
  · exact ⟨fun _ _ => rfl, fun x rest hc => (nomatch hidle.symm.trans hc)⟩
  · refine ⟨fun hc => (nomatch hhost.symm.trans hc), fun x' rest' hc => ?_⟩
    obtain ⟨rfl, rfl⟩ := List.cons.inj (hhost.symm.trans hc)
    obtain ⟨p, hport, hp, _, hframe⟩ := performAccess_frame hx
    exact ⟨p, hport, hp, hframe⟩

/-- Settles O16: the second write finds the operands of the first, and both leave the same port. -/
theorem repeatedCommandIsHarmless : Obligations.RepeatedCommandIsHarmless := by
  intro s t p v h
  have hp := (onPort_next h).1
  obtain ⟨t', ht', hport, _⟩ := regWrite_present hp 2 v s
  obtain rfl := Host.Outcome.next.inj (ht'.symm.trans h)
  obtain ⟨u, hu, huport, hframe, _⟩ := regWrite_present hp 2 v t'
  refine ⟨u, hu, fun q => ?_⟩
  rcases eq_or_ne q p with rfl | hq
  · rw [huport, hport, Port.written_cmd_written]
  · exact hframe q hq

end
end

section
/-! SUPPORT. What all commands share (spec/20_memory.md R54; spec/60_exceptions.md R301 to R304): which errors the command rules
raise, the invariant of the ports, and what a command leaves unchanged, with the statements O13 and O17 to O20. -/

namespace Sys2Proof.Machine

/-! ### The errors a command can end with

Of the errors of 60_exceptions.md R303 only TEXT_FORMAT has no legal status word: it is for a host library, so it is enough that
no rule of a command raises it. -/

/-- A value, or an error that the FDAE itself raises. -/
def RaisesNoTextFormat (r : Computed) : Prop := r ≠ .error (.invalidDomain .textFormat)

theorem statusWord_mem_legalStatus {e : CmdError} (h : e ≠ .invalidDomain .textFormat) : e.statusWord ∈ legalStatus := by
  cases e with
  | invalidDomain cause =>
    cases cause with
    | textFormat => exact absurd rfl h
    | sqrtNegative | powExponentRange | scaleRange => decide
  | illegalCommand cause => cases cause <;> decide
  | overflow | divByZero | roundingNecessary | notFinite => decide

theorem raisesNoTextFormat_ok {v : Int} : RaisesNoTextFormat (.ok v) := nofun

theorem raisesNoTextFormat_fit {ovf : OverflowMode} {r : Int} : RaisesNoTextFormat (fit ovf r) :=
  fun h => nomatch fit_error h

theorem raisesNoTextFormat_fitRounded {ovf : OverflowMode} {r : Computed} (h : RaisesNoTextFormat r) :
    RaisesNoTextFormat (fitRounded ovf r) := by
  cases r with
  | ok v => exact raisesNoTextFormat_fit
  | error e => exact h

/-- The increment table raises ROUNDING_NECESSARY only (41_rounding.md R126). -/
theorem increment_error {mode : RoundingMode} {sign : Int} {odd : Bool} {p : TruncatedPart} {e : CmdError}
    (h : increment mode sign odd p = .error e) : e = .roundingNecessary := by
  cases p <;> cases mode <;> cases h
  all_goals rfl

theorem raisesNoTextFormat_roundMagnitude {mode : RoundingMode} {sign : Int} {q : Nat} {p : TruncatedPart} :
    RaisesNoTextFormat (roundMagnitude mode sign q p) := by
  unfold roundMagnitude
  split
  · exact raisesNoTextFormat_ok
  · next e he => exact fun h => nomatch (increment_error he).symm.trans (Except.error.inj h)

theorem raisesNoTextFormat_rnd {mode : RoundingMode} {num den : Int} : RaisesNoTextFormat (rnd mode num den) :=
  raisesNoTextFormat_roundMagnitude

theorem raisesNoTextFormat_scale10 {mode : RoundingMode} {a e : Int} : RaisesNoTextFormat (scale10 mode a e) := by
  unfold scale10
  split
  · exact raisesNoTextFormat_ok
  · exact raisesNoTextFormat_rnd

theorem raisesNoTextFormat_shiftRight {sel : Selector} {a : Int} {n : Nat} : RaisesNoTextFormat (shiftRight sel a n) :=
  raisesNoTextFormat_rnd

theorem raisesNoTextFormat_computeDiv {sel : Selector} {a b : Int} : RaisesNoTextFormat (computeDiv sel a b) := by
  unfold computeDiv
  split
  · exact nofun
  · exact raisesNoTextFormat_fitRounded (raisesNoTextFormat_rnd)

theorem raisesNoTextFormat_computeSqrt {sel : Selector} {a : Int} : RaisesNoTextFormat (computeSqrt sel a) := by
  unfold computeSqrt
  split
  · exact nofun
  · exact raisesNoTextFormat_roundMagnitude

/-! #### POW -/

theorem raisesNoTextFormat_powIntStep {ovf : OverflowMode} {a : Int} {acc : Computed}
    (h : RaisesNoTextFormat acc) {b : Bool} : RaisesNoTextFormat (powIntStep ovf a acc b) := by
  unfold powIntStep
  split
  · exact h
  · split
    · next e he => exact he ▸ raisesNoTextFormat_fit
    · split
      · exact raisesNoTextFormat_fit
      · exact raisesNoTextFormat_ok

theorem raisesNoTextFormat_powInt {ovf : OverflowMode} {a : Int} {n : Nat} : RaisesNoTextFormat (powInt ovf a n) := by
  unfold powInt
  refine List.foldlRecOn _ _ (raisesNoTextFormat_ok) fun acc hacc b _ => ?_
  exact raisesNoTextFormat_powIntStep hacc

theorem raisesNoTextFormat_computePowInt {sel : Selector} {a n : Int} : RaisesNoTextFormat (computePowInt sel a n) := by
  unfold computePowInt powIntNeg
  split
  · exact raisesNoTextFormat_powInt
  · split
    · next e he => exact he ▸ raisesNoTextFormat_powInt
    · split
      · exact nofun
      · exact raisesNoTextFormat_rnd

theorem raisesNoTextFormat_unnorm {mode : RoundingMode} {sign : Int} {x : Num36} {s : Nat} :
    RaisesNoTextFormat (unnorm mode sign x s) := by
  unfold unnorm
  split <;> exact raisesNoTextFormat_rnd

theorem raisesNoTextFormat_unnormHuge {mode : RoundingMode} {ovf : OverflowMode} {sign : Int} {mant s k : Nat} :
    RaisesNoTextFormat (unnormHuge mode ovf sign mant s k) := by
  unfold unnormHuge
  split
  · next e he => exact fun h => nomatch (increment_error he).symm.trans (Except.error.inj h)
  · cases ovf <;> exact nofun

theorem raisesNoTextFormat_unnormFit {mode : RoundingMode} {ovf : OverflowMode} {sign : Int} {x : Num36} {s : Nat} :
    RaisesNoTextFormat (unnormFit mode ovf sign x s) := by
  unfold unnormFit
  split_ifs
  · exact raisesNoTextFormat_fitRounded (raisesNoTextFormat_unnorm)
  · exact raisesNoTextFormat_fitRounded (raisesNoTextFormat_unnorm)
  · exact raisesNoTextFormat_unnormHuge

theorem raisesNoTextFormat_computePow {sel : Selector} {a n : Int} : RaisesNoTextFormat (computePow sel a n) := by
  unfold computePow
  split_ifs
  · exact nofun
  · exact raisesNoTextFormat_ok
  · exact raisesNoTextFormat_ok
  · exact nofun
  · exact raisesNoTextFormat_computePowInt
  · exact raisesNoTextFormat_ok
  · exact raisesNoTextFormat_fitRounded (raisesNoTextFormat_rnd)
  · exact raisesNoTextFormat_fitRounded (raisesNoTextFormat_rnd)
  · exact raisesNoTextFormat_unnormFit

/-! #### FROMDBL -/

theorem decodeDouble_error {v : Word} {e : CmdError} (h : decodeDouble v = .error e) : e = .notFinite := by
  unfold decodeDouble at h
  split_ifs at h
  exact (Except.error.inj h).symm

theorem fromdblMagnitude_error {mode : RoundingMode} {sign e2 : Int} {n : Nat} {e : CmdError}
    (h : fromdblMagnitude mode sign n e2 = .error e) : e = .roundingNecessary := by
  unfold fromdblMagnitude at h
  split at h
  · cases h
  · split at h
    · cases h
    · next he => exact Except.error.inj h ▸ (rnd_error he).2

theorem raisesNoTextFormat_fromdblFinite {sel : Selector} {d : DoubleValue} :
    RaisesNoTextFormat (fromdblFinite sel d) := by
  unfold fromdblFinite fromdblFit
  split
  · exact raisesNoTextFormat_ok
  · split
    · next e he => exact fun h => nomatch (fromdblMagnitude_error he).symm.trans (Except.error.inj h)
    · split <;> exact nofun

theorem raisesNoTextFormat_computeFromdbl {sel : Selector} {v : Word} : RaisesNoTextFormat (computeFromdbl sel v) := by
  unfold computeFromdbl
  split
  · next e he => exact fun h => nomatch (decodeDouble_error he).symm.trans (Except.error.inj h)
  · exact raisesNoTextFormat_fromdblFinite

/-! #### Every command -/

/-- A command but NOP ends with what its rule computes, which is never TEXT_FORMAT (60_exceptions.md R303). -/
theorem commandResult_cases (i : Instr) (a b : Word) :
    ((∃ sel, i = .nop sel) ∧ commandResult i a b = .okNoValue) ∨
    (∃ r, RaisesNoTextFormat r ∧ commandResult i a b = .ofComputed r) := by
  cases i with
  | nop sel => exact .inl ⟨⟨sel, rfl⟩, rfl⟩
  | add | sub | neg | abs | fromlong => exact .inr ⟨_, raisesNoTextFormat_fit, rfl⟩
  | avg | tolong => exact .inr ⟨_, raisesNoTextFormat_rnd, rfl⟩
  | shl =>
    refine .inr ⟨_, ?_, rfl⟩
    unfold computeShl
    split
    · exact raisesNoTextFormat_fit
    · exact raisesNoTextFormat_shiftRight
  | shr =>
    refine .inr ⟨_, ?_, rfl⟩
    unfold computeShr
    split
    · exact raisesNoTextFormat_shiftRight
    · exact raisesNoTextFormat_fit
  | mul | sqr => exact .inr ⟨_, raisesNoTextFormat_fitRounded (raisesNoTextFormat_rnd), rfl⟩
  | div | inv => exact .inr ⟨_, raisesNoTextFormat_computeDiv, rfl⟩
  | sqrt => exact .inr ⟨_, raisesNoTextFormat_computeSqrt, rfl⟩
  | pow => exact .inr ⟨_, raisesNoTextFormat_computePow, rfl⟩
  | mulp10 | divp10 | fromunsc | tounsc =>
    exact .inr ⟨_, raisesNoTextFormat_fitRounded (raisesNoTextFormat_scale10), rfl⟩
  | fromdbl => exact .inr ⟨_, raisesNoTextFormat_computeFromdbl, rfl⟩
  | todbl | modsf | metric => exact .inr ⟨_, raisesNoTextFormat_ok, rfl⟩

theorem commandResult_err {i : Instr} {a b : Word} {e : CmdError} (h : commandResult i a b = .err e) :
    e ≠ .invalidDomain .textFormat := by
  rcases commandResult_cases i a b with ⟨_, hc⟩ | ⟨r, hr, hc⟩ <;> rw [hc] at h
  · cases h
  · cases r with
    | ok v => cases h
    | error e' =>
      obtain rfl := CmdResult.err.inj h
      exact fun he => hr (congrArg _ he)

theorem ofDecode_ne_textFormat (e : DecodeError) : CmdError.ofDecode e ≠ .invalidDomain .textFormat := by
  cases e <;> exact nofun

theorem engine_err {w : CmdWord} {a b : Word} {e : CmdError} (h : engine w a b = .err e) :
    e ≠ .invalidDomain .textFormat := by
  cases hd : decode w with
  | error d =>
    rw [engine_error hd] at h
    exact CmdResult.err.inj h ▸ ofDecode_ne_textFormat d
  | ok i =>
    rw [engine_ok hd] at h
    exact commandResult_err h

/-! ### The invariant -/

/-- A write to an existing port keeps the invariant when it leaves a legal `STATUS`. -/
theorem State.Inv.setCur {s : State} (h : s.Inv) (hp : Config.hasPort s.active = true) {q : Port}
    (hq : q.status ∈ legalStatus) : (s.setCur q).Inv := by
  obtain ⟨hwf, hports, hstatus⟩ := h
  refine ⟨portsWf_setPort _ _ hwf, fun e he => ?_, fun r => ?_⟩
  · rcases mem_setPort he with rfl | he
    · exact hp
    · exact hports e he
  · rw [State.port_setCur]
    split
    · exact hq
    · exact hstatus r

theorem State.Inv.cur_status {s : State} (h : s.Inv) : s.cur.status ∈ legalStatus := h.2.2 s.active

theorem zero_mem_legalStatus : (0 : CmdWord) ∈ legalStatus := List.mem_cons_self

theorem State.Inv.finish {s : State} (h : s.Inv) (hp : Config.hasPort s.active = true) {o : CmdResult}
    (ho : ∀ e, o = .err e → e ≠ .invalidDomain .textFormat) : (finish o s).Inv := by
  rcases finish_cases o s with ⟨v, _, hf⟩ | ⟨_, hf⟩ | ⟨e, he, hf⟩ <;> rw [hf]
  · exact h.setCur hp zero_mem_legalStatus
  · exact h.setCur hp zero_mem_legalStatus
  · exact h.setCur hp (statusWord_mem_legalStatus (ho e he))

theorem State.Inv.writeReg {s t : State} (h : s.Inv) (hp : Config.hasPort s.active = true) {i : Fin 8} {v : Word}
    (hw : writeReg i v s = .next t) : t.Inv := by
  match i with
  | 0 | 1 => cases hw; exact h.setCur hp h.cur_status
  | 2 =>
    have hstored := h.setCur hp (q := { s.cur with cmd := v.setWidth 32 }) h.cur_status
    rcases writeCmd_cases v s with ⟨_, hc⟩ | ⟨_, hc⟩ <;> obtain rfl := Host.Outcome.next.inj (hc.symm.trans hw)
    · exact hstored.setCur hp (statusWord_mem_legalStatus nofun)
    · exact hstored.finish hp fun e he => engine_err he
  | 3 | 4 | 5 | 6 | 7 => cases hw; exact h

/-- The model's own fields are no part of the invariant. -/
theorem State.Inv.of_ports {s t : State} (h : s.Inv) (hports : t.ports = s.ports) : t.Inv := by
  unfold State.Inv State.port at *
  rwa [hports]

theorem State.Inv.performAccess {s t : State} (h : s.Inv) {x : Access} (hx : performAccess x s = .next t) : t.Inv := by
  obtain ⟨p, _, hp, ⟨r, rfl⟩ | ⟨i, v, _, hw⟩⟩ := performAccess_next hx
  · exact h.of_ports rfl
  · exact State.Inv.writeReg (s := { s with active := p }) (h.of_ports rfl) hp hw

/-! ### The frame of a command -/

theorem exec_next {i : Instr} {s t : State} (h : exec i s = .next t) :
    t = finish (commandResult i s.cur.opa s.cur.opb) s :=
  (Host.Outcome.next.inj ((exec_eq_finish i s).symm.trans h)).symm

/-- Everything the end of a command does to the addressed port. -/
theorem cur_finish (o : CmdResult) (s : State) :
    (finish o s).cur =
      { s.cur with
        res := (match o with | .ok v => u64 v | .okNoValue => s.cur.res | .err _ => s.cur.res)
        status := (match o with | .ok _ => statusOk | .okNoValue => statusOk | .err e => e.statusWord) } := by
  rw [State.cur, finish_active]
  exact (port_finish o s s.active).trans (if_pos rfl)

theorem statusWord_ne_zero (e : CmdError) : e.statusWord ≠ 0 := by
  cases e with
  | invalidDomain cause | illegalCommand cause => cases cause <;> decide
  | overflow | divByZero | roundingNecessary | notFinite => decide

/-- Only NOP ends without a value (30_encoding.md R79). -/
theorem eq_nop_of_commandResult {i : Instr} {a b : Word} (h : commandResult i a b = .okNoValue) : ∃ sel, i = .nop sel := by
  rcases commandResult_cases i a b with ⟨hnop, _⟩ | ⟨r, _, hc⟩
  · exact hnop
  · rw [hc] at h
    cases r <;> cases h

end Sys2Proof.Machine

section
open Sys2Proof Sys2Proof.Machine

/-- Settles O13: a step idles or performs one access, and what an access writes to its port has a legal `STATUS`. -/
theorem stepKeepsInvariant : Obligations.StepKeepsInvariant := by
  intro s t hs h
  rcases step_next h with ⟨_, rfl⟩ | ⟨x, rest, _, hx⟩
  · exact hs
  · exact State.Inv.performAccess (s := { s with host := rest }) (hs.of_ports rfl) hx

/-- Settles O17: both write the addressed port, and the laws of the port list say what that does to the others. -/
theorem resultAndStatusWrites : Obligations.ResultAndStatusWrites := by
  intro s r w q
  refine ⟨?_, ?_, rfl, rfl, rfl, rfl, rfl, rfl⟩
  · rw [State.port_withResult]
    split
    · next h => rw [h]; rfl
    · rfl
  · rw [State.port_withStatus]
    split
    · next h => rw [h]; rfl
    · rfl

/-- Settles O18: a command ends in `finish`, which writes `RES` with a value and `STATUS` 0, or `STATUS` alone. -/
theorem commandFrame : Obligations.CommandFrame := by
  intro i s t h
  obtain rfl := exec_next h
  have hcur := cur_finish (commandResult i s.cur.opa s.cur.opb) s
  refine ⟨fun q hq => ?_, ?_, ?_, ?_, finish_host .., finish_reply .., finish_active .., fun hne => ?_, ?_⟩
  · rw [port_finish, if_neg hq]
  · rw [hcur]
  · rw [hcur]
  · rw [hcur]
  · rw [hcur] at hne ⊢
    cases ho : commandResult i s.cur.opa s.cur.opb with
    | ok v => rw [ho] at hne; exact absurd rfl hne
    | okNoValue => rfl
    | err e => rfl
  · rintro ⟨sel, rfl⟩
    rw [hcur]
    rfl

/-- Settles O19: both commands end with one outcome; `STATUS` 0 excludes an error, and only NOP has no value. -/
theorem outcomeDependsOnOperandsOnly : Obligations.OutcomeDependsOnOperandsOnly := by
  intro i s t s' t' ha hb h h'
  obtain rfl := exec_next h
  obtain rfl := exec_next h'
  rw [cur_finish, cur_finish, ← ha, ← hb]
  cases ho : commandResult i s.cur.opa s.cur.opb with
  | ok v => exact ⟨rfl, fun _ _ => rfl⟩
  | okNoValue =>
    obtain ⟨sel, hnop⟩ := eq_nop_of_commandResult ho
    exact ⟨rfl, fun _ hne => absurd hnop (hne sel)⟩
  | err e => exact ⟨rfl, fun hz _ => absurd hz (statusWord_ne_zero e)⟩

/-- Settles O20: the rules of these commands have no argument for the operand they do not read. -/
theorem unusedOperandsIgnored : Obligations.UnusedOperandsIgnored := by
  intro sel aux k a a' b b'
  simp only [List.forall_mem_cons, List.not_mem_nil, false_implies, implies_true, and_true]
  exact ⟨⟨rfl, rfl, rfl, rfl, rfl, rfl, rfl, rfl, rfl, rfl, rfl, rfl⟩, rfl, rfl⟩

end
end

section
/-! SUPPORT. Accesses of one port see nothing of the others (spec/20_memory.md R61(b)), with the statement O15. -/

namespace Sys2Proof.Machine

/-- What a register write leaves in the addressed port depends on that port only (20_memory.md R53). -/
theorem regWrite_of_port_eq {p : Nat} {i : Fin 8} {v : Word} {s s' t : State} (hport : s'.port p = s.port p)
    (h : regWrite p i v s = .next t) : ∃ t', regWrite p i v s' = .next t' ∧ t'.port p = t.port p := by
  have hp := (onPort_next h).1
  obtain ⟨u, hu, huport, _⟩ := regWrite_present hp i v s
  obtain ⟨t', ht', htport, _⟩ := regWrite_present hp i v s'
  obtain rfl := Host.Outcome.next.inj (hu.symm.trans h)
  exact ⟨t', ht', by rw [htport, huport, hport]⟩

/-- An access that names its value runs, and leaves and answers the same, in every state that agrees on its port. -/
theorem performAccess_of_port_eq {x : Access} {p : Nat} {s s' t : State} (hx : x.port? = some p)
    (hnamed : x.feedsBack = false) (hport : s'.port p = s.port p) (h : performAccess x s = .next t) :
    ∃ t', performAccess x s' = .next t' ∧ t'.port p = t.port p ∧ (x.isRead = true → t'.reply = t.reply) := by
  cases x with
  | regRead q i =>
    obtain rfl := Option.some.inj hx
    obtain ⟨hp, rfl⟩ := regRead_next h
    exact ⟨_, regRead_present hp i s', hport, fun _ => by rw [hport]⟩
  | regWrite q i v =>
    obtain rfl := Option.some.inj hx
    obtain ⟨t', ht', heq⟩ := regWrite_of_port_eq hport h
    exact ⟨t', ht', heq, nofun⟩
  | writeReply q i => cases hnamed
  | busRead addr size =>
    obtain ⟨⟨q, i⟩, hslot, rfl⟩ := Option.map_eq_some_iff.mp hx
    obtain rfl := Host.Outcome.next.inj ((busRead_slot hslot s).symm.trans h)
    exact ⟨_, busRead_slot hslot s', hport, fun _ => by rw [hport]⟩
  | busWrite addr bs =>
    obtain ⟨⟨q, i⟩, hslot, rfl⟩ := Option.map_eq_some_iff.mp hx
    obtain ⟨t', ht', heq⟩ := regWrite_of_port_eq hport ((busWrite_slot hslot s).symm.trans h)
    exact ⟨t', (busWrite_slot hslot s').trans ht', heq, nofun⟩

/-- The accesses of a port run alone as they run among others, from any two states that agree on that port. -/
theorem performAll_filter_port {p : Nat} {xs : List Access} {s s' t : State} (hnamed : ∀ x ∈ xs, x.feedsBack = false)
    (hport : s'.port p = s.port p) (h : performAll xs s = .next t) :
    ∃ u, performAll (xs.filter (fun x => x.port? == some p)) s' = .next u ∧ u.port p = t.port p ∧
      portAnswers p (xs.filter (fun x => x.port? == some p)) s' = portAnswers p xs s := by
  induction xs generalizing s s' with
  | nil =>
    obtain rfl := Host.Outcome.next.inj h
    exact ⟨s', rfl, hport, rfl⟩
  | cons x rest ih =>
    obtain ⟨hx, hrest⟩ := List.forall_mem_cons.mp hnamed
    obtain ⟨m, hm, hmt⟩ := performAll_cons_next.mp h
    by_cases hxp : x.port? = some p
    · obtain ⟨m', hm', hmport, hreply⟩ := performAccess_of_port_eq hxp hx hport hm
      obtain ⟨u, hu, huport, hanswers⟩ := ih hrest hmport hmt
      rw [List.filter_cons_of_pos (by simpa using hxp)]
      refine ⟨u, performAll_cons_next.mpr ⟨m', hm', hu⟩, huport, ?_⟩
      rw [portAnswers_cons hm', portAnswers_cons hm, hanswers]
      split
      · next hread => rw [hreply hread.1]
      · rfl
    · have hkept : s'.port p = m.port p := by
        obtain ⟨q, hq, _, _, hframe⟩ := performAccess_frame hm
        rw [hport, hframe p fun hpq => hxp (hpq ▸ hq)]
      obtain ⟨u, hu, huport, hanswers⟩ := ih hrest hkept hmt
      rw [List.filter_cons_of_neg (by simpa using hxp)]
      exact ⟨u, hu, huport, by rw [portAnswers_cons hm, if_neg fun hc => hxp hc.2, hanswers]⟩

end Sys2Proof.Machine

section
open Sys2Proof Sys2Proof.Machine

/-- Settles O15: the runs of all accesses and of those of port `p` agree on that port from the start. -/
theorem interleavingKeepsPortValues : Obligations.InterleavingKeepsPortValues :=
  fun _ _ _ _ hnamed h => performAll_filter_port hnamed rfl h

end
end

section
/-! SUPPORT. The properties of the closed forms (spec/41_rounding.md R127): error, symmetry, and the class of a power-of-two
remainder (R123), with the statements O21 to O23. -/

namespace Sys2Proof.Machine

/-- Every mode but UNNECESSARY is total (41_rounding.md R127(b)). -/
theorem rnd_of_ne_unnecessary {mode : RoundingMode} (hm : mode ≠ .unnecessary) (num : Int) {den : Int} (h : den ≠ 0) :
    rnd mode num den = .ok (roundRat mode ((num : ℚ) / den)) := by
  rw [rnd_eq_roundRat mode num h, if_neg fun hc => hm hc.1]

theorem eq_roundRat_of_rnd_eq_ok {mode : RoundingMode} {num den r : Int} (h : den ≠ 0) (hr : rnd mode num den = .ok r) :
    r = roundRat mode ((num : ℚ) / den) := by
  rw [rnd_eq_roundRat mode num h] at hr
  split at hr
  · cases hr
  · exact (Except.ok.inj hr).symm

/-- An exact quotient needs no rounding (41_rounding.md R127(c)). -/
theorem rnd_mul_self (mode : RoundingMode) (q : Int) {den : Int} (h : den ≠ 0) : rnd mode (q * den) den = .ok q := by
  have hden : (den : ℚ) ≠ 0 := Int.cast_ne_zero.mpr h
  rw [rnd_eq_roundRat mode _ h, if_neg fun hc => hc.2 (dvd_mul_left den q), Int.cast_mul, mul_div_cancel_right₀ _ hden,
    roundRat_intCast]

/-! ### The error of the closed forms -/

theorem abs_nearestEven_sub_le (x : ℚ) : |(nearestEven x : ℚ) - x| ≤ 1 / 2 := by
  have hlow := Int.floor_le x
  have hhigh := Int.lt_floor_add_one x
  unfold nearestEven
  split_ifs <;> push_cast <;> rw [abs_le] <;> constructor <;> linarith

theorem abs_roundRat_sub_le_half {mode : RoundingMode} (hm : mode = .halfUp ∨ mode = .halfDown ∨ mode = .halfEven) (x : ℚ) :
    |(roundRat mode x : ℚ) - x| ≤ 1 / 2 := by
  rcases hm with rfl | rfl | rfl
  · have hfloor (y : ℚ) : |(⌊y + 1 / 2⌋ : ℚ) - y| ≤ 1 / 2 :=
      abs_le.mpr ⟨by linarith [Int.lt_floor_add_one (y + 1 / 2)], by linarith [Int.floor_le (y + 1 / 2)]⟩
    rw [roundRat]
    split
    · rw [Int.cast_neg, ← abs_neg, neg_sub, sub_neg_eq_add, add_comm, ← sub_neg_eq_add]
      exact hfloor (-x)
    · exact hfloor x
  · have hceil (y : ℚ) : |(⌈y - 1 / 2⌉ : ℚ) - y| ≤ 1 / 2 :=
      abs_le.mpr ⟨by linarith [Int.le_ceil (y - 1 / 2)], by linarith [Int.ceil_lt_add_one (y - 1 / 2)]⟩
    rw [roundRat]
    split
    · rw [Int.cast_neg, ← abs_neg, neg_sub, sub_neg_eq_add, add_comm, ← sub_neg_eq_add]
      exact hceil (-x)
    · exact hceil x
  · exact abs_nearestEven_sub_le x

theorem abs_roundRat_sub_lt_one (mode : RoundingMode) (x : ℚ) : |(roundRat mode x : ℚ) - x| < 1 := by
  have hfloor (y : ℚ) : |(⌊y⌋ : ℚ) - y| < 1 :=
    abs_lt.mpr ⟨by linarith [Int.lt_floor_add_one y], by linarith [Int.floor_le y]⟩
  have hceil (y : ℚ) : |(⌈y⌉ : ℚ) - y| < 1 :=
    abs_lt.mpr ⟨by linarith [Int.le_ceil y], by linarith [Int.ceil_lt_add_one y]⟩
  cases mode with
  | up =>
    rw [roundRat, Int.ceil_neg, neg_neg]
    split
    · exact hfloor x
    · exact hceil x
  | down =>
    rw [roundRat, Int.floor_neg, neg_neg]
    split
    · exact hceil x
    · exact hfloor x
  | ceiling => exact hceil x
  | floor | unnecessary => exact hfloor x
  | halfUp => exact (abs_roundRat_sub_le_half (.inl rfl) x).trans_lt (by norm_num)
  | halfDown => exact (abs_roundRat_sub_le_half (.inr (.inl rfl)) x).trans_lt (by norm_num)
  | halfEven => exact (abs_roundRat_sub_le_half (.inr (.inr rfl)) x).trans_lt (by norm_num)

/-! ### Symmetry of the directed modes (41_rounding.md R127(e)) -/

theorem roundRat_up_neg (x : ℚ) : roundRat .up (-x) = -roundRat .up x := by
  rcases lt_trichotomy x 0 with h | rfl | h
  · simp only [roundRat, neg_lt_zero, if_pos h, if_neg h.not_gt, neg_neg]
  · rfl
  · simp only [roundRat, neg_lt_zero, if_pos h, if_neg h.not_gt, neg_neg]

theorem roundRat_down_neg (x : ℚ) : roundRat .down (-x) = -roundRat .down x := by
  rcases lt_trichotomy x 0 with h | rfl | h
  · simp only [roundRat, neg_lt_zero, if_pos h, if_neg h.not_gt, neg_neg]
  · rfl
  · simp only [roundRat, neg_lt_zero, if_pos h, if_neg h.not_gt, neg_neg]

theorem roundRat_floor_neg (x : ℚ) : roundRat .floor (-x) = -roundRat .ceiling x := Int.floor_neg

theorem roundRat_ceiling_neg (x : ℚ) : roundRat .ceiling (-x) = -roundRat .floor x := Int.ceil_neg

/-- A mode whose closed form is that of another mode, mirrored, rounds the opposite ratio to the opposite value. -/
theorem rnd_neg_of_roundRat {mode mode' : RoundingMode} (hm : mode' ≠ .unnecessary)
    (hmirror : ∀ x, roundRat mode' (-x) = -roundRat mode x) {num den r : Int} (h : den ≠ 0)
    (hr : rnd mode num den = .ok r) : rnd mode' (-num) den = .ok (-r) := by
  rw [rnd_of_ne_unnecessary hm _ h, Int.cast_neg, neg_div, hmirror, ← eq_roundRat_of_rnd_eq_ok h hr]

end Sys2Proof.Machine

section
open Sys2Proof Sys2Proof.Machine

/-- Settles O21: the closed form of `rnd` with the case in which it raises. -/
theorem roundingIsClosedForm : Obligations.RoundingIsClosedForm :=
  fun mode num _ h => rnd_eq_roundRat mode num h

/-- Settles O22: each clause is the one of the closed form. -/
theorem roundingProperties : Obligations.RoundingProperties := by
  intro mode num den h
  refine ⟨fun hm => ⟨_, rnd_of_ne_unnecessary hm num h⟩, ?_, fun r hr => ?_, fun r hm hr => ?_, fun r => ⟨?_, ?_, ?_, ?_⟩⟩
  · rintro q rfl
    exact rnd_mul_self mode q h
  · rw [eq_roundRat_of_rnd_eq_ok h hr]
    exact abs_roundRat_sub_lt_one ..
  · rw [eq_roundRat_of_rnd_eq_ok h hr]
    exact abs_roundRat_sub_le_half hm _
  · exact rnd_neg_of_roundRat (by decide) roundRat_up_neg h
  · exact rnd_neg_of_roundRat (by decide) roundRat_down_neg h
  · exact rnd_neg_of_roundRat (by decide) roundRat_floor_neg h
  · exact rnd_neg_of_roundRat (by decide) roundRat_ceiling_neg h

/-- Settles O23: the remainder is the half bit times the half plus the bits below it. -/
theorem powerOfTwoClass : Obligations.PowerOfTwoClass := by
  intro m k hk
  obtain ⟨j, rfl⟩ := Nat.exists_eq_add_of_le' hk
  have hsplit : m % 2 ^ (j + 1) = m % 2 ^ j + 2 ^ j * (m.testBit j).toNat := by
    rw [Nat.mod_pow_succ, Nat.toNat_testBit]
  have hlow : m % 2 ^ j < 2 ^ j := Nat.mod_lt _ (by positivity)
  have hpow : 2 ^ (j + 1) = 2 * 2 ^ j := pow_succ' ..
  rw [Nat.add_sub_cancel]
  split_ifs with hzero hbit hbelow
  · exact part_eq_zero.mpr hzero
  · rw [hbit, Bool.toNat_false, mul_zero] at hsplit
    exact part_eq_lessThanHalf.mpr ⟨hzero, by omega⟩
  all_goals rw [Bool.not_eq_false] at hbit; rw [hbit, Bool.toNat_true, mul_one] at hsplit
  · exact part_eq_equalToHalf.mpr ⟨hzero, by omega⟩
  · exact part_eq_greaterThanHalf.mpr ⟨hzero, by omega⟩

end
end

section
/-! SUPPORT. Scales whose factor is a 64-bit value, exact quotients, and the way back from another scale
(spec/40_scale_metrics.md R103, spec/43_mul_div.md R185, spec/45_scaling.md R237), with the statements O36, O53 and O58. -/

namespace Sys2Proof.Machine

theorem Selector.wf_iff (sel : Selector) : sel.wf = true ↔ sel.scale.toNat ≤ 18 := decide_eq_true_iff

theorem selSF_pos (sel : Selector) : 0 < selSF sel := by
  rw [selSF_eq]
  positivity

/-- The scale factor of a legal scale is in the range (40_scale_metrics.md R100). -/
theorem selSF_le {sel : Selector} (h : sel.wf = true) : selSF sel ≤ 10 ^ 18 := by
  rw [selSF_eq]
  exact pow_le_pow_right₀ (by decide) ((Selector.wf_iff sel).mp h)

theorem selSF_inRange {sel : Selector} (h : sel.wf = true) : MIN ≤ selSF sel ∧ selSF sel ≤ MAX := by
  have hpos := selSF_pos sel
  have hle := selSF_le h
  rw [min_eq, max_eq]
  omega

/-! ### DIV where the quotient is exact -/

/-- A decimal quotient that is an integer in the range is the result in every mode (43_mul_div.md R178). -/
theorem computeDiv_exact {sel : Selector} {a b q : Int} (hb : b ≠ 0) (hq : a * selSF sel = q * b)
    (hrange : MIN ≤ q ∧ q ≤ MAX) : computeDiv sel a b = .ok q := by
  rw [computeDiv, if_neg hb, hq, rnd_mul_self _ _ hb, fitRounded_ok, fit_inRange hrange]

/-! ### The way back from another scale -/

theorem fit_ok_inRange {ovf : OverflowMode} {r v : Int} (h : fit ovf r = .ok v) : MIN ≤ v ∧ v ≤ MAX := by
  rcases fit_cases ovf r with ⟨_, _, hr⟩ | hr <;> rw [hr] at h
  · cases h
  · exact Except.ok.inj h ▸ wrap64_bounds r

theorem fitRounded_ok_inRange {ovf : OverflowMode} {r : Computed} {v : Int} (h : fitRounded ovf r = .ok v) :
    MIN ≤ v ∧ v ≤ MAX := by
  cases r with
  | ok w => exact fit_ok_inRange h
  | error e => cases h

/-- Re-expressing `v` at a scale where it is exactly `u` gives `u` (45_scaling.md R237). -/
theorem fitRounded_scale10_exact (ovf : OverflowMode) (mode : RoundingMode) {u v : Int} {m n : Nat}
    (hu : MIN ≤ u ∧ u ≤ MAX) (hv : MIN ≤ v ∧ v ≤ MAX) (hexact : v * 10 ^ m = u * 10 ^ n) :
    fitRounded ovf (scale10 mode v ((m : Int) - n)) = .ok u := by
  have hpos (k : Nat) : (10 ^ k : Int) ≠ 0 := by positivity
  rcases le_or_gt n m with h | h
  · obtain ⟨k, rfl⟩ := Nat.exists_eq_add_of_le h
    have hvalue : v * 10 ^ k = u := mul_right_cancel₀ (hpos n) (by rw [← hexact]; ring)
    rw [fitRounded_scale10_nonneg _ _ _ (by omega), show ((n + k : Nat) - n : Int).toNat = k by omega, hvalue,
      fit_inRange hu]
  · obtain ⟨k, rfl⟩ := Nat.exists_eq_add_of_le h.le
    have hvalue : v = u * (10 ^ k : Nat) := mul_right_cancel₀ (hpos m) (by rw [hexact]; push_cast; ring)
    rw [scale10_neg _ hv (by omega), show (-((m : Int) - (m + k : Nat))).toNat = k by omega, hvalue,
      rnd_mul_self _ _ (by positivity), fitRounded_ok, fit_inRange hu]

end Sys2Proof.Machine

section
open Sys2Proof Sys2Proof.Machine

/-- Settles O36: in (a) to (c) the quotient is exact and in the range, and (d) is tested first. -/
theorem divisionIdentities : Obligations.DivisionIdentities := by
  intro sel s hwf
  have hnext {q : Int} (hb : s.opB ≠ 0) (hq : s.opA * selSF sel = q * s.opB) (hrange : MIN ≤ q ∧ q ≤ MAX) :
      exec (.div sel) s = .next (s.withResult q) := by
    rw [exec_div, computeDiv_exact hb hq hrange, conclude_ok]
  rw [← selSF_eq]
  refine ⟨fun hb hab => ?_, fun hb => ?_, fun hb ha => ?_, fun hb => ?_⟩
  · exact hnext hb (by rw [hab, mul_comm]) (selSF_inRange hwf)
  · exact hnext (by rw [hb]; exact selSF_ne_zero sel) (by rw [hb]) s.opA_bounds
  · exact hnext hb (by rw [ha, zero_mul, zero_mul]) (by decide)
  · rw [exec_div, hb, conclude_computeDiv_zero]

/-- Settles O53: an exact change of scale is undone exactly, and what it undoes is in the range. -/
theorem scaleRoundTrip : Obligations.ScaleRoundTrip := by
  intro sel sel' x u v hscale hmin hmax
  refine ⟨fun hto hexact => ?_, fun _ hv => ?_⟩
  · have hcross : v * 10 ^ sel.scale.toNat = u * 10 ^ x.toNat := by
      rw [eq_div_iff (by positivity)] at hexact
      exact_mod_cast hexact
    rw [computeFromunsc, selScale, hscale]
    exact fitRounded_scale10_exact _ _ ⟨hmin, hmax⟩ (fitRounded_ok_inRange hto) hcross
  · rw [computeTolong, hv, ← hscale, ← selSF_eq, rnd_mul_self _ _ (selSF_ne_zero sel')]

/-- Settles O58: both bounds are quotients, so each is a bound on the product. -/
theorem integerPartBounds : Obligations.IntegerPartBounds := by
  intro s x _
  have hpos : (0 : Int) < 10 ^ s := by positivity
  have hmin : -(-MIN / 10 ^ s) ≤ x ↔ MIN ≤ x * 10 ^ s := by
    rw [neg_le, Int.le_ediv_iff_mul_le hpos, neg_mul, neg_le_neg_iff]
  rw [lut_minInt, lut_maxInt, Int.le_ediv_iff_mul_le hpos, hmin]

end
end

section
/-! SUPPORT. The 64-bit overflow tests and the floor average (spec/42_checked_primitives.md R145, R147, R149, R150, R152), with the
statement O31. -/

namespace Sys2Proof.Machine

/-! ### The sign bit and the signed reading -/

theorem s64_eq_ite (v : Word) : s64 v = if v.msb then (v.toNat : Int) - 2 ^ 64 else (v.toNat : Int) := BitVec.toInt_eq_msb_cond v

theorem getLsbD_sign (v : Word) : v.getLsbD 63 = decide (s64 v < 0) :=
  (BitVec.msb_eq_getLsbD_last v).symm.trans BitVec.msb_eq_toInt

theorem s64_nonneg {v : Word} (h : 0 ≤ s64 v) : s64 v = v.toNat := by
  rw [s64_eq_ite, if_neg]
  rw [BitVec.msb_eq_toInt, decide_eq_true_iff]
  exact h.not_gt

theorem s64_neg {v : Word} (h : s64 v < 0) : s64 v = v.toNat - 2 ^ 64 := by
  rw [s64_eq_ite, if_pos]
  rw [BitVec.msb_eq_toInt, decide_eq_true_iff]
  exact h

theorem wrap64_eq_bmod (x : Int) : wrap64 x = x.bmod (2 ^ 64) := BitVec.toInt_ofInt x

theorem s64_add (a b : Word) : s64 (a + b) = wrap64 (s64 a + s64 b) := by
  rw [wrap64_eq_bmod]
  exact BitVec.toInt_add a b

theorem s64_sub (a b : Word) : s64 (a - b) = wrap64 (s64 a - s64 b) := by
  rw [wrap64_eq_bmod]
  exact BitVec.toInt_sub

theorem s64_mul (a b : Word) : s64 (a * b) = wrap64 (s64 a * s64 b) := by
  rw [wrap64_eq_bmod]
  exact BitVec.toInt_mul a b

/-- A wrapped value is the exact one exactly where that is in the range. -/
theorem wrap64_eq_self_iff (x : Int) : wrap64 x = x ↔ MIN ≤ x ∧ x ≤ MAX :=
  ⟨fun h => h ▸ wrap64_bounds x, wrap64_of_inRange⟩

/-! ### Add and subtract (R149) -/

/-- A sum overflows exactly when its wrapped sign is the sign of neither operand. -/
theorem addOverflows_iff (a b : Word) : addOverflows a b = true ↔ ¬ (MIN ≤ s64 a + s64 b ∧ s64 a + s64 b ≤ MAX) := by
  obtain ⟨k, hk⟩ := wrap64_congr (s64 a + s64 b)
  have ha := s64_bounds a
  have hb := s64_bounds b
  have hr := wrap64_bounds (s64 a + s64 b)
  rw [addOverflows, BitVec.getLsbD_and, BitVec.getLsbD_xor, BitVec.getLsbD_xor, getLsbD_sign, getLsbD_sign, getLsbD_sign,
    s64_add]
  simp only [Bool.and_eq_true, ← Bool.bne_eq_xor, bne_iff_ne, ne_eq, decide_eq_decide]
  rw [min_eq, max_eq] at *
  omega

/-- A difference overflows exactly when the signs of the operands differ and the wrapped sign is not that of the first. -/
theorem subOverflows_iff (a b : Word) : subOverflows a b = true ↔ ¬ (MIN ≤ s64 a - s64 b ∧ s64 a - s64 b ≤ MAX) := by
  obtain ⟨k, hk⟩ := wrap64_congr (s64 a - s64 b)
  have ha := s64_bounds a
  have hb := s64_bounds b
  have hr := wrap64_bounds (s64 a - s64 b)
  rw [subOverflows, BitVec.getLsbD_and, BitVec.getLsbD_xor, BitVec.getLsbD_xor, getLsbD_sign, getLsbD_sign, getLsbD_sign,
    s64_sub]
  simp only [Bool.and_eq_true, ← Bool.bne_eq_xor, bne_iff_ne, ne_eq, decide_eq_decide]
  rw [min_eq, max_eq] at *
  omega

/-! ### Leading zeros and magnitudes (R147, R150) -/

theorem bitlen_of_msb {n : Nat} (h : 2 ^ 63 ≤ n) (hn : n < 2 ^ 64) : bitlen n = 64 := by
  rw [bitlen_eq_size]
  exact le_antisymm (Nat.size_le.mpr hn) (Nat.lt_size.mpr h)

/-- The magnitude whose leading zeros the tests count: the value, or its complement where it is negative. -/
def signedMagnitude (v : Word) : Nat := (if 0 ≤ s64 v then s64 v else -s64 v - 1).toNat

theorem signedMagnitude_lt (v : Word) : signedMagnitude v < 2 ^ 63 := by
  have hv := s64_bounds v
  rw [min_eq, max_eq] at hv
  unfold signedMagnitude
  split <;> omega

theorem bitlen_signedMagnitude_le (v : Word) : bitlen (signedMagnitude v) ≤ 63 := by
  rw [bitlen_eq_size]
  exact Nat.size_le.mpr (signedMagnitude_lt v)

theorem nlz_of_nonneg {v : Word} (h : 0 ≤ s64 v) : nlz v = 64 - bitlen (signedMagnitude v) ∧ nlz (~~~v) = 0 := by
  have hv := s64_nonneg h
  have hlt := signedMagnitude_lt v
  have hmag : signedMagnitude v = v.toNat := by rw [signedMagnitude, if_pos h, hv, Int.toNat_natCast]
  rw [hmag] at hlt ⊢
  refine ⟨rfl, ?_⟩
  rw [nlz, BitVec.toNat_not, bitlen_of_msb (by omega) (by omega)]

theorem nlz_of_neg {v : Word} (h : s64 v < 0) : nlz v = 0 ∧ nlz (~~~v) = 64 - bitlen (signedMagnitude v) := by
  have hv := s64_neg h
  have hlt := signedMagnitude_lt v
  have hv64 := v.isLt
  have hmag : signedMagnitude v = 2 ^ 64 - 1 - v.toNat := by rw [signedMagnitude, if_neg h.not_ge]; omega
  rw [hmag] at hlt ⊢
  refine ⟨?_, by rw [nlz, BitVec.toNat_not]⟩
  rw [nlz, bitlen_of_msb (by omega) (by omega)]

theorem nlz_add_nlz_not (v : Word) : nlz v + nlz (~~~v) = 64 - bitlen (signedMagnitude v) := by
  rcases lt_or_ge (s64 v) 0 with h | h
  · rw [(nlz_of_neg h).1, (nlz_of_neg h).2, zero_add]
  · rw [(nlz_of_nonneg h).1, (nlz_of_nonneg h).2, add_zero]

/-- The magnitude is at most the weight above its top bit, and below it for a value that is not negative. -/
theorem natAbs_s64_le (v : Word) :
    (s64 v).natAbs + (if s64 v < 0 then 0 else 1) ≤ 2 ^ bitlen (signedMagnitude v) := by
  refine le_trans ?_ (lt_two_pow_bitlen (signedMagnitude v))
  unfold signedMagnitude
  split <;> split <;> omega

/-- The magnitude is at least the weight of its top bit, and above it for a negative value. -/
theorem two_pow_le_natAbs_s64 {v : Word} (h : bitlen (signedMagnitude v) ≠ 0) :
    2 ^ (bitlen (signedMagnitude v) - 1) + (if s64 v < 0 then 1 else 0) ≤ (s64 v).natAbs := by
  have hne : signedMagnitude v ≠ 0 := fun hz => h (by rw [hz]; rfl)
  have hle := two_pow_bitlen_le hne
  generalize 2 ^ (bitlen (signedMagnitude v) - 1) = w at hle
  unfold signedMagnitude at hle
  split at hle <;> split <;> omega

/-! ### Multiply (R150) -/

theorem two_pow_mono {i j : Nat} (h : i ≤ j) : 2 ^ i ≤ 2 ^ j := Nat.pow_le_pow_right two_pos h

/-- With 66 leading zeros or more the product has 62 bits at most. -/
theorem mul_inRange_of_leadingZeros {a b : Word} (h : 65 < mulLeadingZeros a b) :
    MIN ≤ s64 a * s64 b ∧ s64 a * s64 b ≤ MAX := by
  have ha := nlz_add_nlz_not a
  have hb := nlz_add_nlz_not b
  unfold mulLeadingZeros at h
  have hprod : (s64 a * s64 b).natAbs ≤ 2 ^ 62 :=
    calc (s64 a * s64 b).natAbs = (s64 a).natAbs * (s64 b).natAbs := Int.natAbs_mul ..
      _ ≤ 2 ^ bitlen (signedMagnitude a) * 2 ^ bitlen (signedMagnitude b) :=
        Nat.mul_le_mul (Nat.le_of_add_right_le (natAbs_s64_le a)) (Nat.le_of_add_right_le (natAbs_s64_le b))
      _ = 2 ^ (bitlen (signedMagnitude a) + bitlen (signedMagnitude b)) := (pow_add ..).symm
      _ ≤ 2 ^ 62 := two_pow_mono (by omega)
  rw [min_eq, max_eq]
  omega

/-- With 63 leading zeros or fewer the product has 64 bits or more. -/
theorem mul_outside_of_leadingZeros {a b : Word} (h : mulLeadingZeros a b < 64) :
    ¬ (MIN ≤ s64 a * s64 b ∧ s64 a * s64 b ≤ MAX) := by
  have ha := nlz_add_nlz_not a
  have hb := nlz_add_nlz_not b
  have hale := bitlen_signedMagnitude_le a
  have hble := bitlen_signedMagnitude_le b
  unfold mulLeadingZeros at h
  have haw := two_pow_le_natAbs_s64 (v := a) (by omega)
  have hbw := two_pow_le_natAbs_s64 (v := b) (by omega)
  have hpow : 2 ^ 63 ≤ 2 ^ (bitlen (signedMagnitude a) - 1) * 2 ^ (bitlen (signedMagnitude b) - 1) := by
    rw [← pow_add]
    exact two_pow_mono (by omega)
  have hwa : 0 < 2 ^ (bitlen (signedMagnitude a) - 1) := by positivity
  have hwb : 0 < 2 ^ (bitlen (signedMagnitude b) - 1) := by positivity
  generalize 2 ^ (bitlen (signedMagnitude a) - 1) = wa at *
  generalize 2 ^ (bitlen (signedMagnitude b) - 1) = wb at *
  have habs : (s64 a * s64 b).natAbs = (s64 a).natAbs * (s64 b).natAbs := Int.natAbs_mul ..
  have hmin : 2 ^ 63 ≤ (s64 a * s64 b).natAbs := by
    rw [habs]
    exact hpow.trans (Nat.mul_le_mul (by omega) (by omega))
  rintro ⟨hlow, hhigh⟩
  rw [min_eq, max_eq] at *
  have hneg : s64 a * s64 b < 0 := by omega
  have hstrict : 2 ^ 63 < (s64 a).natAbs * (s64 b).natAbs := by
    rcases mul_neg_iff.mp hneg with ⟨_, hs⟩ | ⟨hs, _⟩
    · rw [if_pos hs] at hbw
      have hprod := Nat.mul_le_mul (Nat.le_of_add_right_le haw) hbw
      rw [mul_add] at hprod
      omega
    · rw [if_pos hs] at haw
      have hprod := Nat.mul_le_mul haw (Nat.le_of_add_right_le hbw)
      rw [add_mul] at hprod
      omega
  omega

theorem abs_rem_lt_abs (a : Int) {d : Int} (h : d ≠ 0) : |rem a d| < |d| := by
  rcases lt_or_gt_of_ne h with hd | hd
  · rw [abs_of_neg hd, rem, ← Int.tmod_neg]
    exact abs_rem_lt a (neg_pos.mpr hd)
  · rw [abs_of_pos hd]
    exact abs_rem_lt a hd

/-- The verifying division finds the second factor exactly when the product did not wrap. -/
theorem quot_wrap64_mul_eq_iff {a b : Int} (ha : a ≠ 0) (hab : MIN ≤ a ∧ a ≤ MAX) :
    quot (wrap64 (a * b)) a = b ↔ MIN ≤ a * b ∧ a * b ≤ MAX := by
  rw [← wrap64_eq_self_iff]
  constructor
  · intro hq
    obtain ⟨k, hk⟩ := wrap64_congr (a * b)
    have hdiv := quot_mul_add_rem (wrap64 (a * b)) a
    rw [hq] at hdiv
    have hrem : rem (wrap64 (a * b)) a = k * 2 ^ 64 := by linarith [mul_comm a b]
    have hlt := abs_rem_lt_abs (wrap64 (a * b)) ha
    rw [hrem, Int.abs_eq_natAbs, Int.abs_eq_natAbs] at hlt
    rw [min_eq, max_eq] at *
    omega
  · intro hw
    rw [hw, quot, Int.mul_tdiv_cancel_left _ ha]

theorem mulOverflows_iff (a b : Word) : mulOverflows a b = true ↔ ¬ (MIN ≤ s64 a * s64 b ∧ s64 a * s64 b ≤ MAX) := by
  unfold mulOverflows
  split_ifs with hmany hfew
  · simpa using mul_inRange_of_leadingZeros hmany
  · simpa using mul_outside_of_leadingZeros hfew
  · have hzero : a = 0 ↔ s64 a = 0 := by
      rw [← BitVec.toInt_inj]
      exact Iff.rfl
    rw [s64_mul, Bool.not_eq_true', ← Bool.not_eq_true, not_iff_not]
    simp only [Bool.and_eq_true, Bool.or_eq_true, Bool.not_eq_true', ← Bool.not_eq_true, decide_eq_true_iff, hzero]
    by_cases hcorner : s64 a < 0 ∧ s64 b = MIN
    · obtain ⟨ha, hb⟩ := hcorner
      have hout : ¬ (MIN ≤ s64 a * s64 b ∧ s64 a * s64 b ≤ MAX) := by
        rw [hb, min_eq, max_eq]
        omega
      exact ⟨fun hc => absurd ⟨ha, hb⟩ hc.1, fun hc => absurd hc hout⟩
    · rcases eq_or_ne (s64 a) 0 with ha | ha
      · simp only [ha, zero_mul]
        simp
      · rw [quot_wrap64_mul_eq_iff ha (s64_bounds a)]
        exact ⟨fun hc => hc.2.resolve_left ha, fun hc => ⟨hcorner, .inr hc⟩⟩

/-! ### Left shift (R147, R152) -/

theorem natAbs_mul_two_pow (a : Int) (n : Nat) : (a * 2 ^ n).natAbs = a.natAbs * 2 ^ n := by
  rw [Int.natAbs_mul, Int.natAbs_pow]
  rfl

theorem mul_two_pow_neg_iff (a : Int) (n : Nat) : a * 2 ^ n < 0 ↔ a < 0 :=
  lt_iff_lt_of_le_iff_le (mul_nonneg_iff_of_pos_right (by positivity))

/-- A shift that leaves a bit of the magnitude room stays in the range. -/
theorem shl_inRange {a : Word} {n : Nat} (h : n + bitlen (signedMagnitude a) ≤ 63) :
    MIN ≤ s64 a * 2 ^ n ∧ s64 a * 2 ^ n ≤ MAX := by
  have hle := Nat.mul_le_mul_right (2 ^ n) (natAbs_s64_le a)
  rw [← pow_add, add_comm (bitlen _), add_mul] at hle
  have hpow := two_pow_mono h
  have hn : 0 < 2 ^ n := by positivity
  have habs := natAbs_mul_two_pow (s64 a) n
  have hsign := mul_two_pow_neg_iff (s64 a) n
  rw [← habs] at hle
  generalize s64 a * 2 ^ n = x at *
  rw [min_eq, max_eq]
  split at hle <;> omega

/-- A shift by the leading zeros or more moves the top bit of the magnitude out. -/
theorem shl_outside {a : Word} {n : Nat} (ha : s64 a ≠ 0) (h : 64 ≤ n + bitlen (signedMagnitude a)) :
    ¬ (MIN ≤ s64 a * 2 ^ n ∧ s64 a * 2 ^ n ≤ MAX) := by
  have habs := natAbs_mul_two_pow (s64 a) n
  have hsign := mul_two_pow_neg_iff (s64 a) n
  have hn : 0 < 2 ^ n := by positivity
  have hmin : 2 ^ 63 + (if s64 a < 0 then 1 else 0) ≤ (s64 a).natAbs * 2 ^ n := by
    by_cases hbits : bitlen (signedMagnitude a) = 0
    · have hpow : 2 ^ 64 ≤ 2 ^ n := two_pow_mono (by omega)
      have hone := Nat.mul_le_mul_right (2 ^ n) (Int.natAbs_pos.mpr ha)
      split <;> omega
    · have hpow : 2 ^ 63 ≤ 2 ^ (bitlen (signedMagnitude a) - 1) * 2 ^ n := by
        rw [← pow_add]
        exact two_pow_mono (by omega)
      have hle := Nat.mul_le_mul_right (2 ^ n) (two_pow_le_natAbs_s64 hbits)
      rw [add_mul] at hle
      split_ifs at hle ⊢ <;> omega
  rw [← habs] at hmin
  generalize s64 a * 2 ^ n = x at *
  rw [min_eq, max_eq]
  split at hmin <;> omega

theorem shlOverflows_iff (a : Word) (n : Nat) :
    shlOverflows a n = true ↔ ¬ (MIN ≤ s64 a * 2 ^ n ∧ s64 a * 2 ^ n ≤ MAX) := by
  have hfit : ¬ (MIN ≤ s64 a * 2 ^ n ∧ s64 a * 2 ^ n ≤ MAX) ↔ s64 a ≠ 0 ∧ 64 ≤ n + bitlen (signedMagnitude a) := by
    refine ⟨fun h => ⟨fun hz => h ?_, ?_⟩, fun h => shl_outside h.1 h.2⟩
    · rw [hz, zero_mul]
      decide
    · by_contra hlt
      exact h (shl_inRange (by omega))
  have hle := bitlen_signedMagnitude_le a
  rw [hfit, shlOverflows]
  rcases lt_trichotomy (s64 a) 0 with h | h | h
  · rw [if_neg h.not_gt, if_pos h, (nlz_of_neg h).2, decide_eq_true_iff]
    omega
  · simp [h]
  · rw [if_pos h, (nlz_of_nonneg h.le).1, decide_eq_true_iff]
    omega

/-! ### The floor average (R145) -/

/-- A sum is twice the common bits plus the others. -/
theorem add_eq_two_mul_and_add_xor (a b : Nat) : a + b = 2 * (a &&& b) + (a ^^^ b) := by
  induction a using Nat.binaryRec generalizing b with
  | zero => simp
  | bit x a ih =>
    obtain ⟨y, c, rfl⟩ : ∃ y c, b = Nat.bit y c := ⟨b.bodd, b.div2, (Nat.bit_bodd_div2 b).symm⟩
    have hrest := ih c
    rw [Nat.land_bit, Nat.xor_bit]
    cases x <;> cases y <;> simp [Nat.bit_val] <;> omega

theorem s64_add_s64_eq (a b : Word) : s64 a + s64 b = 2 * s64 (a &&& b) + s64 (a ^^^ b) := by
  have hnat := add_eq_two_mul_and_add_xor a.toNat b.toNat
  rw [s64_eq_ite, s64_eq_ite, s64_eq_ite, s64_eq_ite, BitVec.msb_and, BitVec.msb_xor, BitVec.toNat_and, BitVec.toNat_xor]
  cases a.msb <;> cases b.msb <;> simp <;> omega

theorem s64_floorAverage (a b : Word) : s64 (floorAverage a b) = (s64 a + s64 b) / 2 := by
  have hhalf : s64 ((a ^^^ b).sshiftRight 1) = s64 (a ^^^ b) / 2 := by
    rw [s64, BitVec.toInt_sshiftRight, Int.shiftRight_eq_div_pow]
    rfl
  have hmean : s64 (a &&& b) + s64 (a ^^^ b) / 2 = (s64 a + s64 b) / 2 := by
    rw [s64_add_s64_eq]
    omega
  have ha := s64_bounds a
  have hb := s64_bounds b
  rw [floorAverage, s64_add, hhalf, hmean, wrap64_of_inRange]
  rw [min_eq, max_eq] at *
  omega

end Sys2Proof.Machine

section
open Sys2Proof Sys2Proof.Machine

/-- Settles O31: the sign formulas, the two leading-zero tests and the average, one by one. -/
theorem primitiveDatapathMeetsContract : Obligations.PrimitiveDatapathMeetsContract :=
  fun a b n => ⟨addOverflows_iff a b, subOverflows_iff a b, mulOverflows_iff a b, shlOverflows_iff a n,
    s64_floorAverage a b⟩

end
end

section
/-! SUPPORT. The long division of a 128-bit dividend by 32-bit digits (spec/43_mul_div.md R182), with the statement O38. -/

namespace Sys2Proof.Machine

/-! ### One quotient digit -/

section
variable {v1 v0 top next : Nat}

/-- A trial digit with its trial remainder is lowered exactly when it is above the true digit (R182 step 4). -/
theorem lowerDigit_eq {t r : Nat} (htrial : t * v1 + r = top) (htop : top < v1 * 2 ^ 32 + v0) (hnext : next < 2 ^ 32) :
    lowerDigit v1 v0 next (t, r) =
      if (top * 2 ^ 32 + next) / (v1 * 2 ^ 32 + v0) < t then (t - 1, r + v1) else (t, r) := by
  have hpos : 0 < v1 * 2 ^ 32 + v0 := by omega
  have habove : t * (v1 * 2 ^ 32 + v0) = t * v1 * 2 ^ 32 + t * v0 := by ring
  have hwide : 2 ^ 32 ≤ t → 2 ^ 32 * (v1 * 2 ^ 32 + v0) ≤ t * (v1 * 2 ^ 32 + v0) := Nat.mul_le_mul_right _
  have hcond : (2 ^ 32 ≤ t ∨ r * 2 ^ 32 + next < t * v0) ↔ (top * 2 ^ 32 + next) / (v1 * 2 ^ 32 + v0) < t := by
    rw [Nat.div_lt_iff_lt_mul hpos]
    omega
  simp only [lowerDigit, hcond]

/-- The trial digit from the leading digits is at most 2 above the true one, as the divisor is normalised. -/
theorem trialDigit_bounds (hv1 : 2 ^ 31 ≤ v1) (hv0 : v0 < 2 ^ 32) (htop : top < v1 * 2 ^ 32 + v0) (hnext : next < 2 ^ 32) :
    (top * 2 ^ 32 + next) / (v1 * 2 ^ 32 + v0) ≤ top / v1 ∧
    top / v1 ≤ (top * 2 ^ 32 + next) / (v1 * 2 ^ 32 + v0) + 2 := by
  have hpos : 0 < v1 * 2 ^ 32 + v0 := by omega
  have hle : (top * 2 ^ 32 + next) / (v1 * 2 ^ 32 + v0) * (v1 * 2 ^ 32 + v0) ≤ top * 2 ^ 32 + next := Nat.div_mul_le_self ..
  have htrial : top / v1 * v1 ≤ top := Nat.div_mul_le_self ..
  constructor
  · rw [Nat.le_div_iff_mul_le (by omega)]
    generalize (top * 2 ^ 32 + next) / (v1 * 2 ^ 32 + v0) = q at *
    have hexpand : q * (v1 * 2 ^ 32 + v0) = q * v1 * 2 ^ 32 + q * v0 := by ring
    omega
  · have hsmall : top / v1 ≤ 2 ^ 32 + 1 := by
      rw [← Nat.lt_succ_iff, Nat.div_lt_iff_lt_mul (by omega)]
      omega
    rw [← Nat.sub_le_iff_le_add, Nat.le_div_iff_mul_le hpos]
    generalize top / v1 = t at *
    have hv0t : t * v0 ≤ (2 ^ 32 + 1) * v0 := Nat.mul_le_mul_right _ hsmall
    rcases le_or_gt t 2 with ht | ht
    · simp [Nat.sub_eq_zero_of_le ht]
    · obtain ⟨u, rfl⟩ := Nat.exists_eq_add_of_le' ht.le
      have hexpand : u * (v1 * 2 ^ 32 + v0) + 2 * (v1 * 2 ^ 32 + v0) = (u + 2) * v1 * 2 ^ 32 + (u + 2) * v0 := by ring
      rw [Nat.add_sub_cancel]
      omega

/-- A quotient digit is the digit of the exact division: two lowerings are enough (R182 step 4). -/
theorem quotientDigit_eq (hv1 : 2 ^ 31 ≤ v1) (hv0 : v0 < 2 ^ 32) (htop : top < v1 * 2 ^ 32 + v0) (hnext : next < 2 ^ 32) :
    quotientDigit v1 v0 top next = (top * 2 ^ 32 + next) / (v1 * 2 ^ 32 + v0) := by
  obtain ⟨hlow, hhigh⟩ := trialDigit_bounds hv1 hv0 htop hnext
  have htrial : top / v1 * v1 + top % v1 = top := Nat.div_add_mod' ..
  rw [quotientDigit, lowerDigit_eq htrial htop hnext]
  generalize top / v1 = t at *
  split
  · next hone =>
    obtain ⟨u, rfl⟩ := Nat.exists_eq_add_of_lt hone
    have hlowered : ((top * 2 ^ 32 + next) / (v1 * 2 ^ 32 + v0) + u) * v1 + (top % v1 + v1) = top := by
      refine Eq.trans ?_ htrial
      ring
    rw [Nat.add_sub_cancel, lowerDigit_eq hlowered htop hnext]
    generalize (top * 2 ^ 32 + next) / (v1 * 2 ^ 32 + v0) = q at *
    split <;> simp only <;> omega
  · next hnone =>
    rw [lowerDigit_eq htrial htop hnext, if_neg hnone]
    exact le_antisymm (not_lt.mp hnone) hlow

end

/-! ### The division digit by digit -/

/-- A dividend with one more digit: the quotient so far is the high part, and its remainder is carried on. -/
theorem divMod_digit (n b l : Nat) {v : Nat} (hv : 0 < v) :
    (n * b + l) / v = n / v * b + (n % v * b + l) / v ∧ (n * b + l) % v = (n % v * b + l) % v := by
  have hsplit : n * b + l = v * (n / v * b) + (n % v * b + l) :=
    calc n * b + l = (v * (n / v) + n % v) * b + l := by rw [Nat.div_add_mod]
      _ = v * (n / v * b) + (n % v * b + l) := by ring
  rw [hsplit, Nat.mul_add_div hv, Nat.mul_add_mod]
  exact ⟨rfl, rfl⟩

/-- Two digits of a dividend whose high part is below the normalised divisor (R182 steps 3 to 5). -/
theorem divDigits_eq {v high low : Nat} (hv : 2 ^ 63 ≤ v) (hv64 : v < 2 ^ 64) (hhigh : high < v) (hlow : low < 2 ^ 64) :
    divDigits v high low = ((high * 2 ^ 64 + low) / v, (high * 2 ^ 64 + low) % v) := by
  have hlimbs : v / 2 ^ 32 * 2 ^ 32 + v % 2 ^ 32 = v := Nat.div_add_mod' ..
  have hdigit {top next : Nat} (htop : top < v) (hnext : next < 2 ^ 32) :
      quotientDigit (v / 2 ^ 32) (v % 2 ^ 32) top next = (top * 2 ^ 32 + next) / v := by
    rw [quotientDigit_eq (by omega) (Nat.mod_lt _ (by decide)) (hlimbs.symm ▸ htop) hnext, hlimbs]
  have hrem (n : Nat) : n - n / v * v = n % v := Nat.mod_eq_sub_div_mul.symm
  have hmid : (high * 2 ^ 32 + low / 2 ^ 32) % v < v := Nat.mod_lt _ (by omega)
  have hdividend : high * 2 ^ 64 + low = (high * 2 ^ 32 + low / 2 ^ 32) * 2 ^ 32 + low % 2 ^ 32 := by
    rw [add_mul, add_assoc, Nat.div_add_mod', mul_assoc, ← pow_add]
  obtain ⟨hdiv, hmod⟩ := divMod_digit (high * 2 ^ 32 + low / 2 ^ 32) (2 ^ 32) (low % 2 ^ 32) (v := v) (by omega)
  rw [divDigits, hdigit hhigh (by omega)]
  simp only [hrem]
  rw [hdigit hmid (Nat.mod_lt _ (by decide)), hrem, hdividend, hdiv, hmod]

/-- Normalising multiplies the dividend and the divisor alike, and the remainder is shifted back (R182 steps 2 and 6). -/
theorem divNormalised_eq {hi lo v : Nat} (hv : v < 2 ^ 64) (hhi : hi < v) (hlo : lo < 2 ^ 64) :
    divNormalised hi lo v = ((hi * 2 ^ 64 + lo) / v, (hi * 2 ^ 64 + lo) % v) := by
  have hbits : bitlen v ≤ 64 := by
    rw [bitlen_eq_size]
    exact Nat.size_le.mpr hv
  have hshift : 0 < 2 ^ (64 - bitlen v) := by positivity
  have hnormal : 2 ^ 63 ≤ v * 2 ^ (64 - bitlen v) := by
    have hle := Nat.mul_le_mul_right (2 ^ (64 - bitlen v)) (two_pow_bitlen_le (x := v) (by omega))
    have hpos := bitlen_pos (x := v) (by omega)
    rwa [← pow_add, show bitlen v - 1 + (64 - bitlen v) = 63 by omega] at hle
  have hnormal64 : v * 2 ^ (64 - bitlen v) < 2 ^ 64 := by
    have hlt := Nat.mul_lt_mul_of_pos_right (lt_two_pow_bitlen v) hshift
    rwa [← pow_add, show bitlen v + (64 - bitlen v) = 64 by omega] at hlt
  have hdividend : (hi * 2 ^ 64 + lo) * 2 ^ (64 - bitlen v) / 2 ^ 64 < v * 2 ^ (64 - bitlen v) := by
    rw [Nat.div_lt_iff_lt_mul (by decide), mul_right_comm]
    exact Nat.mul_lt_mul_of_pos_right (by omega) hshift
  rw [divNormalised]
  simp only [divDigits_eq hnormal hnormal64 hdividend (Nat.mod_lt _ (by decide)), Nat.div_add_mod',
    Nat.mul_div_mul_right _ _ hshift, Nat.mul_mod_mul_right, Nat.mul_div_cancel _ hshift]

theorem divWide_eq {hi lo v : Nat} (hv : 0 < v) (hv64 : v < 2 ^ 64) (hlo : lo < 2 ^ 64) :
    divWide hi lo v = ((hi * 2 ^ 64 + lo) / v, (hi * 2 ^ 64 + lo) % v) := by
  obtain ⟨hdiv, hmod⟩ := divMod_digit hi (2 ^ 64) lo hv
  rw [divWide, divNormalised_eq hv64 (Nat.mod_lt _ hv) hlo, hdiv, hmod]

end Sys2Proof.Machine

section
open Sys2Proof Sys2Proof.Machine

/-- Settles O38: the stages leave the digits of the exact quotient, each with the remainder it carries on. -/
theorem wideDivisionDivides : Obligations.WideDivisionDivides :=
  fun _ _ _ _ hlo hv hmax => divWide_eq hv (by omega) hlo

end
end

section
/-! SUPPORT. The split-limb multiplier and the divider with its special cases (spec/43_mul_div.md R172 to R174, R179 to R181), with
the statements O37 and O39. -/

namespace Sys2Proof.Machine

/-! ### Numbers that are 0 or of the sign of another -/

/-- `x` is 0 or has the sign of `y`, and is 0 where `y` is. -/
def FollowsSign (x y : Int) : Prop := (0 ≤ y → 0 ≤ x) ∧ (y ≤ 0 → x ≤ 0)

theorem FollowsSign.trans {x y z : Int} (hxy : FollowsSign x y) (hyz : FollowsSign y z) : FollowsSign x z :=
  ⟨fun h => hxy.1 (hyz.1 h), fun h => hxy.2 (hyz.2 h)⟩

theorem FollowsSign.add {x x' y : Int} (h : FollowsSign x y) (h' : FollowsSign x' y) : FollowsSign (x + x') y :=
  ⟨fun hy => add_nonneg (h.1 hy) (h'.1 hy), fun hy => add_nonpos (h.2 hy) (h'.2 hy)⟩

theorem FollowsSign.mul {x y a b : Int} (hx : FollowsSign x a) (hy : FollowsSign y b) : FollowsSign (x * y) (a * b) := by
  constructor <;> intro hab
  · rcases mul_nonneg_iff.mp hab with ⟨ha, hb⟩ | ⟨ha, hb⟩
    · exact mul_nonneg (hx.1 ha) (hy.1 hb)
    · exact mul_nonneg_of_nonpos_of_nonpos (hx.2 ha) (hy.2 hb)
  · rcases mul_nonpos_iff.mp hab with ⟨ha, hb⟩ | ⟨ha, hb⟩
    · exact mul_nonpos_of_nonneg_of_nonpos (hx.1 ha) (hy.2 hb)
    · exact mul_nonpos_of_nonpos_of_nonneg (hx.2 ha) (hy.1 hb)

theorem FollowsSign.mul_const {x y c : Int} (h : FollowsSign x y) (hc : 0 ≤ c) : FollowsSign (x * c) y :=
  ⟨fun hy => mul_nonneg (h.1 hy) hc, fun hy => mul_nonpos_of_nonpos_of_nonneg (h.2 hy) hc⟩

/-- The remainder is zero or of the sign of the dividend (00_scope.md R12). -/
theorem followsSign_rem (a d : Int) : FollowsSign (rem a d) a := by
  refine ⟨fun h => Int.tmod_nonneg d h, fun h => ?_⟩
  rw [← neg_nonneg, ← rem_neg]
  exact Int.tmod_nonneg d (neg_nonneg.mpr h)

theorem followsSign_quot (a : Int) {d : Int} (hd : 0 ≤ d) : FollowsSign (quot a d) a := by
  refine ⟨fun h => Int.tdiv_nonneg h hd, fun h => ?_⟩
  rw [← neg_nonneg, ← quot_neg]
  exact Int.tdiv_nonneg (neg_nonneg.mpr h) hd

/-- Truncated quotient and remainder are the one way to split a dividend with a small rest of its sign. -/
theorem quot_rem_unique {n d t r : Int} (hn : n = t * d + r) (hr : |r| < d) (hs : FollowsSign r n) :
    quot n d = t ∧ rem n d = r := by
  have hd : 0 < d := (abs_nonneg r).trans_lt hr
  have hquot : quot n d = t := by
    rcases le_total 0 n with h | h
    · have hr0 := hs.1 h
      rw [abs_of_nonneg hr0] at hr
      rw [quot_of_nonneg h]
      exact (Int.ediv_emod_unique hd).mpr ⟨by rw [hn]; ring, hr0, hr⟩ |>.1
    · have hr0 := hs.2 h
      rw [abs_of_nonpos hr0] at hr
      rw [← neg_inj, ← quot_neg, quot_of_nonneg (neg_nonneg.mpr h)]
      exact (Int.ediv_emod_unique hd).mpr ⟨by rw [hn]; ring, neg_nonneg.mpr hr0, hr⟩ |>.1
  have hsplit := quot_mul_add_rem n d
  rw [hquot] at hsplit
  exact ⟨hquot, by linarith⟩

/-! ### Rounding a truncated quotient -/

theorem natAbs_quot (n d : Int) : (quot n d).natAbs = n.natAbs / d.natAbs := Int.natAbs_tdiv ..

theorem natAbs_rem (n d : Int) : (rem n d).natAbs = n.natAbs % d.natAbs := Int.natAbs_tmod ..

theorem sgn_eq_sign (x : Int) : sgn x = x.sign := by
  unfold sgn
  rcases lt_trichotomy x 0 with h | rfl | h
  · rw [if_pos h, Int.sign_eq_neg_one_of_neg h]
  · rfl
  · rw [if_neg h.not_gt, if_neg h.ne', Int.sign_eq_one_of_pos h]

theorem sgn_mul_sgn (a b : Int) : sgn a * sgn b = sgn (a * b) := by
  rw [sgn_eq_sign, sgn_eq_sign, sgn_eq_sign, Int.sign_mul]

/-- The sign given to the rounding engine is that of a ratio that is not 0 (41_rounding.md R125). -/
theorem ratioSign_eq_sgn {num den : Int} (hn : num ≠ 0) (hd : den ≠ 0) : ratioSign num den = sgn num * sgn den := by
  unfold ratioSign sgn
  split_ifs <;> omega

/-- The split-limb unit ends as `fit` of `rnd` does when it leaves the truncated quotient and its remainder
(43_mul_div.md R172). -/
theorem finishSplit_eq (sel : Selector) (n : Int) :
    finishSplit sel (sgn n) { trunc := quot n (selSF sel), remainder := (rem n (selSF sel)).natAbs } =
      fitRounded sel.ovf (rnd sel.mode n (selSF sel)) := by
  have hsf : (selSF sel).natAbs = scaleFactor (selScale sel) := Int.natAbs_natCast _
  rcases eq_or_ne n 0 with rfl | hn
  · have hrnd := rnd_mul_self sel.mode 0 (selSF_ne_zero sel)
    have hpart : part (rem 0 (selSF sel)).natAbs (scaleFactor (selScale sel)) = .zero :=
      part_eq_zero.mpr (by rw [rem, Int.zero_tmod]; rfl)
    rw [zero_mul] at hrnd
    rw [hrnd, finishSplit, hpart, increment_zero]
    exact congrArg (fit sel.ovf) (by rw [quot, Int.zero_tdiv]; rfl)
  · have hsign : sgn n = ratioSign n (selSF sel) := by
      rw [ratioSign_eq_sgn hn (selSF_ne_zero sel), sgn_eq_sign (selSF sel), Int.sign_eq_one_of_pos (selSF_pos sel), mul_one]
    rw [finishSplit, rnd, roundMagnitude, ← natAbs_quot, ← natAbs_rem, natAbs_quot, ratioSign_mul_natAbs_div n (selSF_pos sel),
      hsign, hsf]
    cases increment sel.mode (ratioSign n (selSF sel)) (isOdd (n.natAbs / scaleFactor (selScale sel)))
      (part (rem n (selSF sel)).natAbs (scaleFactor (selScale sel))) <;> rfl

/-! ### The multiplier -/

/-- The product split at the scale factor is the truncated quotient with its remainder (R172). -/
theorem mulSplitLow_eq {sf : Int} (hsf : 0 < sf) (a b : Int) :
    mulSplitLow sf a b = { trunc := quot (a * b) sf, remainder := (rem (a * b) sf).natAbs } := by
  have hab : a * b = (quot a sf * sf + rem a sf) * (quot b sf * sf + rem b sf) := by
    rw [← quot_mul_add_rem, ← quot_mul_add_rem]
  have hlow := quot_mul_add_rem (rem a sf * rem b sf) sf
  have hsign : FollowsSign (rem (rem a sf * rem b sf) sf) (a * b) :=
    (followsSign_rem ..).trans ((followsSign_rem a sf).mul (followsSign_rem b sf))
  obtain ⟨hquot, hrem⟩ := quot_rem_unique (n := a * b) (d := sf)
    (t := quot a sf * quot b sf * sf + quot a sf * rem b sf + rem a sf * quot b sf + quot (rem a sf * rem b sf) sf)
    (by rw [hab]; linear_combination hlow) (abs_rem_lt _ hsf) hsign
  rw [mulSplitLow, hquot, hrem]

theorem limbBase_pos : 0 < limbBase := by decide

/-- The lanes are the digits of the product in base `10^9`, each 0 or of its sign (R173). -/
theorem mul_eq_lanes (a b : Int) :
    a * b = laneTop a b * limbBase ^ 2 + lane1 a b * limbBase + lane0 a b := by
  have hab : a * b = (quot a limbBase * limbBase + rem a limbBase) * (quot b limbBase * limbBase + rem b limbBase) := by
    rw [← quot_mul_add_rem, ← quot_mul_add_rem]
  have hmid := quot_mul_add_rem (laneMid a b) limbBase
  have hlow := quot_mul_add_rem (rem a limbBase * rem b limbBase) limbBase
  rw [laneTop, lane1, lane0]
  nth_rw 1 [laneMid] at hmid
  rw [hab]
  linear_combination limbBase * hmid + hlow

theorem followsSign_lane0 (a b : Int) : FollowsSign (lane0 a b) (a * b) :=
  (followsSign_rem ..).trans ((followsSign_rem a _).mul (followsSign_rem b _))

theorem followsSign_lane1 (a b : Int) : FollowsSign (lane1 a b) (a * b) := by
  have hquot (x : Int) := followsSign_quot x limbBase_pos.le
  have hmid : FollowsSign (laneMid a b) (a * b) :=
    (((hquot a).mul (followsSign_rem b _)).add ((followsSign_rem a _).mul (hquot b))).add
      ((hquot _).trans ((followsSign_rem a _).mul (followsSign_rem b _)))
  exact (followsSign_rem ..).trans hmid

/-- The product split at `10^9` is the truncated quotient by `10^(9+d)` with its remainder (R173). -/
theorem mulSplitHigh_eq {d : Nat} (hd : d ≤ 9) (a b : Int) :
    mulSplitHigh d a b = { trunc := quot (a * b) (10 ^ (9 + d)), remainder := (rem (a * b) (10 ^ (9 + d))).natAbs } := by
  have hd0 : (0 : Int) < 10 ^ d := by positivity
  have hpow : (10 : Int) ^ (9 - d) * 10 ^ (9 + d) = limbBase ^ 2 := by
    rw [limbBase, ← pow_add, ← pow_mul]
    congr 1
    omega
  have hsf : (10 : Int) ^ (9 + d) = 10 ^ d * limbBase := by rw [add_comm, pow_add, limbBase]
  have hlane1 := quot_mul_add_rem (lane1 a b) (10 ^ d)
  have hsmall : |rem (lane1 a b) (10 ^ d) * 10 ^ 9 + lane0 a b| < 10 ^ (9 + d) := by
    have h1 := abs_rem_lt (lane1 a b) hd0
    have h0 : |lane0 a b| < limbBase := abs_rem_lt _ limbBase_pos
    rw [hsf, limbBase] at *
    calc |rem (lane1 a b) (10 ^ d) * 10 ^ 9 + lane0 a b|
        ≤ |rem (lane1 a b) (10 ^ d)| * 10 ^ 9 + |lane0 a b| := by
          refine (abs_add_le _ _).trans (add_le_add_left ?_ _)
          rw [abs_mul, abs_of_pos (by decide : (0 : Int) < 10 ^ 9)]
      _ < 10 ^ d * 10 ^ 9 := by omega
  have hsign : FollowsSign (rem (lane1 a b) (10 ^ d) * 10 ^ 9 + lane0 a b) (a * b) :=
    (((followsSign_rem ..).trans (followsSign_lane1 a b)).mul_const (by decide)).add (followsSign_lane0 a b)
  have hsplit : a * b = (laneTop a b * 10 ^ (9 - d) + quot (lane1 a b) (10 ^ d)) * 10 ^ (9 + d)
      + (rem (lane1 a b) (10 ^ d) * 10 ^ 9 + lane0 a b) := by
    rw [add_mul, mul_assoc, hpow, hsf, mul_eq_lanes a b]
    nth_rw 1 [hlane1]
    rw [limbBase]
    ring
  obtain ⟨hquot, hrem⟩ := quot_rem_unique hsplit hsmall hsign
  rw [mulSplitHigh, hquot, hrem]

theorem mulDatapath_eq {sel : Selector} (h : sel.wf = true) (a b : Int) : mulDatapath sel a b = computeMul sel a b := by
  have hscale : selScale sel ≤ 18 := (Selector.wf_iff sel).mp h
  rw [mulDatapath, computeMul, sgn_mul_sgn]
  split_ifs with hzero hlow
  · have hone : selSF sel = 1 := by rw [selSF, hzero]; rfl
    have hrnd := rnd_mul_self sel.mode (a * b) one_ne_zero
    rw [mul_one] at hrnd
    rw [hone, hrnd, fitRounded_ok]
  · rw [mulSplitLow_eq (selSF_pos sel), finishSplit_eq]
  · have hsf : (10 : Int) ^ (9 + (selScale sel - 9)) = selSF sel := by
      rw [Nat.add_sub_cancel' (not_le.mp hlow).le, selSF_eq]
      rfl
    rw [mulSplitHigh_eq (by omega), hsf, finishSplit_eq]

/-! ### The divider -/

/-- `rnd` depends on the ratio only (41_rounding.md R128). -/
theorem rnd_congr (mode : RoundingMode) {num den num' den' : Int} (h : den ≠ 0) (h' : den' ≠ 0)
    (hratio : (num : ℚ) / den = (num' : ℚ) / den') : rnd mode num den = rnd mode num' den' := by
  rw [rnd_eq_roundRat mode num h, rnd_eq_roundRat mode num' h']
  simp only [← mustRaise_div mode num h, ← mustRaise_div mode num' h', hratio]

theorem powerOfTen?_eq_some {b : Int} {k : Nat} (h : powerOfTen? b = some k) : b = sgn b * 10 ^ k := by
  have hk : 10 ^ k = b.natAbs := by simpa using List.find?_some h
  have hcast : (10 : Int) ^ k = b.natAbs := by exact_mod_cast hk
  rw [hcast, sgn_eq_sign, Int.sign_mul_natAbs]

theorem sgn_mul_self {b : Int} (h : b ≠ 0) : sgn b * sgn b = 1 := by
  unfold sgn
  split_ifs <;> rfl

/-- Division by a power of ten is a change of scale (R180). -/
theorem divByPow10_eq (sel : Selector) (a : Int) {b : Int} (hb : b ≠ 0) {k : Nat} (hk : powerOfTen? b = some k) :
    divByPow10 sel a b k = computeDiv sel a b := by
  have hpow := powerOfTen?_eq_some hk
  have hsgn := sgn_mul_self hb
  rw [divByPow10, computeDiv, if_neg hb]
  split
  · next hle =>
    obtain ⟨j, hj⟩ := Nat.exists_eq_add_of_le hle
    have hexact : a * selSF sel = sgn b * a * romSF (selScale sel - k) * b := by
      rw [romSF_eq, hj, Nat.add_sub_cancel_left, selSF_eq, ← selScale, hj]
      nth_rw 2 [hpow]
      linear_combination (-(a * 10 ^ k * 10 ^ j)) * hsgn
    rw [hexact, rnd_mul_self _ _ hb, fitRounded_ok]
  · next hlt =>
    obtain ⟨j, rfl⟩ := Nat.exists_eq_add_of_le (not_le.mp hlt).le
    have hbQ : (b : ℚ) ≠ 0 := Int.cast_ne_zero.mpr hb
    have hratio : ((sgn b * a : Int) : ℚ) / (romSF j : Int) = ((a * selSF sel : Int) : ℚ) / b := by
      have hcross : sgn b * a * b = a * selSF sel * 10 ^ j := by
        rw [selSF_eq, ← selScale]
        nth_rw 2 [hpow]
        rw [pow_add]
        linear_combination (a * 10 ^ selScale sel * 10 ^ j) * hsgn
      rw [romSF_eq, div_eq_div_iff (by positivity) hbQ]
      exact_mod_cast hcross
    rw [Nat.add_sub_cancel_left, rnd_congr sel.mode (by rw [romSF_eq]; positivity) hb hratio]

/-- The general case divides magnitudes and gives the result the sign of the ratio (R181). -/
theorem divGeneral_eq {sel : Selector} (h : sel.wf = true) {a b : Int} (ha0 : a ≠ 0) (hb0 : b ≠ 0)
    (hb : MIN ≤ b ∧ b ≤ MAX) : divGeneral sel a b = computeDiv sel a b := by
  have hsf : (selSF sel).natAbs = scaleFactor (selScale sel) := Int.natAbs_natCast _
  have hsfle : scaleFactor (selScale sel) ≤ 10 ^ 18 := Nat.pow_le_pow_right (by decide) ((Selector.wf_iff sel).mp h)
  have hscaled : scaledQuotient (a.natAbs * scaleFactor (selScale sel)) b.natAbs =
      (a.natAbs * scaleFactor (selScale sel) / b.natAbs, a.natAbs * scaleFactor (selScale sel) % b.natAbs) := by
    rw [min_eq, max_eq] at *
    rw [scaledQuotient]
    split
    · rfl
    · rw [divWide_eq (by omega) (by omega) (Nat.mod_lt _ (by decide)), Nat.div_add_mod']
  have hsign : sgn a * sgn b = ratioSign (a * selSF sel) b := by
    rw [ratioSign_eq_sgn (mul_ne_zero ha0 (selSF_ne_zero sel)) hb0, ← sgn_mul_sgn, sgn_eq_sign (selSF sel),
      Int.sign_eq_one_of_pos (selSF_pos sel), mul_one]
  rw [divGeneral, hscaled, hsign, computeDiv, if_neg hb0, rnd, Int.natAbs_mul, hsf]

theorem divDatapath_eq {sel : Selector} (h : sel.wf = true) {a b : Int} (ha : MIN ≤ a ∧ a ≤ MAX)
    (hb : MIN ≤ b ∧ b ≤ MAX) : divDatapath sel a b = computeDiv sel a b := by
  have hsf := selSF_inRange h
  have hpos := selSF_pos sel
  unfold divDatapath
  split_ifs with hb0 ha0 hone hminus hsame hopposite
  · rw [computeDiv, if_pos hb0]
  · rw [computeDiv_exact hb0 (by rw [ha0, zero_mul, zero_mul]) (by decide)]
  · rw [computeDiv_exact hb0 (by rw [hone]) ha]
  · have hexact : a * selSF sel = -a * b := by rw [hminus, neg_mul_neg]
    rw [computeDiv, if_neg hb0, hexact, rnd_mul_self _ _ hb0, fitRounded_ok]
  · rw [computeDiv_exact hb0 (by rw [hsame, mul_comm]) hsf]
  · have hrange : MIN ≤ -selSF sel ∧ -selSF sel ≤ MAX := by
      rw [min_eq, max_eq] at *
      omega
    rw [computeDiv_exact hb0 (by rw [hopposite]; ring) hrange]
  · cases hk : powerOfTen? b with
    | some k => exact divByPow10_eq sel a hb0 hk
    | none => exact divGeneral_eq h ha0 hb0 hb

end Sys2Proof.Machine

section
open Sys2Proof Sys2Proof.Machine

/-- Settles O37: each split leaves the truncated quotient of the product and its remainder. -/
theorem multiplierMeetsContract : Obligations.MultiplierMeetsContract :=
  fun _ _ _ h => mulDatapath_eq h _ _

/-- Settles O39: the special cases are exact quotients, a power of ten is a change of scale, and the rest divides. -/
theorem dividerMeetsContract : Obligations.DividerMeetsContract :=
  fun _ a b h => divDatapath_eq h (s64_bounds a) (s64_bounds b)

end
end

section
/-! SUPPORT. POW up to its integer path (spec/44_sqrt_pow.md R206 to R209): the steps in their order, the loop over the bits of an
exponent, and the integer power under the overflow law, with the statements O41 to O44. -/

namespace Sys2Proof.Machine

/-! ### The steps of POW in their order (R206) -/

theorem exec_pow (sel : Selector) (s : State) : exec (.pow sel) s = conclude (computePow sel s.opA s.opN) s := rfl

theorem computePow_outside (sel : Selector) (a : Int) {n : Int} (h : 999999999 < n.natAbs) :
    computePow sel a n = .error (.invalidDomain .powExponentRange) := if_pos h

theorem computePow_zero (sel : Selector) (a : Int) : computePow sel a 0 = .ok (selSF sel) := rfl

section
variable (sel : Selector) {a n : Int} (hrange : n.natAbs ≤ 999999999) (hn : n ≠ 0)
include hrange hn

theorem computePow_base_zero : computePow sel 0 n = if 0 < n then .ok 0 else .error .divByZero := by
  rw [computePow, Config.powExpMax, if_neg (not_lt.mpr hrange), if_neg hn, if_pos rfl]

theorem computePow_scale_zero (ha : a ≠ 0) (hs : selScale sel = 0) : computePow sel a n = computePowInt sel a n := by
  rw [computePow, Config.powExpMax, if_neg (not_lt.mpr hrange), if_neg hn, if_neg ha, if_pos hs]

/-- The steps 5 to 8 are for scales above 0. -/
theorem computePow_scaled (ha : a ≠ 0) (hs : selScale sel ≠ 0) :
    computePow sel a n =
      if n = 1 then .ok a
      else if n = -1 then computeInv sel a
      else if n = 2 then computeSqr sel a
      else computePow36 sel a n := by
  rw [computePow, Config.powExpMax, if_neg (not_lt.mpr hrange), if_neg hn, if_neg ha, if_neg hs, computeInv, if_neg ha,
    computeSqr]

end

theorem selScale_ne_zero {sel : Selector} (h : sel.scale ≠ 0) : selScale sel ≠ 0 :=
  fun hz => h (BitVec.eq_of_toNat_eq hz)

theorem selScale_eq_zero {sel : Selector} (h : sel.scale = 0) : selScale sel = 0 := congrArg BitVec.toNat h

theorem computePow_one {sel : Selector} (hs : sel.scale ≠ 0) (a : Int) : computePow sel a 1 = .ok a := by
  rcases eq_or_ne a 0 with rfl | ha
  · rfl
  · rw [computePow_scaled sel (by decide) one_ne_zero ha (selScale_ne_zero hs), if_pos rfl]

theorem computePow_neg_one {sel : Selector} (hs : sel.scale ≠ 0) {a : Int} (ha : a ≠ 0) :
    computePow sel a (-1) = computeInv sel a := by
  rw [computePow_scaled sel (by decide) (by decide) ha (selScale_ne_zero hs), if_neg (by decide), if_pos rfl]

theorem computePow_two {sel : Selector} (hs : sel.scale ≠ 0) (a : Int) : computePow sel a 2 = computeSqr sel a := by
  rcases eq_or_ne a 0 with rfl | ha
  · have hrnd := rnd_mul_self sel.mode 0 (selSF_ne_zero sel)
    rw [zero_mul] at hrnd
    rw [computePow_base_zero sel (by decide) two_ne_zero, if_pos two_pos, computeSqr, zero_mul, hrnd, fitRounded_ok,
      fit_inRange (by decide)]
  · rw [computePow_scaled sel (by decide) two_ne_zero ha (selScale_ne_zero hs), if_neg (by decide), if_neg (by decide),
      if_pos rfl]

/-! ### The loop over the bits of an exponent (R207, R212) -/

theorem foldl_bits_induction {α : Type} {f : α → Bool → α} {P : Nat → α → Prop}
    (hstep : ∀ m x b, P m x → P (2 * m + b.toNat) (f x b)) (n k : Nat) {m : Nat} {x : α} (h : P m x) :
    P (m * 2 ^ k + n % 2 ^ k) (((List.range k).reverse.map n.testBit).foldl f x) := by
  induction k generalizing m x with
  | zero => simpa [Nat.mod_one] using h
  | succ k ih =>
    have hvalue : m * 2 ^ (k + 1) + n % 2 ^ (k + 1) = (2 * m + (n.testBit k).toNat) * 2 ^ k + n % 2 ^ k := by
      rw [Nat.mod_pow_succ, Nat.toNat_testBit]
      ring
    rw [List.range_succ, List.reverse_append, List.reverse_singleton, List.singleton_append, List.map_cons, List.foldl_cons,
      hvalue]
    exact ih (hstep m x _ h)

/-- A loop over the bits of `n`, most significant first, has `n` in the place of the value of the bits done so far. -/
theorem foldl_bitsMsb_induction {α : Type} {f : α → Bool → α} {P : Nat → α → Prop}
    (hstep : ∀ m x b, P m x → P (2 * m + b.toNat) (f x b)) (n : Nat) {x : α} (h : P 0 x) : P n ((bitsMsb n).foldl f x) := by
  have hfold := foldl_bits_induction hstep n (bitlen n) h
  rwa [zero_mul, zero_add, Nat.mod_eq_of_lt (lt_two_pow_bitlen n)] at hfold

/-- A loop that computes `g` of the bits done so far computes `g` of the exponent. -/
theorem foldl_bitsMsb {α : Type} {f : α → Bool → α} {g : Nat → α} (hstep : ∀ m b, f (g m) b = g (2 * m + b.toNat)) (n : Nat) :
    (bitsMsb n).foldl f (g 0) = g n :=
  foldl_bitsMsb_induction (P := fun m x => x = g m) (fun m _ b h => h ▸ hstep m b) n rfl

/-! ### Powers and the overflow law -/

/-- Once a power has left the range no larger exponent brings it back (44_sqrt_pow.md section 3). -/
theorem pow_outside_mono {a : Int} {m k : Nat} (h : ¬ (MIN ≤ a ^ m ∧ a ^ m ≤ MAX)) (hmk : m ≤ k) :
    ¬ (MIN ≤ a ^ k ∧ a ^ k ≤ MAX) := by
  rcases eq_or_lt_of_le hmk with rfl | hlt
  · exact h
  · have hm : 2 ^ 63 ≤ a.natAbs ^ m := by
      rw [← Int.natAbs_pow]
      rw [min_eq, max_eq] at h
      omega
    have ha : 2 ≤ a.natAbs := by
      by_contra hsmall
      have hone : a.natAbs ^ m ≤ 1 := pow_le_one₀ (Nat.zero_le _) (by omega)
      omega
    have hk : 2 * 2 ^ 63 ≤ (a ^ k).natAbs :=
      calc 2 * 2 ^ 63 ≤ a.natAbs * a.natAbs ^ m := Nat.mul_le_mul ha hm
        _ = a.natAbs ^ (m + 1) := (pow_succ' ..).symm
        _ ≤ a.natAbs ^ k := Nat.pow_le_pow_right (by omega) hlt
        _ = (a ^ k).natAbs := (Int.natAbs_pow ..).symm
    rw [min_eq, max_eq]
    omega

/-- Wrapping a factor does not change the wrapped product (00_scope.md R11). -/
theorem wrap64_wrap64_mul (x y : Int) : wrap64 (wrap64 x * y) = wrap64 (x * y) := by
  have hcongr : u64 (wrap64 x * y) = u64 (x * y) := by
    obtain ⟨k, hk⟩ := wrap64_congr x
    exact (u64_eq_iff _ _).mpr ⟨k * y, by rw [hk]; ring⟩
  rw [wrap64, hcongr, wrap64]

theorem powIntStep_ok {ovf : OverflowMode} {x y : Int} (h : fit ovf (x * x) = .ok y) (a : Int) (b : Bool) :
    powIntStep ovf a (.ok x) b = if b then fit ovf (y * a) else .ok y := by
  simp only [powIntStep, h]

theorem powIntStep_overflow {ovf : OverflowMode} {x : Int} {e : CmdError} (h : fit ovf (x * x) = .error e) (a : Int)
    (b : Bool) : powIntStep ovf a (.ok x) b = .error e := by
  simp only [powIntStep, h]

/-- One round keeps the accumulator at the exact power under the overflow law (R207). -/
theorem powIntStep_fit (ovf : OverflowMode) (a : Int) (m : Nat) (b : Bool) :
    powIntStep ovf a (fit ovf (a ^ m)) b = fit ovf (a ^ (2 * m + b.toNat)) := by
  have hsq : a ^ m * a ^ m = a ^ (2 * m) := by rw [two_mul, pow_add]
  cases ovf with
  | unchecked =>
    have hsquare : wrap64 (wrap64 (a ^ m) * wrap64 (a ^ m)) = wrap64 (a ^ (2 * m)) := by
      rw [wrap64_wrap64_mul, mul_comm, wrap64_wrap64_mul, hsq]
    rw [fit_unchecked (a ^ m), powIntStep_ok (fit_unchecked _), hsquare]
    cases b with
    | false => rw [if_neg Bool.false_ne_true, Bool.toNat_false, add_zero, fit_unchecked]
    | true => rw [if_pos rfl, fit_unchecked, wrap64_wrap64_mul, ← pow_succ, Bool.toNat_true, fit_unchecked]
  | checked =>
    by_cases hm : MIN ≤ a ^ m ∧ a ^ m ≤ MAX
    · by_cases h2m : MIN ≤ a ^ (2 * m) ∧ a ^ (2 * m) ≤ MAX
      · rw [fit_inRange hm, powIntStep_ok (hsq ▸ fit_inRange h2m), hsq]
        cases b with
        | false => rw [if_neg Bool.false_ne_true, Bool.toNat_false, add_zero, fit_inRange h2m]
        | true => rw [if_pos rfl, ← pow_succ, Bool.toNat_true]
      · rw [fit_inRange hm, powIntStep_overflow (hsq ▸ fit_checked_outside h2m),
          fit_checked_outside (pow_outside_mono h2m (Nat.le_add_right ..))]
    · have hout : ¬ (MIN ≤ a ^ (2 * m + b.toNat) ∧ a ^ (2 * m + b.toNat) ≤ MAX) := pow_outside_mono hm (by omega)
      rw [fit_checked_outside hm, fit_checked_outside hout, powIntStep]

/-- Repeated squaring under the overflow law at every step is the exact power under the overflow law
(44_sqrt_pow.md section 3). -/
theorem powInt_eq_fit (ovf : OverflowMode) (a : Int) (n : Nat) : powInt ovf a n = fit ovf (a ^ n) := by
  have hone : (.ok 1 : Computed) = fit ovf (a ^ 0) := by rw [pow_zero, fit_inRange (by decide)]
  rw [powInt, hone]
  exact foldl_bitsMsb (g := fun m => fit ovf (a ^ m)) (powIntStep_fit ovf a) n

/-! ### The closed forms of small bases (R209) -/

theorem neg_pow_eq_ite (a : Int) (n : Nat) : (-a) ^ n = if isOdd n then -(a ^ n) else a ^ n := by
  rcases Nat.even_or_odd n with h | h
  · rw [h.neg_pow, if_neg]
    rw [isOdd, beq_iff_eq, Nat.even_iff.mp h]
    decide
  · rw [h.neg_pow, if_pos]
    rw [isOdd, beq_iff_eq, Nat.odd_iff.mp h]

theorem two_pow_le_of_le {n : Nat} (h : n ≤ 62) : (2 : Int) ^ n ≤ 2 ^ 62 := pow_le_pow_right₀ one_le_two h

/-- A power of two from `2^64` on, with either sign, has lost all its bits. -/
theorem fit_two_pow_mul (ovf : OverflowMode) {n : Nat} (hn : 64 ≤ n) {x : Int} (hx : x ≠ 0) :
    fit ovf (2 ^ n * x) = if ovf = .checked then .error .overflow else .ok 0 := by
  have hne : (2 : Int) ^ n * x ≠ 0 := mul_ne_zero (by positivity) hx
  simp only [fit_of_dvd ovf (Dvd.dvd.mul_right (pow_dvd_pow 2 hn) x), ne_eq, hne, not_false_eq_true, and_true]

theorem powClosedForm_two (ovf : OverflowMode) (n : Nat) : powClosedForm ovf 2 n = some (fit ovf (2 ^ n)) := by
  have hne : ¬ ((2 : Int) = -2) := by decide
  have hpos : (0 : Int) < 2 ^ n := by positivity
  simp only [powClosedForm, hne, false_and, if_false, or_false, if_true, OfNat.ofNat_ne_zero, OfNat.ofNat_ne_one,
    (by decide : ¬ (2 : Int) = -1)]
  rcases lt_trichotomy n 63 with h | rfl | h
  · have hle := two_pow_le_of_le (Nat.le_of_lt_succ h)
    rw [if_pos (by omega), fit_inRange (by rw [min_eq, max_eq]; omega)]
  · cases ovf <;> decide
  · have hfit := fit_two_pow_mul ovf h one_ne_zero
    rw [mul_one] at hfit
    rw [if_neg (by omega), hfit, if_neg h.ne']
    cases ovf <;> rfl

theorem powClosedForm_neg_two (ovf : OverflowMode) (n : Nat) : powClosedForm ovf (-2) n = some (fit ovf ((-2) ^ n)) := by
  have hpos : (0 : Int) < 2 ^ n := by positivity
  simp only [powClosedForm, true_and, if_true, or_true, if_false, (by decide : ¬ (-2 : Int) = 0),
    (by decide : ¬ (-2 : Int) = 1), (by decide : ¬ (-2 : Int) = -1)]
  rw [neg_pow_eq_ite]
  rcases lt_trichotomy n 63 with h | rfl | h
  · have hle := two_pow_le_of_le (Nat.le_of_lt_succ h)
    rw [if_pos (by omega), fit_inRange]
    rw [min_eq, max_eq]
    split <;> omega
  · cases ovf <;> decide
  · have hsign : (if isOdd n then -(2 ^ n) else 2 ^ n : Int) = 2 ^ n * if isOdd n then -1 else 1 := by
      split <;> ring
    rw [if_neg (by omega), if_neg h.ne', hsign, fit_two_pow_mul ovf h (by split <;> decide), if_neg h.ne']
    cases ovf <;> rfl

end Sys2Proof.Machine

section
open Sys2Proof Sys2Proof.Machine

/-- Settles O41: each clause is a step of `computePow` that the steps before it do not take. -/
theorem powerStepsInOrder : Obligations.PowerStepsInOrder := by
  intro sel s
  rw [exec_pow]
  refine ⟨fun h => ?_, fun h => ?_, fun hpos hmax ha => ?_, fun hneg hmin ha => ?_, fun hs h => ?_, fun hs ha h => ?_,
    fun hs h => ?_⟩
  · rw [computePow_outside sel _ (by rw [Int.abs_eq_natAbs] at h; omega)]
    rfl
  · rw [h, computePow_zero, conclude_ok, selSF_eq]
  · rw [ha, computePow_base_zero sel (by omega) hpos.ne', if_pos hpos, conclude_ok]
  · rw [ha, computePow_base_zero sel (by omega) hneg.ne, if_neg hneg.not_gt]
    rfl
  · rw [h, computePow_one hs, conclude_ok]
  · rw [h, computePow_neg_one hs ha]
    rfl
  · rw [h, computePow_two hs]
    rfl

/-- Settles O42: the loop is the exact power under the overflow law; the base 0 was answered before it. -/
theorem integerPowerIsExact : Obligations.IntegerPowerIsExact := by
  intro sel s hs hpos hmax
  have hn : s.opN ≠ 0 := by omega
  have hpow : computePow sel s.opA s.opN = fit sel.ovf (s.opA ^ s.opN.toNat) := by
    rcases eq_or_ne s.opA 0 with ha | ha
    · rw [ha, computePow_base_zero sel (by omega) hn, if_pos (by omega), zero_pow (by omega), fit_inRange (by decide)]
    · rw [computePow_scale_zero sel (by omega) hn ha (selScale_eq_zero hs), computePowInt, if_pos (by omega), powInt_eq_fit,
        show s.opN.natAbs = s.opN.toNat by omega]
  rw [exec_pow, hpow, conclude_fit]

/-- Settles O43: the positive power under the overflow law, then the cases of its inverse. -/
theorem integerPowerInverts : Obligations.IntegerPowerInverts := by
  intro sel s hs hneg hmin ha p
  have hpow : computePow sel s.opA s.opN = powIntNeg sel.mode sel.ovf s.opA s.opN.natAbs := by
    rw [computePow_scale_zero sel (by omega) hneg.ne ha (selScale_eq_zero hs), computePowInt, if_neg hneg.not_ge]
  rw [exec_pow, hpow, powIntNeg, powInt_eq_fit]
  by_cases hover : sel.ovf = .checked ∧ ¬ (MIN ≤ p ∧ p ≤ MAX)
  · rw [if_pos hover, hover.1, fit_checked_outside hover.2]
    rfl
  · have hfit : fit sel.ovf p = .ok (wrap64 p) := (fit_cases sel.ovf p).resolve_left fun ⟨ho, hp, _⟩ => hover ⟨ho, hp⟩
    rw [if_neg hover, hfit]
    by_cases hzero : wrap64 p = 0
    · simp only [hzero, if_true]
      rfl
    · simp only [hzero, if_false]
      rw [conclude_rnd _ _ hzero, Int.cast_one]

/-- Settles O44: the loop is `fit` of the power, and each row of the table is that. -/
theorem powerClosedForms : Obligations.PowerClosedForms := by
  intro ovf a n hlow hhigh hn
  rw [powInt_eq_fit]
  rcases (by omega : a = 0 ∨ a = 1 ∨ a = -1 ∨ a = 2 ∨ a = -2) with rfl | rfl | rfl | rfl | rfl
  · rw [zero_pow (by omega), fit_inRange (by decide)]
    rfl
  · rw [one_pow, fit_inRange (by decide)]
    rfl
  · have hrange (odd : Bool) : MIN ≤ (if odd then -1 else 1) ∧ (if odd then -1 else 1) ≤ MAX := by cases odd <;> decide
    rw [neg_pow_eq_ite, one_pow, fit_inRange (hrange _)]
    rfl
  · exact powClosedForm_two ovf n
  · exact powClosedForm_neg_two ovf n

end
end

section
/-! SUPPORT. The 36-digit numbers (spec/44_sqrt_pow.md R210 to R218): product and reciprocal truncate by less than one unit of the
35th fraction digit, and what that makes of the accumulator, with the statements O46 and O47. -/

namespace Sys2Proof.Machine

/-! ### Truncation to a 36-digit number -/

theorem Num36.wf_iff (x : Num36) : x.wf = true ↔ 10 ^ 35 ≤ x.mant ∧ x.mant < 2 * 10 ^ 35 := by
  rw [Num36.wf, decide_eq_true_eq]

/-- `z` is a 36-digit number and `v` with its digits beyond the 35th fraction digit dropped (R214, R215). -/
def Num36.Truncates (z : Num36) (v : ℚ) : Prop :=
  z.wf = true ∧ z.value ≤ v ∧ v < z.value + 2 ^ z.exp / 10 ^ 35

/-- The mantissa is the floor of the scaled value. -/
theorem Num36.truncates_of_floor {z : Num36} {v : ℚ} (hwf : z.wf = true) {n d : Nat} (hd : 0 < d)
    (hv : v = (n : ℚ) / d * (2 ^ z.exp / 10 ^ 35)) (hmant : z.mant = n / d) : z.Truncates v := by
  have hd' : (0 : ℚ) < d := by exact_mod_cast hd
  have hunit : (0 : ℚ) < 2 ^ z.exp / 10 ^ 35 := by positivity
  have hvalue : z.value = z.mant * (2 ^ z.exp / 10 ^ 35) := by rw [Num36.value]; ring
  have hlow : (z.mant : ℚ) ≤ n / d := by
    rw [le_div_iff₀ hd', hmant]
    exact_mod_cast Nat.div_mul_le_self n d
  have hhigh : (n : ℚ) / d < z.mant + 1 := by
    rw [div_lt_iff₀ hd', hmant]
    exact_mod_cast (Nat.lt_mul_div_succ n hd).trans_eq (mul_comm ..)
  refine ⟨hwf, ?_, ?_⟩
  · rw [hvalue, hv]
    exact mul_le_mul_of_nonneg_right hlow hunit.le
  · rw [hvalue, hv, ← add_one_mul]
    exact mul_lt_mul_of_pos_right hhigh hunit

theorem Num36.value_pos {x : Num36} (h : x.wf = true) : 0 < x.value := by
  have hmant : (0 : ℚ) < x.mant := by exact_mod_cast (by decide : 0 < 10 ^ 35).trans_le (x.wf_iff.mp h).1
  rw [Num36.value]
  positivity

/-- The relative error of one truncation (R218). -/
theorem Num36.Truncates.relative {z : Num36} {v : ℚ} (h : z.Truncates v) : (1 - 1 / 10 ^ 35) * v ≤ z.value := by
  obtain ⟨hwf, hle, hlt⟩ := h
  have hmant : (10 ^ 35 : ℚ) ≤ z.mant := by exact_mod_cast (z.wf_iff.mp hwf).1
  have hunit : (2 : ℚ) ^ z.exp ≤ z.value := by
    rw [Num36.value]
    exact le_mul_of_one_le_left (by positivity) ((one_le_div (by positivity)).mpr hmant)
  linarith

/-! ### Product and reciprocal (R214, R215) -/

theorem mul36_truncates {x y : Num36} (hx : x.wf = true) (hy : y.wf = true) : (mul36 x y).Truncates (x.value * y.value) := by
  have hx' := x.wf_iff.mp hx
  have hy' := y.wf_iff.mp hy
  have hmin : 10 ^ 35 * 10 ^ 35 ≤ x.mant * y.mant := Nat.mul_le_mul hx'.1 hy'.1
  have hmax : x.mant * y.mant < 2 * 10 ^ 35 * (2 * 10 ^ 35) := Nat.mul_lt_mul'' hx'.2 hy'.2
  have hexp : (2 : ℚ) ^ (x.exp + y.exp) = 2 ^ x.exp * 2 ^ y.exp := zpow_add₀ two_ne_zero ..
  unfold mul36
  split
  · next hcarry =>
    refine Num36.truncates_of_floor ((Num36.wf_iff _).mpr ?_) (by decide) ?_ rfl
    · dsimp only
      omega
    · rw [zpow_add_one₀ two_ne_zero, hexp, Num36.value, Num36.value]
      push_cast
      field_simp
      ring
  · next hcarry =>
    refine Num36.truncates_of_floor ((Num36.wf_iff _).mpr ?_) (by decide) ?_ rfl
    · dsimp only
      omega
    · rw [hexp, Num36.value, Num36.value]
      push_cast
      field_simp
      ring

theorem inv36_truncates {x : Num36} (hx : x.wf = true) : (inv36 x).Truncates (1 / x.value) := by
  obtain ⟨hmin, hmax⟩ := x.wf_iff.mp hx
  have hpos : (0 : ℚ) < x.mant := by exact_mod_cast (by decide : 0 < 10 ^ 35).trans_le hmin
  unfold inv36
  split
  · next hone =>
    refine Num36.truncates_of_floor (n := 10 ^ 35) (d := 1) ((Num36.wf_iff _).mpr (by norm_num)) one_pos ?_ rfl
    rw [Num36.value, hone, zpow_neg]
    push_cast
    field_simp
    norm_num
  · next hone =>
    refine Num36.truncates_of_floor ((Num36.wf_iff _).mpr ⟨?_, ?_⟩) (by omega) ?_ rfl
    · rw [Nat.le_div_iff_mul_le (by omega)]
      omega
    · rw [Nat.div_lt_iff_lt_mul (by omega)]
      omega
    · rw [Num36.value, zpow_sub_one₀ two_ne_zero, zpow_neg]
      push_cast
      field_simp
      ring

/-- The normalised base is `u / 10^s`, truncated (R213). -/
theorem norm36_truncates {u : Nat} (hu : 1 ≤ u) (s : Nat) : (norm36 u s).Truncates ((u : ℚ) / 10 ^ s) := by
  have hmant := norm36_mant u s
  have hunit : (0 : ℚ) < 2 ^ (norm36 u s).exp / 10 ^ 35 := by positivity
  have hfloor : (u : ℚ) / 10 ^ s = u * 10 ^ 35 / (10 ^ s * 2 ^ (norm36 u s).exp) * (2 ^ (norm36 u s).exp / 10 ^ 35) := by
    field_simp
  have hvalue : (norm36 u s).value = ((norm36 u s).mant : ℚ) * (2 ^ (norm36 u s).exp / 10 ^ 35) := by
    rw [Num36.value]
    ring
  have hcast : ((norm36 u s).mant : ℚ) = (⌊(u : ℚ) * 10 ^ 35 / (10 ^ s * 2 ^ (norm36 u s).exp)⌋ : Int) := by
    rw [← hmant, Int.cast_natCast]
  refine ⟨norm36_wf hu s, ?_, ?_⟩
  · rw [hvalue, hfloor, hcast]
    exact mul_le_mul_of_nonneg_right (Int.floor_le _) hunit.le
  · rw [hvalue, hfloor, hcast, ← add_one_mul]
    exact mul_lt_mul_of_pos_right (Int.lt_floor_add_one _) hunit

/-! ### The accumulator (R211, R212, R218) -/

theorem Num36.one_wf : Num36.one.wf = true := by decide

theorem mul36_wf {x y : Num36} (hx : x.wf = true) (hy : y.wf = true) : (mul36 x y).wf = true := (mul36_truncates hx hy).1

theorem inv36_wf {x : Num36} (hx : x.wf = true) : (inv36 x).wf = true := (inv36_truncates hx).1

theorem pow36_wf {base : Num36} (h : base.wf = true) (n : Nat) : (pow36 base n).wf = true := by
  refine foldl_bitsMsb_induction (P := fun _ (z : Num36) => z.wf = true) (fun m z b hz => ?_) n Num36.one_wf
  unfold pow36Step
  split
  · exact mul36_wf (mul36_wf hz hz) h
  · exact mul36_wf hz hz

/-- The product with 1 is exact, as nothing is dropped. -/
theorem mul36_one {x : Num36} (h : x.wf = true) : mul36 Num36.one x = x := by
  obtain ⟨hmin, hmax⟩ := x.wf_iff.mp h
  have hmant : Num36.one.mant = 10 ^ 35 := rfl
  have hexp : Num36.one.exp = 0 := rfl
  rw [mul36, hmant, hexp, if_neg (by omega), Nat.mul_div_cancel_left _ (by decide), zero_add]

/-- A 36-digit number that stands for `x^m` after `k` truncations, none of them upward. -/
def Num36.Approximates (z : Num36) (x : ℚ) (m k : Nat) : Prop :=
  z.wf = true ∧ z.value ≤ x ^ m ∧ (1 - 1 / 10 ^ 35) ^ k * x ^ m ≤ z.value

section
variable {z z' : Num36} {x : ℚ} {m m' k k' : Nat}

theorem Num36.Approximates.mul (hx : 0 ≤ x) (h : z.Approximates x m k) (h' : z'.Approximates x m' k') :
    (mul36 z z').Approximates x (m + m') (k + k' + 1) := by
  obtain ⟨hwf, hle, hge⟩ := h
  obtain ⟨hwf', hle', hge'⟩ := h'
  have htrunc := mul36_truncates hwf hwf'
  have hpos := (Num36.value_pos hwf).le
  have hpos' := (Num36.value_pos hwf').le
  have heps : (0 : ℚ) ≤ 1 - 1 / 10 ^ 35 := by norm_num
  refine ⟨htrunc.1, ?_, ?_⟩
  · calc (mul36 z z').value ≤ z.value * z'.value := htrunc.2.1
      _ ≤ x ^ m * x ^ m' := mul_le_mul hle hle' hpos' (hpos.trans hle)
      _ = x ^ (m + m') := (pow_add ..).symm
  · calc (1 - 1 / 10 ^ 35) ^ (k + k' + 1) * x ^ (m + m')
        = (1 - 1 / 10 ^ 35) * ((1 - 1 / 10 ^ 35) ^ k * x ^ m * ((1 - 1 / 10 ^ 35) ^ k' * x ^ m')) := by ring
      _ ≤ (1 - 1 / 10 ^ 35) * (z.value * z'.value) :=
        mul_le_mul_of_nonneg_left (mul_le_mul hge hge' (by positivity) hpos) heps
      _ ≤ (mul36 z z').value := htrunc.relative

theorem Num36.Approximates.mono (hx : 0 ≤ x) (h : z.Approximates x m k) (hk : k ≤ k') : z.Approximates x m k' := by
  obtain ⟨hwf, hle, hge⟩ := h
  refine ⟨hwf, hle, le_trans ?_ hge⟩
  exact mul_le_mul_of_nonneg_right (pow_le_pow_of_le_one (by norm_num) (by norm_num) hk) (by positivity)

end

theorem norm36_approximates {u : Nat} (hu : 1 ≤ u) (s : Nat) : (norm36 u s).Approximates ((u : ℚ) / 10 ^ s) 1 1 := by
  have htrunc := norm36_truncates hu s
  refine ⟨htrunc.1, ?_, ?_⟩
  · rw [pow_one]
    exact htrunc.2.1
  · rw [pow_one, pow_one]
    exact htrunc.relative

/-- One round: from `x^m` with `3m - 2` truncations to the next exponent with as many (R218). -/
theorem pow36Step_approximates {base z : Num36} {x : ℚ} (hx : 0 ≤ x) (hbase : base.Approximates x 1 1) {m : Nat} (hm : 1 ≤ m)
    (h : z.Approximates x m (3 * m - 2)) (b : Bool) :
    (pow36Step base z b).Approximates x (2 * m + b.toNat) (3 * (2 * m + b.toNat) - 2) := by
  have hsquare := h.mul hx h
  rw [← two_mul] at hsquare
  cases b with
  | false => exact hsquare.mono hx (by rw [Bool.toNat_false]; omega)
  | true => exact (hsquare.mul hx hbase).mono hx (by rw [Bool.toNat_true]; omega)

/-- The loop starts at 1 exactly, and its first bit that is 1 makes the accumulator the base. -/
theorem pow36_approximates {base : Num36} {x : ℚ} (hx : 0 ≤ x) (hbase : base.Approximates x 1 1) {n : Nat} (hn : 1 ≤ n) :
    (pow36 base n).Approximates x n (3 * n - 2) := by
  have hloop := foldl_bitsMsb_induction
    (P := fun m z => (m = 0 ∧ z = Num36.one) ∨ (1 ≤ m ∧ z.Approximates x m (3 * m - 2))) (f := pow36Step base)
    (fun m z b h => ?_) n (.inl ⟨rfl, rfl⟩)
  · exact (hloop.resolve_left fun h => by omega).2
  · rcases h with ⟨rfl, rfl⟩ | ⟨hm, hz⟩
    · have hsquare : mul36 Num36.one Num36.one = Num36.one := mul36_one Num36.one_wf
      cases b with
      | false => exact .inl ⟨rfl, hsquare⟩
      | true =>
        refine .inr ⟨le_rfl, ?_⟩
        rw [pow36Step, if_pos rfl, hsquare, mul36_one hbase.1]
        exact hbase
    · exact .inr ⟨by omega, pow36Step_approximates hx hbase hm hz b⟩

end Sys2Proof.Machine

section
open Sys2Proof Sys2Proof.Machine

/-- Settles O46: both mantissas are floors of the exact quotient. -/
theorem digit36OperationsTruncate : Obligations.Digit36OperationsTruncate := by
  intro x y hx hy
  obtain ⟨hmulwf, hmul⟩ := mul36_truncates hx hy
  obtain ⟨hinvwf, hinv⟩ := inv36_truncates hx
  exact ⟨hmulwf, hinvwf, hmul.1, hmul.2, hinv⟩

/-- Settles O47: every round adds its truncations to those of its factors, and `3n - 2` is enough for them. -/
theorem powerErrorBound : Obligations.PowerErrorBound := by
  intro u s n hu hn
  exact (pow36_approximates (by positivity) (norm36_approximates hu s) hn).2

end
end

section
/-! SUPPORT. Un-normalising a 36-digit number (spec/44_sqrt_pow.md R211, R216, R217): its formula as a ratio, the exponents at which
it is not formed, and POW on the 36-digit path, with the statements O48 and O49. -/

namespace Sys2Proof.Machine

/-! ### Small exponents (R217(a)) -/

/-- The scaled mantissa of a legal scale is below `2 × 10^53`. -/
theorem mant_mul_lt {x : Num36} (h : x.wf = true) {s : Nat} (hs : s ≤ 18) : x.mant * 10 ^ s < 2 * 10 ^ 53 :=
  calc x.mant * 10 ^ s < 2 * 10 ^ 35 * 10 ^ s := Nat.mul_lt_mul_of_pos_right (x.wf_iff.mp h).2 (by positivity)
    _ ≤ 2 * 10 ^ 35 * 10 ^ 18 := Nat.mul_le_mul_left _ (Nat.pow_le_pow_right (by decide) hs)
    _ = 2 * 10 ^ 53 := by norm_num

theorem natAbs_sign_mul {sign : Int} (hsign : sign = 1 ∨ sign = -1) (n : Nat) : (sign * n).natAbs = n := by
  rcases hsign with rfl | rfl <;> simp

/-- From `2^(-62)` down the value is below 1/2, so every exponent rounds as −62 does. -/
theorem unnorm_small {mode : RoundingMode} {sign : Int} (hsign : sign = 1 ∨ sign = -1) {x : Num36} (h : x.wf = true)
    {s : Nat} (hs : s ≤ 18) (hexp : x.exp ≤ -62) : unnorm mode sign { x with exp := -62 } s = unnorm mode sign x s := by
  have hlt := mant_mul_lt h hs
  have hsmall {k : Nat} (hk : 61 ≤ k) : 2 * (sign * (x.mant * 10 ^ s : Nat)).natAbs < 10 ^ 35 * 2 ^ (k + 1) := by
    rw [natAbs_sign_mul hsign]
    calc 2 * (x.mant * 10 ^ s) < 10 ^ 35 * 2 ^ (61 + 1) := by omega
      _ ≤ 10 ^ 35 * 2 ^ (k + 1) := Nat.mul_le_mul_left _ (Nat.pow_le_pow_right two_pos (by omega))
  obtain ⟨k, hk⟩ : ∃ k, x.exp = Int.negSucc k := Int.eq_negSucc_of_lt_zero (by omega)
  simp only [unnorm, hk]
  exact (rnd_of_lt_half mode (hsmall le_rfl)).trans (rnd_of_lt_half mode (hsmall (by omega))).symm

/-! ### Large exponents (R217(b)) -/

theorem powMod_eq (x n : Nat) {m : Nat} (hm : 1 < m) : powMod x n m = x ^ n % m := by
  have hstep (k : Nat) (b : Bool) :
      (if b then x ^ k % m * (x ^ k % m) % m * x % m else x ^ k % m * (x ^ k % m) % m) = x ^ (2 * k + b.toNat) % m := by
    have hsquare : x ^ k % m * (x ^ k % m) % m = x ^ (2 * k) % m := by rw [← Nat.mul_mod, two_mul, pow_add]
    cases b with
    | false => exact hsquare
    | true =>
      rw [if_pos rfl, hsquare, Nat.mod_mul_mod, ← pow_succ]
      rfl
  have hone : 1 = x ^ 0 % m := by rw [pow_zero, Nat.mod_eq_of_lt hm]
  rw [powMod]
  nth_rw 1 [hone]
  exact foldl_bitsMsb (g := fun k => x ^ k % m) hstep n

theorem unnormHugeRem_eq (mant s k : Nat) : unnormHugeRem mant s k = mant * 10 ^ s * 2 ^ k % unnormF := by
  rw [unnormHugeRem, powMod_eq 2 k (by decide), ← Nat.mul_mod]

/-- The low 64 bits of the truncated quotient come from its remainder, as `F` is odd and `2^64` divides the dividend. -/
theorem unnormHugeLow_eq {n : Nat} (h : 2 ^ 64 ∣ n) : unnormHugeLow (n % unnormF) = n / unnormF % 2 ^ 64 := by
  have hinv : unnormF * unnormFInv ≡ 1 [MOD 2 ^ 64] := by decide
  have hneg : 2 ^ 64 - n % unnormF % 2 ^ 64 + n % unnormF ≡ 0 [MOD 2 ^ 64] := by
    rw [Nat.modEq_zero_iff_dvd]
    omega
  have hdividend : unnormF * (n / unnormF) + n % unnormF ≡ 0 [MOD 2 ^ 64] := by
    rw [Nat.div_add_mod]
    exact Nat.modEq_zero_iff_dvd.mpr h
  have hquot : 2 ^ 64 - n % unnormF % 2 ^ 64 ≡ unnormF * (n / unnormF) [MOD 2 ^ 64] :=
    Nat.ModEq.add_right_cancel' (n % unnormF) (hneg.trans hdividend.symm)
  calc (2 ^ 64 - n % unnormF % 2 ^ 64) * unnormFInv % 2 ^ 64
      = unnormF * (n / unnormF) * unnormFInv % 2 ^ 64 := hquot.mul_right _
    _ = unnormF * unnormFInv * (n / unnormF) % 2 ^ 64 := by rw [mul_right_comm]
    _ = 1 * (n / unnormF) % 2 ^ 64 := hinv.mul_right _
    _ = n / unnormF % 2 ^ 64 := by rw [one_mul]

/-- The class of a remainder does not depend on the unit it is counted in (41_rounding.md R122). -/
theorem part_mul_right (r d : Nat) {c : Nat} (hc : 0 < c) : part (r * c) (d * c) = part r d := by
  have hlt : 2 * (r * c) < d * c ↔ 2 * r < d := by rw [← mul_assoc, Nat.mul_lt_mul_right hc]
  have heq : 2 * (r * c) = d * c ↔ 2 * r = d := by rw [← mul_assoc, Nat.mul_left_inj hc.ne']
  simp only [part, hlt, heq, mul_eq_zero, hc.ne', or_false]

theorem isOdd_mod (q : Nat) : isOdd (q % 2 ^ 64) = isOdd q := by
  rw [isOdd, isOdd, Nat.mod_mod_of_dvd _ (by decide)]

/-- Beyond `2^99` the rounded value is outside the range whatever the increment is. -/
theorem unnorm_outside {sign k : Int} (hsign : sign = 1 ∨ sign = -1) (hk : k = 0 ∨ k = sign) {q : Nat} (hq : 2 ^ 64 ≤ q) :
    ¬ (MIN ≤ sign * q + k ∧ sign * q + k ≤ MAX) := by
  rw [min_eq, max_eq]
  rcases hsign with rfl | rfl <;> omega

theorem wrap64_sign_mul_mod (sign inc : Int) (q : Nat) :
    wrap64 (sign * (q % 2 ^ 64 : Nat) + inc) = wrap64 (sign * q + inc) := by
  have hcongr : u64 (sign * (q % 2 ^ 64 : Nat) + inc) = u64 (sign * q + inc) := by
    rw [u64_eq_iff]
    refine ⟨-(sign * (q / 2 ^ 64 : Nat)), ?_⟩
    have hdm : (q : Int) = 2 ^ 64 * (q / 2 ^ 64 : Nat) + (q % 2 ^ 64 : Nat) := by exact_mod_cast (Nat.div_add_mod q _).symm
    linear_combination (-sign) * hdm
  rw [wrap64, hcongr, wrap64]

/-- The modular evaluation rounds the truncated quotient: only its low bits, its parity and its remainder matter once it is
outside the range (R217(b)). -/
theorem unnormHuge_eq (mode : RoundingMode) (ovf : OverflowMode) {sign : Int} (hsign : sign = 1 ∨ sign = -1)
    {mant s k : Nat} (hk : 64 ≤ k) (hmant : unnormF ≤ mant * 10 ^ s) :
    unnormHuge mode ovf sign mant s k =
      fitRounded ovf (roundMagnitude mode sign (mant * 10 ^ s * 2 ^ k / unnormF)
        (part (mant * 10 ^ s * 2 ^ k % unnormF) unnormF)) := by
  have hdvd : 2 ^ 64 ∣ mant * 10 ^ s * 2 ^ k := Dvd.dvd.mul_left (pow_dvd_pow 2 hk) _
  have hq : 2 ^ 64 ≤ mant * 10 ^ s * 2 ^ k / unnormF := by
    rw [Nat.le_div_iff_mul_le (by decide), mul_comm]
    exact Nat.mul_le_mul hmant (Nat.pow_le_pow_right two_pos hk)
  rw [unnormHuge, roundMagnitude, unnormHugeRem_eq, unnormHugeLow_eq hdvd, isOdd_mod]
  generalize mant * 10 ^ s * 2 ^ k / unnormF = q at *
  generalize part (mant * 10 ^ s * 2 ^ k % unnormF) unnormF = p
  cases hi : increment mode sign (isOdd q) p with
  | error e => rfl
  | ok inc =>
    have hinc : inc = 0 ∨ inc = sign := by
      rcases increment_cases mode (isOdd q) p hsign with ⟨_, _, hc⟩ | hc | ⟨_, hc⟩ <;> rw [hi] at hc
      · cases hc
      · exact .inl (Except.ok.inj hc)
      · exact .inr (Except.ok.inj hc)
    cases ovf with
    | checked => exact (fit_checked_outside (unnorm_outside hsign hinc hq)).symm
    | unchecked => exact (congrArg Except.ok (wrap64_sign_mul_mod ..)).trans (fit_unchecked _).symm

/-- A ratio given by its sign and its magnitude. -/
theorem rnd_sign_mul (mode : RoundingMode) {sign : Int} (hsign : sign = 1 ∨ sign = -1) {n : Nat} (hn : 0 < n) (d : Nat) :
    rnd mode (sign * n) d = roundMagnitude mode sign (n / d) (part (n % d) d) := by
  have hratio : ratioSign (sign * n) d = sign := by
    rw [ratioSign, if_neg (Int.natCast_nonneg d).not_gt]
    rcases hsign with rfl | rfl <;> split <;> omega
  rw [rnd, hratio, natAbs_sign_mul hsign, Int.natAbs_natCast]

/-- From `2^99` up the formula is the modular evaluation: both sides of the ratio lose the factor `2^35`. -/
theorem unnorm_huge {mode : RoundingMode} {ovf : OverflowMode} {sign : Int} (hsign : sign = 1 ∨ sign = -1) {x : Num36}
    (h : x.wf = true) (s : Nat) (hexp : 98 < x.exp) :
    unnormHuge mode ovf sign x.mant s (x.exp - 35).toNat = fitRounded ovf (unnorm mode sign x s) := by
  have hmant : 10 ^ 35 ≤ x.mant * 10 ^ s := (x.wf_iff.mp h).1.trans (Nat.le_mul_of_pos_right _ (by positivity))
  obtain ⟨k, hk⟩ : ∃ k : Nat, x.exp = (k + 35 : Nat) := ⟨(x.exp - 35).toNat, by omega⟩
  have hnum : x.mant * 10 ^ s * 2 ^ (k + 35) = x.mant * 10 ^ s * 2 ^ k * 2 ^ 35 := by rw [pow_add, ← mul_assoc]
  have hden : 10 ^ 35 = unnormF * 2 ^ 35 := by decide
  have hpos : 0 < x.mant * 10 ^ s * 2 ^ (k + 35) :=
    Nat.mul_pos ((by decide : 0 < 10 ^ 35).trans_le hmant) (by positivity)
  have hunnorm : unnorm mode sign x s = rnd mode (sign * (x.mant * 10 ^ s * 2 ^ (k + 35) : Nat)) (10 ^ 35 : Nat) := by
    rw [unnorm, hk]
  rw [hunnorm, rnd_sign_mul mode hsign hpos, hnum, hden, Nat.mul_div_mul_right _ _ (by decide), Nat.mul_mod_mul_right,
    part_mul_right _ _ (by decide), show (x.exp - 35).toNat = k by omega]
  exact unnormHuge_eq mode ovf hsign (by omega) ((by decide : unnormF ≤ 10 ^ 35).trans hmant)

theorem unnormFit_eq (mode : RoundingMode) (ovf : OverflowMode) {sign : Int} (hsign : sign = 1 ∨ sign = -1) {x : Num36}
    (h : x.wf = true) {s : Nat} (hs : s ≤ 18) : unnormFit mode ovf sign x s = fitRounded ovf (unnorm mode sign x s) := by
  unfold unnormFit
  split_ifs with hlow hhigh
  · rw [unnorm_small hsign h hs hlow]
  · rfl
  · exact unnorm_huge hsign h s (not_le.mp hhigh)

/-! ### POW on the 36-digit path (R211) -/

/-- The formula of R216 is `sign × value × 10^s`, rounded. -/
theorem conclude_unnorm (sel : Selector) (sign : Int) (x : Num36) (n : Nat) (s : State) :
    conclude (fitRounded sel.ovf (unnorm sel.mode sign x n)) s =
      .next (s.afterRoundingFit sel (sign * x.value * 10 ^ n)) := by
  unfold unnorm
  split
  · next k hk =>
    have hratio : ((sign * (x.mant * 10 ^ n * 2 ^ k : Nat) : Int) : ℚ) / ((10 ^ 35 : Nat) : Int) = sign * x.value * 10 ^ n := by
      rw [Num36.value, hk, Int.ofNat_eq_natCast, zpow_natCast]
      push_cast
      ring
    rw [conclude_fitRounded_rnd sel _ (by decide), hratio]
  · next k hk =>
    have hratio : ((sign * (x.mant * 10 ^ n : Nat) : Int) : ℚ) / ((10 ^ 35 * 2 ^ (k + 1) : Nat) : Int) =
        sign * x.value * 10 ^ n := by
      rw [Num36.value, hk, zpow_negSucc]
      push_cast
      field_simp
      ring
    rw [conclude_fitRounded_rnd sel _ (by positivity), hratio]

theorem powSign_cases (a n : Int) : powSign a n = 1 ∨ powSign a n = -1 := by
  unfold powSign
  split
  · exact .inr rfl
  · exact .inl rfl

/-- The parity of the exponent is that of its magnitude. -/
theorem powSign_eq (a n : Int) : (powSign a n : ℚ) = if a < 0 ∧ n % 2 = 1 then -1 else 1 := by
  have hodd : isOdd n.natAbs = true ↔ n % 2 = 1 := by
    rw [isOdd, beq_iff_eq]
    omega
  simp only [powSign, hodd]
  split <;> simp

theorem powAcc_wf {a : Int} (ha : a ≠ 0) (n : Int) (s : Nat) : (powAcc a n s).wf = true := by
  have hpow : (pow36 (norm36 a.natAbs s) n.natAbs).wf = true := pow36_wf (norm36_wf (Int.natAbs_pos.mpr ha) s) _
  unfold powAcc
  split
  · exact inv36_wf hpow
  · exact hpow

end Sys2Proof.Machine

section
open Sys2Proof Sys2Proof.Machine

/-- Settles O48: below `2^(-62)` every exponent rounds alike, and from `2^99` on the modular evaluation rounds the same
quotient. -/
theorem extremeExponentsMeetFormula : Obligations.ExtremeExponentsMeetFormula :=
  fun mode ovf _ _ _ hsign hwf hs => unnormFit_eq mode ovf hsign hwf hs

/-- Settles O49: the steps before the 36-digit path do not take these exponents, and the path rounds by the formula. -/
theorem powerRoundsAccumulator : Obligations.PowerRoundsAccumulator := by
  intro sel s hwf hs ha hmax h0 h1 hneg1 h2
  have hpath : computePow sel s.opA s.opN =
      fitRounded sel.ovf (unnorm sel.mode (powSign s.opA s.opN) (powAcc s.opA s.opN (selScale sel)) (selScale sel)) := by
    rw [computePow_scaled sel (by rw [Int.abs_eq_natAbs] at hmax; omega) h0 ha (selScale_ne_zero hs), if_neg h1, if_neg hneg1,
      if_neg h2, computePow36,
      unnormFit_eq (s := selScale sel) _ _ (powSign_cases ..) (powAcc_wf ha ..) ((Selector.wf_iff sel).mp hwf)]
  rw [exec_pow, hpath, conclude_unnorm, powSign_eq]
  rfl

end
end

section
/-! SUPPORT. FROMDBL (spec/46_double_conversion.md R250 to R254): the fields of a pattern, and the rounded value of a finite double
times the scale factor, with the statement O54. -/

namespace Sys2Proof.Machine

/-! ### The fields of a pattern (R250, R251) -/

theorem dblFrac_lt (v : Word) : dblFrac v < 2 ^ 52 := Nat.mod_lt _ (by decide)

theorem dblSign_eq_one_iff (v : Word) : dblSign v = 1 ↔ 2 ^ 63 ≤ v.toNat := by
  have hv := v.isLt
  rw [dblSign]
  omega

/-- The sign a pattern gives its value. -/
def dblSignum (v : Word) : Int := if 2 ^ 63 ≤ v.toNat then -1 else 1

theorem dblSignum_cases (v : Word) : dblSignum v = 1 ∨ dblSignum v = -1 := by
  unfold dblSignum
  split
  · exact .inr rfl
  · exact .inl rfl

theorem decodeDouble_notFinite {v : Word} (h : dblExp v = 2047) : decodeDouble v = .error .notFinite := if_pos h

theorem decodeDouble_subnormal {v : Word} (h : dblExp v = 0) :
    decodeDouble v = .ok { sign := dblSignum v, sig := dblFrac v, exp2 := -1074 } := by
  have hne : dblExp v ≠ 2047 := by omega
  rw [decodeDouble, if_neg hne, if_pos h, dblSignum]
  simp only [dblSign_eq_one_iff]

theorem decodeDouble_normal {v : Word} (h0 : dblExp v ≠ 0) (h : dblExp v ≠ 2047) :
    decodeDouble v = .ok { sign := dblSignum v, sig := 2 ^ 52 + dblFrac v, exp2 := (dblExp v : Int) - 1075 } := by
  rw [decodeDouble, if_neg h, if_neg h0, dblSignum]
  simp only [dblSign_eq_one_iff]

/-! ### The rounded value of a finite double (R252, R254) -/

/-- A rounded ratio is the sign given to the engine times a magnitude (41_rounding.md R125). -/
theorem sign_mul_natAbs_of_rnd {mode : RoundingMode} {sign : Int} (hsign : sign = 1 ∨ sign = -1) {n d : Nat} (hn : 0 < n)
    {r : Int} (h : rnd mode (sign * n) d = .ok r) : sign * r.natAbs = r := by
  rw [rnd_sign_mul mode hsign hn, roundMagnitude] at h
  rcases increment_cases mode (isOdd (n / d)) (part (n % d) d) hsign with ⟨_, _, hi⟩ | hi | ⟨_, hi⟩ <;> rw [hi] at h
  · cases h
  all_goals
    obtain rfl := Except.ok.inj h
    generalize n / d = q
    rcases hsign with rfl | rfl <;> omega

/-- What FROMDBL makes of an exact value: rounded, and out of the range from magnitude `2^63` on, with either sign. -/
def fromdblOutcome (mode : RoundingMode) (x : ℚ) : Computed :=
  if mustRaise mode x then .error .roundingNecessary
  else if 2 ^ 63 ≤ |roundRat mode x| then .error .overflow
  else .ok (roundRat mode x)

theorem mustRaise_intCast (mode : RoundingMode) (r : Int) : mustRaise mode (r : ℚ) = false := by simp [mustRaise]

theorem fromdblOutcome_intCast (mode : RoundingMode) (r : Int) :
    fromdblOutcome mode (r : ℚ) = if 2 ^ 63 ≤ |r| then .error .overflow else .ok r := by
  rw [fromdblOutcome, if_neg (by simp [mustRaise_intCast]), roundRat_intCast]

/-- The overflow test of R252 is on the magnitude, and the sign is given back to what passes it. -/
theorem fromdblFit_ok {sign r : Int} (h : sign * r.natAbs = r) :
    fromdblFit sign (.ok r.natAbs) = if 2 ^ 63 ≤ |r| then .error .overflow else .ok r := by
  have hcond : 2 ^ 63 ≤ |r| ↔ 2 ^ 63 ≤ r.natAbs := by
    rw [Int.abs_eq_natAbs]
    omega
  simp only [fromdblFit, h, hcond]

theorem fromdblFit_magnitude (mode : RoundingMode) {sign : Int} (hsign : sign = 1 ∨ sign = -1) {n : Nat} (hn : 0 < n)
    (e2 : Int) : fromdblFit sign (fromdblMagnitude mode sign n e2) = fromdblOutcome mode (sign * n * 2 ^ e2) := by
  cases e2 with
  | ofNat k =>
    have hvalue : (sign * n * 2 ^ Int.ofNat k : ℚ) = (sign * (n * 2 ^ k : Nat) : Int) := by
      rw [Int.ofNat_eq_natCast, zpow_natCast]
      push_cast
      ring
    have habs : sign * (sign * (n * 2 ^ k : Nat)).natAbs = sign * (n * 2 ^ k : Nat) := by rw [natAbs_sign_mul hsign]
    have hfit := fromdblFit_ok habs
    rw [natAbs_sign_mul hsign] at hfit
    rw [hvalue, fromdblOutcome_intCast, ← hfit]
    rfl
  | negSucc k =>
    have hvalue : (sign * n * 2 ^ Int.negSucc k : ℚ) = ((sign * n : Int) : ℚ) / ((2 ^ (k + 1) : Nat) : Int) := by
      rw [zpow_negSucc]
      push_cast
      ring
    have hden : ((2 ^ (k + 1) : Nat) : Int) ≠ 0 := by positivity
    have hrnd := rnd_eq_roundRat mode (sign * n) hden
    rw [hvalue, fromdblOutcome]
    simp only [mustRaise_div mode _ hden]
    by_cases hraise : mode = .unnecessary ∧ ¬ ((2 ^ (k + 1) : Nat) : Int) ∣ sign * n
    · rw [if_pos hraise] at hrnd ⊢
      rw [fromdblMagnitude, hrnd]
      rfl
    · rw [if_neg hraise] at hrnd ⊢
      rw [fromdblMagnitude, hrnd]
      exact fromdblFit_ok (sign_mul_natAbs_of_rnd hsign hn hrnd)

/-- FROMDBL of a finite double is its value times the scale factor under `fromdblOutcome`. -/
theorem fromdblFinite_eq (sel : Selector) {d : DoubleValue} (hsign : d.sign = 1 ∨ d.sign = -1) :
    fromdblFinite sel d = fromdblOutcome sel.mode (d.value * 10 ^ sel.scale.toNat) := by
  have hvalue : d.value * 10 ^ sel.scale.toNat = d.sign * (d.sig * 10 ^ sel.scale.toNat : Nat) * 2 ^ d.exp2 := by
    rw [DoubleValue.value]
    push_cast
    ring
  rw [fromdblFinite, scaleFactor, selScale, hvalue]
  by_cases hzero : d.sig * 10 ^ sel.scale.toNat = 0
  · have hout := fromdblOutcome_intCast sel.mode 0
    rw [if_pos hzero, hzero, Nat.cast_zero, mul_zero, zero_mul]
    exact hout.symm
  · rw [if_neg hzero, fromdblFit_magnitude sel.mode hsign (Nat.pos_of_ne_zero hzero)]

theorem computeFromdbl_of_decode {v : Word} {d : DoubleValue} (h : decodeDouble v = .ok d)
    (hsign : d.sign = 1 ∨ d.sign = -1) (sel : Selector) :
    computeFromdbl sel v = fromdblOutcome sel.mode (d.value * 10 ^ sel.scale.toNat) := by
  rw [computeFromdbl, h]
  exact fromdblFinite_eq sel hsign

theorem conclude_fromdblOutcome (mode : RoundingMode) (x : ℚ) (s : State) :
    conclude (fromdblOutcome mode x) s =
      .next (if mustRaise mode x then s.withStatus 3
        else if 2 ^ 63 ≤ |roundRat mode x| then s.withStatus 1
        else s.withResult (roundRat mode x)) := by
  unfold fromdblOutcome
  split_ifs <;> rfl

theorem exec_fromdbl (sel : Selector) (s : State) :
    exec (.fromdbl sel) s = conclude (computeFromdbl sel s.cur.opa) s := rfl

end Sys2Proof.Machine

section
open Sys2Proof Sys2Proof.Machine

/-- Settles O54: the pattern decodes to the value its fields spell, and `fromdblOutcome` is the rest. -/
theorem fromDoubleRoundsValue : Obligations.FromDoubleRoundsValue := by
  intro sel s e f sign value exactValue
  have hsign : (dblSignum s.cur.opa : ℚ) = sign := by
    simp only [dblSignum, sign]
    split <;> norm_num
  rw [exec_fromdbl]
  refine ⟨fun h => ?_, fun h => ?_⟩
  · rw [computeFromdbl, decodeDouble_notFinite h]
    rfl
  · obtain ⟨d, hd, hds, hvalue⟩ : ∃ d, decodeDouble s.cur.opa = .ok d ∧ (d.sign = 1 ∨ d.sign = -1) ∧ d.value = value := by
      by_cases h0 : e = 0
      · refine ⟨_, decodeDouble_subnormal h0, dblSignum_cases _, ?_⟩
        simp only [DoubleValue.value, hsign, value, if_pos h0]
        rfl
      · refine ⟨_, decodeDouble_normal h0 h, dblSignum_cases _, ?_⟩
        simp only [DoubleValue.value, hsign, value, if_neg h0]
        push_cast
        rfl
    rw [computeFromdbl_of_decode hd hds, conclude_fromdblOutcome, hvalue]

end
end

section
/-! SUPPORT. TODBL (spec/46_double_conversion.md R257, R258): the nearest integer, packing and unpacking of a normal double, the
double nearest to a decimal, and the way back, with the statements O55 and O56. -/

namespace Sys2Proof.Machine

/-! ### The nearest integer, ties to even -/

/-- Another integer than the chosen one is at least as far, and as far only at a tie, which goes to the even one. -/
theorem nearestEven_nearest (y : ℚ) (n : Int) :
    |(nearestEven y : ℚ) - y| ≤ |(n : ℚ) - y| ∧
    (|(nearestEven y : ℚ) - y| = |(n : ℚ) - y| → n ≠ nearestEven y → nearestEven y % 2 = 0) := by
  have hhalf := abs_nearestEven_sub_le y
  have hother : n ≠ nearestEven y → 1 / 2 ≤ |(n : ℚ) - y| := fun hne => by
    have hone : (1 : ℚ) ≤ |(n : ℚ) - nearestEven y| := by exact_mod_cast Int.one_le_abs (sub_ne_zero.mpr hne)
    have htri := abs_sub_le (n : ℚ) y (nearestEven y)
    rw [abs_sub_comm y] at htri
    linarith
  refine ⟨?_, fun heq hne => ?_⟩
  · rcases eq_or_ne n (nearestEven y) with rfl | hne
    · exact le_rfl
    · exact hhalf.trans (hother hne)
  · have htie : |(nearestEven y : ℚ) - y| = 1 / 2 := le_antisymm hhalf (heq ▸ hother hne)
    have hlow := Int.floor_le y
    have hhigh := Int.lt_floor_add_one y
    unfold nearestEven at htie ⊢
    split_ifs at htie ⊢ with h1 h2 h3
    · rw [abs_sub_comm, abs_of_nonneg (by linarith)] at htie
      linarith
    · rw [abs_of_nonneg (by push_cast; linarith)] at htie
      push_cast at htie
      linarith
    · exact h3
    · omega

theorem nearestEven_bounds {y : ℚ} {l u : Int} (hl : (l : ℚ) ≤ y) (hu : y < u) : l ≤ nearestEven y ∧ nearestEven y ≤ u := by
  have hfloor : l ≤ ⌊y⌋ := Int.le_floor.mpr hl
  have hceil : ⌊y⌋ < u := Int.floor_lt.mpr hu
  unfold nearestEven
  split_ifs <;> omega

theorem nearestEven_intCast (z : Int) : nearestEven (z : ℚ) = z := roundRat_intCast .halfEven z

theorem rndHalfEven_eq (num : Int) {den : Int} (h : den ≠ 0) : rndHalfEven num den = nearestEven ((num : ℚ) / den) := by
  have hrnd := rnd_of_ne_unnecessary (by decide : RoundingMode.halfEven ≠ .unnecessary) num h
  rw [rndHalfEven_spec] at hrnd
  exact Except.ok.inj hrnd

/-! ### Normal doubles -/

/-- A pattern is its three fields (R250). -/
theorem toNat_eq_fields (v : Word) : v.toNat = dblSign v * 2 ^ 63 + dblExp v * 2 ^ 52 + dblFrac v := by
  rw [dblSign, dblExp, dblFrac]
  omega

/-- The two ways a finite double is made of its fields (R251). -/
theorem decodeDouble_fields {v : Word} {d : DoubleValue} (h : decodeDouble v = .ok d) :
    d.sign = dblSignum v ∧
    ((dblExp v = 0 ∧ d.sig = dblFrac v ∧ d.exp2 = -1074) ∨
     (dblExp v ≠ 0 ∧ d.sig = 2 ^ 52 + dblFrac v ∧ d.exp2 = dblExp v - 1075)) := by
  by_cases hinf : dblExp v = 2047
  · rw [decodeDouble_notFinite hinf] at h
    cases h
  by_cases hsub : dblExp v = 0
  · rw [decodeDouble_subnormal hsub] at h
    obtain rfl := Except.ok.inj h
    exact ⟨rfl, .inl ⟨hsub, rfl, rfl⟩⟩
  · rw [decodeDouble_normal hsub hinf] at h
    obtain rfl := Except.ok.inj h
    exact ⟨rfl, .inr ⟨hsub, rfl, rfl⟩⟩

theorem decodeDouble_sign {v : Word} {d : DoubleValue} (h : decodeDouble v = .ok d) : d.sign = 1 ∨ d.sign = -1 :=
  (decodeDouble_fields h).1 ▸ dblSignum_cases v

/-- Every finite double has a significand below `2^53`, at least `2^52` above the least exponent (R251). -/
theorem decodeDouble_sig {v : Word} {d : DoubleValue} (h : decodeDouble v = .ok d) :
    d.sig < 2 ^ 53 ∧ (-1074 < d.exp2 → 2 ^ 52 ≤ d.sig) := by
  have hfrac := dblFrac_lt v
  obtain ⟨_, ⟨_, hsig, hexp⟩ | ⟨_, hsig, hexp⟩⟩ := decodeDouble_fields h <;> omega

/-- Two patterns of one sign, significand and exponent are one pattern. -/
theorem decodeDouble_injective {v w : Word} {d : DoubleValue} (hv : decodeDouble v = .ok d) (hw : decodeDouble w = .ok d) :
    v = w := by
  obtain ⟨hsv, hfv⟩ := decodeDouble_fields hv
  obtain ⟨hsw, hfw⟩ := decodeDouble_fields hw
  have hsign : dblSign v = dblSign w := by
    have hlt (u : Word) : dblSign u < 2 := Nat.div_lt_of_lt_mul u.isLt
    have hv1 := dblSign_eq_one_iff v
    have hw1 := dblSign_eq_one_iff w
    have := hlt v
    have := hlt w
    rw [hsv, dblSignum, dblSignum] at hsw
    split at hsw <;> split at hsw <;> omega
  have hfracv := dblFrac_lt v
  have hfracw := dblFrac_lt w
  apply BitVec.eq_of_toNat_eq
  rw [toNat_eq_fields v, toNat_eq_fields w, hsign]
  omega

/-- Packing a normal significand and exponent gives the pattern that decodes to them (R257). -/
theorem decodeDouble_packDouble {sg : Nat} (hsg : sg = 0 ∨ sg = 1) {q e2 : Int} (hq : 2 ^ 52 ≤ q) (hq53 : q < 2 ^ 53)
    (hmin : -1075 < e2) (hmax : e2 < 972) :
    decodeDouble (packDouble sg q e2) = .ok { sign := if sg = 1 then -1 else 1, sig := q.toNat, exp2 := e2 } := by
  have hnat : (packDouble sg q e2).toNat = sg * 2 ^ 63 + (e2 + 1075).toNat * 2 ^ 52 + (q - 2 ^ 52).toNat := by
    rw [packDouble, BitVec.toNat_ofNat]
    exact Nat.mod_eq_of_lt (by omega)
  have hexp : dblExp (packDouble sg q e2) = (e2 + 1075).toNat := by
    rw [dblExp, hnat]
    omega
  have hfrac : dblFrac (packDouble sg q e2) = (q - 2 ^ 52).toNat := by
    rw [dblFrac, hnat]
    omega
  have hsign : dblSignum (packDouble sg q e2) = if sg = 1 then -1 else 1 := by
    have hiff : 2 ^ 63 ≤ (packDouble sg q e2).toNat ↔ sg = 1 := by
      rw [hnat]
      omega
    simp only [dblSignum, hiff]
  rw [decodeDouble_normal (by omega) (by omega), hexp, hfrac, hsign]
  congr 2 <;> omega

/-! ### The double nearest to a decimal (R257) -/

/-- The magnitude `m / sf` in units of the last place of its binade. -/
def scaledMagnitude (m sf : Nat) : ℚ := (m : ℚ) / sf / 2 ^ toDoubleExp m sf

section
variable {m sf : Nat} (hm : 1 ≤ m) (hsf : 1 ≤ sf)
include hsf

theorem toDoubleSig_eq : toDoubleSig m sf = nearestEven (scaledMagnitude m sf) := by
  have hsf0 : (sf : Int) ≠ 0 := by positivity
  unfold toDoubleSig scaledMagnitude
  split
  · next k hk =>
    rw [rndHalfEven_eq _ (by positivity), hk, Int.ofNat_eq_natCast, zpow_natCast, div_div]
    push_cast
    rfl
  · next k hk =>
    rw [rndHalfEven_eq _ hsf0, hk, zpow_negSucc, div_inv_eq_mul]
    push_cast
    ring_nf

include hm

theorem scaledMagnitude_bounds : (2 ^ 52 : ℚ) ≤ scaledMagnitude m sf ∧ scaledMagnitude m sf < 2 ^ 53 := by
  obtain ⟨hlow, hhigh⟩ := floorLog2_spec hm hsf
  have hunit : (0 : ℚ) < 2 ^ toDoubleExp m sf := by positivity
  have h52 : (2 : ℚ) ^ 52 * 2 ^ toDoubleExp m sf = 2 ^ floorLog2 m sf := by
    rw [← zpow_natCast, ← zpow_add₀ two_ne_zero, toDoubleExp]
    congr 1
    push_cast
    ring
  have h53 : (2 : ℚ) ^ 53 * 2 ^ toDoubleExp m sf = 2 ^ (floorLog2 m sf + 1) := by
    rw [← zpow_natCast, ← zpow_add₀ two_ne_zero, toDoubleExp]
    congr 1
    push_cast
    ring
  rw [scaledMagnitude, le_div_iff₀ hunit, div_lt_iff₀ hunit, h52, h53]
  exact ⟨hlow, hhigh⟩

/-- A decimal of a 64-bit value at a scale of 5 bits is far inside the range of normal doubles. -/
theorem toDoubleExp_bounds (hmmax : m ≤ 2 ^ 63) (hsfmax : sf ≤ 10 ^ 31) : -156 ≤ toDoubleExp m sf ∧ toDoubleExp m sf ≤ 11 := by
  obtain ⟨hlow, hhigh⟩ := floorLog2_spec hm hsf
  have hm1 : (1 : ℚ) ≤ m := by exact_mod_cast hm
  have hsf1 : (1 : ℚ) ≤ sf := by exact_mod_cast hsf
  have hmmax' : (m : ℚ) ≤ 2 ^ 63 := by exact_mod_cast hmmax
  have hsfmax' : (sf : ℚ) ≤ 10 ^ 31 := by exact_mod_cast hsfmax
  have htop : (2 : ℚ) ^ floorLog2 m sf < 2 ^ (64 : Int) :=
    calc (2 : ℚ) ^ floorLog2 m sf ≤ m / sf := hlow
      _ ≤ m := div_le_self (by positivity) hsf1
      _ < 2 ^ (64 : Int) := hmmax'.trans_lt (by norm_num)
  have hbottom : (2 : ℚ) ^ (-103 : Int) < 2 ^ (floorLog2 m sf + 1) :=
    calc (2 : ℚ) ^ (-103 : Int) < 1 / 10 ^ 31 := by norm_num
      _ ≤ m / sf := div_le_div₀ (by positivity) hm1 (by positivity) hsfmax'
      _ < 2 ^ (floorLog2 m sf + 1) := hhigh
  rw [zpow_lt_zpow_iff_right₀ one_lt_two] at htop hbottom
  rw [toDoubleExp]
  omega

end

theorem sign_eq_ite {a : Int} (ha : a ≠ 0) : (if (if a < 0 then 1 else 0) = 1 then -1 else 1 : Int) = Int.sign a := by
  rcases lt_or_gt_of_ne ha with h | h
  · rw [if_pos h, Int.sign_eq_neg_one_of_neg h]
    rfl
  · rw [if_neg h.not_gt, Int.sign_eq_one_of_pos h]
    rfl

/-- TODBL's pattern is a normal double whose magnitude is the rounded significand times its unit: the significand itself, or
`2^52` at the next exponent after a carry (R257). -/
theorem decodeDouble_toBinary64 {a : Int} {sf : Nat} (ha : a ≠ 0) (hmax : a.natAbs ≤ 2 ^ 63) (hsf : 1 ≤ sf)
    (hsfmax : sf ≤ 10 ^ 31) :
    ∃ d, decodeDouble (toBinary64 a sf) = .ok d ∧ d.sign = Int.sign a ∧ 2 ^ 52 ≤ d.sig ∧ d.sig < 2 ^ 53 ∧
      (d.sig : ℚ) * 2 ^ d.exp2 = nearestEven (scaledMagnitude a.natAbs sf) * 2 ^ toDoubleExp a.natAbs sf ∧
      ((d.sig = nearestEven (scaledMagnitude a.natAbs sf) ∧ d.exp2 = toDoubleExp a.natAbs sf) ∨ d.sig % 2 = 0) := by
  have hm : 1 ≤ a.natAbs := Int.natAbs_pos.mpr ha
  obtain ⟨hexpmin, hexpmax⟩ := toDoubleExp_bounds hm hsf hmax hsfmax
  obtain ⟨hlow, hhigh⟩ := scaledMagnitude_bounds hm hsf
  obtain ⟨hqlow, hqhigh⟩ := nearestEven_bounds (l := 2 ^ 52) (u := 2 ^ 53) (by exact_mod_cast hlow) (by exact_mod_cast hhigh)
  have hsg : (if a < 0 then 1 else 0) = 0 ∨ (if a < 0 then 1 else 0) = 1 := by split <;> simp
  rw [toBinary64, if_neg ha, toDoubleSig_eq hsf]
  split
  · next hcarry =>
    refine ⟨_, decodeDouble_packDouble hsg le_rfl (by norm_num) (by omega) (by omega), sign_eq_ite ha, le_rfl, by norm_num,
      ?_, .inr (by dsimp only; decide)⟩
    rw [hcarry, zpow_add_one₀ two_ne_zero]
    push_cast
    ring
  · next hnone =>
    refine ⟨_, decodeDouble_packDouble hsg hqlow (lt_of_le_of_ne hqhigh hnone) (by omega) (by omega), sign_eq_ite ha, ?_, ?_,
      ?_, .inl ⟨Int.toNat_of_nonneg (by omega), rfl⟩⟩
    · dsimp only
      omega
    · dsimp only
      omega
    · have hcast : ((nearestEven (scaledMagnitude a.natAbs sf)).toNat : ℚ) = nearestEven (scaledMagnitude a.natAbs sf) := by
        exact_mod_cast congrArg (Int.cast : Int → ℚ) (Int.toNat_of_nonneg (by omega))
      rw [hcast]

/-- A double of the exponent of the unit or above is a whole number of units, any other is below `2^52` of them. -/
theorem double_units {v : Word} {d : DoubleValue} (h : decodeDouble v = .ok d) {sign : Int} (hsign : sign = 1 ∨ sign = -1)
    (e2 : Int) :
    ∃ t : ℚ, d.value = sign * t * 2 ^ e2 ∧
      ((∃ k : Nat, d.exp2 = e2 + k ∧ t = (sign * d.sign * (d.sig * 2 ^ k : Nat) : Int)) ∨ t < 2 ^ 52) := by
  have hsq : (sign : ℚ) * sign = 1 := by rcases hsign with rfl | rfl <;> norm_num
  refine ⟨sign * d.sign * d.sig * 2 ^ (d.exp2 - e2), ?_, ?_⟩
  · have hexp : (2 : ℚ) ^ (d.exp2 - e2) * 2 ^ e2 = 2 ^ d.exp2 := by rw [← zpow_add₀ two_ne_zero, sub_add_cancel]
    rw [DoubleValue.value, ← hexp]
    linear_combination (-(d.sign * d.sig * 2 ^ (d.exp2 - e2) * 2 ^ e2 : ℚ)) * hsq
  · rcases le_or_gt e2 d.exp2 with hle | hlt
    · obtain ⟨k, hk⟩ := Int.eq_ofNat_of_zero_le (sub_nonneg.mpr hle)
      refine .inl ⟨k, by omega, ?_⟩
      rw [hk, zpow_natCast]
      push_cast
      ring
    · right
      have hsig : (d.sig : ℚ) < 2 ^ 53 := by exact_mod_cast (decodeDouble_sig h).1
      have hpow : (2 : ℚ) ^ (d.exp2 - e2) ≤ 2 ^ (-1 : Int) := zpow_le_zpow_right₀ one_le_two (by omega)
      have hprod : (sign : ℚ) * d.sign ≤ 1 := by
        rcases hsign with rfl | rfl <;> rcases decodeDouble_sign h with hd | hd <;> rw [hd] <;> norm_num
      calc (sign : ℚ) * d.sign * d.sig * 2 ^ (d.exp2 - e2)
          = sign * d.sign * (d.sig * 2 ^ (d.exp2 - e2)) := by ring
        _ ≤ 1 * (d.sig * 2 ^ (d.exp2 - e2)) := mul_le_mul_of_nonneg_right hprod (by positivity)
        _ ≤ 1 * (d.sig * 2 ^ (-1 : Int)) := by gcongr
        _ < 2 ^ 52 := by
          rw [zpow_neg_one]
          linarith

/-- A whole number of units that is the significand of a normal double is made by that double only. -/
theorem double_of_units {v : Word} {d : DoubleValue} (h : decodeDouble v = .ok d) {sign : Int}
    (hsign : sign = 1 ∨ sign = -1) {e2 : Int} (he2 : -1074 < e2) {q k : Nat} (hq : 0 < q) (hq53 : q < 2 ^ 53)
    (hexp : d.exp2 = e2 + k) (hunits : sign * d.sign * (d.sig * 2 ^ k : Nat) = q) :
    d = { sign := sign, sig := q, exp2 := e2 } := by
  have hnormal := (decodeDouble_sig h).2 (by omega)
  have hpos : 0 < d.sig * 2 ^ k := by positivity
  have hsame : d.sign = sign ∧ d.sig * 2 ^ k = q := by
    rcases hsign with rfl | rfl <;> rcases decodeDouble_sign h with hd | hd <;> rw [hd] at hunits ⊢ <;>
      refine ⟨?_, ?_⟩ <;> omega
  have hk : k = 0 := by
    by_contra hne
    have htwo : 2 ^ 1 ≤ 2 ^ k := two_pow_mono (Nat.one_le_iff_ne_zero.mpr hne)
    have hbig := Nat.mul_le_mul hnormal htwo
    omega
  rw [hk, pow_zero, mul_one] at hsame
  have he : d.exp2 = e2 := by omega
  rw [← hsame.1, ← hsame.2, ← he]

theorem abs_sign_mul_sub {sign : Int} (hsign : sign = 1 ∨ sign = -1) (t y e : ℚ) (he : 0 < e) :
    |sign * t * e - sign * y * e| = |t - y| * e := by
  have habs : |(sign : ℚ)| = 1 := by rcases hsign with rfl | rfl <;> norm_num
  rw [← sub_mul, ← mul_sub, abs_mul, abs_mul, habs, one_mul, abs_of_pos he]

/-- No finite double is closer than TODBL's, and where another is as close its significand is even (R257). -/
theorem toBinary64_nearest {a : Int} {sf : Nat} (ha : a ≠ 0) (hmax : a.natAbs ≤ 2 ^ 63)
    (hsf : 1 ≤ sf) (hsfmax : sf ≤ 10 ^ 31) {d : DoubleValue} (hd : decodeDouble (toBinary64 a sf) = .ok d) {w : Word} {d' : DoubleValue}
    (hw : decodeDouble w = .ok d') :
    |d.value - a / sf| ≤ |d'.value - a / sf| ∧
    (|d.value - a / sf| = |d'.value - a / sf| → w ≠ toBinary64 a sf → d.sig % 2 = 0) := by
  have hm : 1 ≤ a.natAbs := Int.natAbs_pos.mpr ha
  have hexp := toDoubleExp_bounds hm hsf hmax hsfmax
  have hlow := (scaledMagnitude_bounds hm hsf).1
  obtain ⟨d0, hd0, hsign, hsig, hsig53, hvalue, hparity⟩ := decodeDouble_toBinary64 ha hmax hsf hsfmax
  obtain rfl := Except.ok.inj (hd.symm.trans hd0)
  have hs : Int.sign a = 1 ∨ Int.sign a = -1 := hsign ▸ decodeDouble_sign hd
  have hunit : (0 : ℚ) < 2 ^ toDoubleExp a.natAbs sf := by positivity
  have hx : (a : ℚ) / sf = Int.sign a * scaledMagnitude a.natAbs sf * 2 ^ toDoubleExp a.natAbs sf := by
    have hcast : (a : ℚ) = Int.sign a * a.natAbs := by rw [← Int.cast_natCast, ← Int.cast_mul, Int.sign_mul_natAbs]
    rw [mul_assoc, scaledMagnitude, div_mul_cancel₀ _ hunit.ne', ← mul_div_assoc, ← hcast]
  have hv : d.value = Int.sign a * nearestEven (scaledMagnitude a.natAbs sf) * 2 ^ toDoubleExp a.natAbs sf := by
    rw [DoubleValue.value, hsign, mul_assoc, hvalue, ← mul_assoc]
  obtain ⟨t, ht, hunits⟩ := double_units hw hs (toDoubleExp a.natAbs sf)
  rw [hx, hv, ht, abs_sign_mul_sub hs _ _ _ hunit, abs_sign_mul_sub hs _ _ _ hunit, mul_le_mul_iff_left₀ hunit,
    mul_left_inj' hunit.ne']
  generalize scaledMagnitude a.natAbs sf = y at *
  rcases hunits with ⟨k, hk, rfl⟩ | hsmall
  · obtain ⟨hle, htie⟩ := nearestEven_nearest y (Int.sign a * d'.sign * (d'.sig * 2 ^ k : Nat))
    refine ⟨hle, fun heq hne => hparity.elim (fun ⟨hq, he⟩ => ?_) id⟩
    have heven := htie heq fun hsame => hne ?_
    · omega
    · have hd' := double_of_units hw hs (by omega) (q := d.sig) (by omega) hsig53 hk (hsame.trans hq.symm)
      rw [← hsign, ← he] at hd'
      exact decodeDouble_injective (hw.trans (congrArg _ hd')) hd
  · have hstrict : |(nearestEven y : ℚ) - y| < |t - y| := by
      have h52 := (nearestEven_nearest y (2 ^ 52)).1
      rw [Int.cast_pow, Int.cast_ofNat] at h52
      rw [abs_of_nonpos (by linarith : (2 : ℚ) ^ 52 - y ≤ 0)] at h52
      rw [abs_of_neg (by linarith : t - y < 0)]
      linarith
    exact ⟨hstrict.le, fun heq => absurd heq hstrict.ne⟩

theorem exec_todbl (sel : Selector) (s : State) :
    exec (.todbl sel) s = .next (s.withResult (toBinary64 s.opA (10 ^ sel.scale.toNat)).toInt) := conclude_ok ..

/-- The scale factor of a field of 5 bits. -/
theorem ten_pow_scale_bounds (sel : Selector) : 1 ≤ 10 ^ sel.scale.toNat ∧ 10 ^ sel.scale.toNat ≤ 10 ^ 31 :=
  ⟨Nat.one_le_pow _ _ (by decide), Nat.pow_le_pow_right (by decide) (Nat.le_of_lt_succ sel.scale.isLt)⟩

theorem toBinary64_zero (sf : Nat) : toBinary64 0 sf = 0 := rfl

/-! ### The way back (R258) -/

/-- The value of TODBL's pattern. -/
theorem value_toBinary64 {a : Int} {sf : Nat} (ha : a ≠ 0) (hmax : a.natAbs ≤ 2 ^ 63) (hsf : 1 ≤ sf) (hsfmax : sf ≤ 10 ^ 31) :
    ∃ d, decodeDouble (toBinary64 a sf) = .ok d ∧ (d.sign = 1 ∨ d.sign = -1) ∧
      d.value = Int.sign a * (nearestEven (scaledMagnitude a.natAbs sf) * 2 ^ toDoubleExp a.natAbs sf) := by
  obtain ⟨d, hd, hsign, _, _, hvalue, _⟩ := decodeDouble_toBinary64 ha hmax hsf hsfmax
  exact ⟨d, hd, decodeDouble_sign hd, by rw [DoubleValue.value, hsign, mul_assoc, hvalue]⟩

theorem computeFromdbl_zero (sel : Selector) : computeFromdbl sel 0 = .ok 0 := by
  have hsub : dblExp 0 = 0 := by decide
  have hvalue : DoubleValue.value { sign := dblSignum 0, sig := dblFrac 0, exp2 := -1074 } * 10 ^ sel.scale.toNat
      = ((0 : Int) : ℚ) := by
    rw [DoubleValue.value, show dblFrac 0 = 0 by decide]
    simp
  rw [computeFromdbl_of_decode (decodeDouble_subnormal hsub) (dblSignum_cases 0), hvalue, fromdblOutcome_intCast,
    if_neg (by decide)]

theorem scaledMagnitude_mul (m sf : Nat) : scaledMagnitude m sf * 2 ^ toDoubleExp m sf = (m : ℚ) / sf :=
  div_mul_cancel₀ _ (by positivity)

theorem sign_mul_natAbs_cast (a : Int) : (Int.sign a : ℚ) * a.natAbs = a := by
  rw [← Int.cast_natCast, ← Int.cast_mul, Int.sign_mul_natAbs]

/-- An integer of 53 bits is a whole number of units (R258(a)). -/
theorem exists_scaledMagnitude_eq {m : Nat} (hm : 1 ≤ m) (hmax : m ≤ 2 ^ 53) : ∃ z : Int, scaledMagnitude m 1 = z := by
  have hlow := (scaledMagnitude_bounds hm le_rfl).1
  have hvalue := scaledMagnitude_mul m 1
  rw [Nat.cast_one, div_one] at hvalue
  rcases le_or_gt (toDoubleExp m 1) 0 with hexp | hexp
  · obtain ⟨k, hk⟩ := Int.eq_ofNat_of_zero_le (neg_nonneg.mpr hexp)
    refine ⟨m * 2 ^ k, ?_⟩
    have hexp' : toDoubleExp m 1 = -(k : Int) := by omega
    rw [scaledMagnitude, hexp', zpow_neg, zpow_natCast, Nat.cast_one, div_one, div_inv_eq_mul]
    push_cast
    rfl
  · refine ⟨2 ^ 52, le_antisymm ?_ (by exact_mod_cast hlow)⟩
    have htwo : (2 : ℚ) ≤ 2 ^ toDoubleExp m 1 := by
      simpa using zpow_le_zpow_right₀ (one_le_two (α := ℚ)) (by omega : (1 : Int) ≤ toDoubleExp m 1)
    have hmax' : (m : ℚ) ≤ 2 ^ 53 := by exact_mod_cast hmax
    have hpos : (0 : ℚ) ≤ scaledMagnitude m 1 := le_trans (by norm_num) hlow
    have hprod := mul_le_mul_of_nonneg_left htwo hpos
    push_cast
    linarith

theorem computeFromdbl_toBinary64_one {sel : Selector} (hs : sel.scale = 0) {a : Int} (ha : a ≠ 0)
    (hmax : a.natAbs ≤ 2 ^ 53) : computeFromdbl sel (toBinary64 a 1) = .ok a := by
  obtain ⟨d, hd, hsign, hvalue⟩ := value_toBinary64 ha (by omega) le_rfl (by decide)
  obtain ⟨z, hz⟩ := exists_scaledMagnitude_eq (Int.natAbs_pos.mpr ha) hmax
  have hexact : d.value * 10 ^ sel.scale.toNat = (a : ℚ) := by
    rw [hvalue, hz, nearestEven_intCast, ← hz, scaledMagnitude_mul, Nat.cast_one, div_one, sign_mul_natAbs_cast, hs]
    exact mul_one _
  rw [computeFromdbl_of_decode hd hsign, hexact, fromdblOutcome_intCast, if_neg]
  rw [Int.abs_eq_natAbs]
  omega

/-- A value less than half a unit from an integer rounds to it in the half modes. -/
theorem roundRat_of_near {mode : RoundingMode} (hm : mode = .halfUp ∨ mode = .halfDown ∨ mode = .halfEven) {x : ℚ} {a : Int}
    (h : |x - a| < 1 / 2) : roundRat mode x = a := by
  have hround := abs_roundRat_sub_le_half hm x
  have htri := abs_sub_le (roundRat mode x : ℚ) x a
  have hone : |(roundRat mode x : ℚ) - a| < 1 := by linarith
  have hint : |roundRat mode x - a| < 1 := by exact_mod_cast hone
  exact sub_eq_zero.mp (Int.abs_lt_one_iff.mp hint)

/-- Below `2^52` the unit of the double is less than the unit of the decimal, so the error is less than half of it
(R258(b)). -/
theorem abs_value_mul_sub_lt {a : Int} {sf : Nat} (ha : a ≠ 0) (hmax : a.natAbs < 2 ^ 52) (hsf : 1 ≤ sf) :
    |Int.sign a * (nearestEven (scaledMagnitude a.natAbs sf) * 2 ^ toDoubleExp a.natAbs sf) * sf - (a : ℚ)| < 1 / 2 := by
  have hlow := (scaledMagnitude_bounds (Int.natAbs_pos.mpr ha) hsf).1
  have hvalue := scaledMagnitude_mul a.natAbs sf
  have hnear := abs_nearestEven_sub_le (scaledMagnitude a.natAbs sf)
  have hsf' : (0 : ℚ) < sf := by exact_mod_cast hsf
  have hunit : (0 : ℚ) < 2 ^ toDoubleExp a.natAbs sf * sf := by positivity
  have hsign : |(Int.sign a : ℚ)| = 1 := by
    rcases lt_or_gt_of_ne ha with h | h
    · rw [Int.sign_eq_neg_one_of_neg h]; norm_num
    · rw [Int.sign_eq_one_of_pos h]; norm_num
  have hmag : scaledMagnitude a.natAbs sf * (2 ^ toDoubleExp a.natAbs sf * sf) = a.natAbs := by
    rw [← mul_assoc, hvalue, div_mul_cancel₀ _ hsf'.ne']
  have hmax' : (a.natAbs : ℚ) < 2 ^ 52 := by exact_mod_cast hmax
  have hsmall : (2 : ℚ) ^ toDoubleExp a.natAbs sf * sf < 1 := by
    have hprod := mul_le_mul_of_nonneg_right hlow hunit.le
    rw [hmag] at hprod
    linarith
  have hdiff : Int.sign a * (nearestEven (scaledMagnitude a.natAbs sf) * 2 ^ toDoubleExp a.natAbs sf) * sf - (a : ℚ)
      = Int.sign a * ((nearestEven (scaledMagnitude a.natAbs sf) - scaledMagnitude a.natAbs sf)
        * (2 ^ toDoubleExp a.natAbs sf * sf)) := by
    rw [sub_mul, hmag, mul_sub, sign_mul_natAbs_cast]
    ring
  rw [hdiff, abs_mul, hsign, one_mul, abs_mul, abs_of_pos hunit]
  calc |(nearestEven (scaledMagnitude a.natAbs sf) : ℚ) - scaledMagnitude a.natAbs sf| * (2 ^ toDoubleExp a.natAbs sf * sf)
      ≤ 1 / 2 * (2 ^ toDoubleExp a.natAbs sf * sf) := mul_le_mul_of_nonneg_right hnear hunit.le
    _ < 1 / 2 := by linarith

theorem computeFromdbl_toBinary64_half {sel : Selector} (hm : sel.mode = .halfUp ∨ sel.mode = .halfDown ∨ sel.mode = .halfEven)
    {a : Int} (ha : a ≠ 0) (hmax : a.natAbs < 2 ^ 52) :
    computeFromdbl sel (toBinary64 a (10 ^ sel.scale.toNat)) = .ok a := by
  obtain ⟨hsf, hsfmax⟩ := ten_pow_scale_bounds sel
  obtain ⟨d, hd, hsign, hvalue⟩ := value_toBinary64 ha (by omega) hsf hsfmax
  have hnear : |d.value * 10 ^ sel.scale.toNat - a| < 1 / 2 := by
    have hlt := abs_value_mul_sub_lt ha hmax hsf
    rw [← hvalue] at hlt
    rwa [Nat.cast_pow, Nat.cast_ofNat] at hlt
  have hmode : sel.mode ≠ .unnecessary := by rcases hm with h | h | h <;> rw [h] <;> decide
  have htotal : ¬ mustRaise sel.mode (d.value * 10 ^ sel.scale.toNat) = true := by simp [mustRaise, hmode]
  rw [computeFromdbl_of_decode hd hsign, fromdblOutcome, if_neg htotal, roundRat_of_near hm hnear, if_neg]
  rw [Int.abs_eq_natAbs]
  omega

end Sys2Proof.Machine

section
open Sys2Proof Sys2Proof.Machine

/-- Settles O55: zero has the pattern 0, and else the pattern is the nearest double of R257. -/
theorem toDoubleIsNearest : Obligations.ToDoubleIsNearest := by
  intro sel s
  obtain ⟨hsf, hsfmax⟩ := ten_pow_scale_bounds sel
  have hmax : s.opA.natAbs ≤ 2 ^ 63 := by
    have hbounds := s.opA_bounds
    rw [min_eq, max_eq] at hbounds
    omega
  refine ⟨_, exec_todbl sel s, fun h => by rw [h, toBinary64_zero], fun ha => ?_⟩
  obtain ⟨d, hd, hsign, hsig, hsig53, _⟩ := decodeDouble_toBinary64 ha hmax hsf hsfmax
  refine ⟨d, hd, hsign, hsig, hsig53, fun w' d' hd' => ?_⟩
  have hnearest := toBinary64_nearest ha hmax hsf hsfmax hd hd'
  rwa [Nat.cast_pow, Nat.cast_ofNat] at hnearest

/-- Settles O56: in (a) the double is exact, and in (b) its error is less than half a unit. -/
theorem doubleRoundTrip : Obligations.DoubleRoundTrip := by
  intro sel a _
  rw [Int.abs_eq_natAbs]
  rcases eq_or_ne a 0 with rfl | ha
  · rw [toBinary64_zero]
    exact ⟨fun _ _ => computeFromdbl_zero sel, fun _ _ => computeFromdbl_zero sel⟩
  · refine ⟨fun hs hmax => ?_, fun hm hmax => computeFromdbl_toBinary64_half hm ha (by omega)⟩
    have hone : 10 ^ sel.scale.toNat = 1 := by rw [hs]; rfl
    rw [hone]
    exact computeFromdbl_toBinary64_one hs ha (by omega)

end
end

section
/-! SUPPORT. Decimal text (spec/47_dispatch_and_text.md R277 to R279): the digits a formatter writes are the digits a parser spells,
with the statement O60. -/

namespace Sys2Proof.Machine

/-! ### Digits -/

theorem digitValue?_digitChar {d : Nat} (h : d < 10) : digitValue? (digitChar d) = some d := by
  interval_cases d <;> decide

theorem digitChar_ne {d : Nat} (h : d < 10) : digitChar d ≠ '.' ∧ digitChar d ≠ '-' ∧ digitChar d ≠ '+' := by
  interval_cases d <;> decide

/-- Every character is an ASCII digit. -/
def AllDigits (t : List Char) : Prop := ∀ c ∈ t, ∃ d < 10, c = digitChar d

theorem allDigits_append {t t' : List Char} (h : AllDigits t) (h' : AllDigits t') : AllDigits (t ++ t') :=
  fun c hc => (List.mem_append.mp hc).elim (h c) (h' c)

theorem allDigits_singleton {d : Nat} (h : d < 10) : AllDigits [digitChar d] :=
  fun _ hc => ⟨d, h, List.mem_singleton.mp hc⟩

theorem allDigits_plainDigits (k n : Nat) : AllDigits (plainDigits k n) := by
  induction k generalizing n with
  | zero => exact allDigits_singleton (Nat.mod_lt _ (by decide))
  | succ k ih =>
    rw [plainDigits]
    split
    · next h => exact allDigits_singleton h
    · exact allDigits_append (ih _) (allDigits_singleton (Nat.mod_lt _ (by decide)))

theorem plainDigits_ne_nil (k n : Nat) : plainDigits k n ≠ [] := by
  cases k with
  | zero => exact List.cons_ne_nil _ _
  | succ k =>
    rw [plainDigits]
    split
    · exact List.cons_ne_nil _ _
    · exact List.append_ne_nil_of_right_ne_nil _ (List.cons_ne_nil _ _)

theorem length_paddedDigits (k n : Nat) : (paddedDigits k n).length = k := by
  induction k generalizing n with
  | zero => rfl
  | succ k ih => rw [paddedDigits, List.length_append, ih, List.length_singleton]

/-! ### Spelling -/

theorem spellDigits_append (v : Nat) (t t' : List Char) :
    spellDigits v (t ++ t') = (spellDigits v t).bind fun w => spellDigits w t' := by
  induction t generalizing v with
  | nil => rfl
  | cons c t ih =>
    rw [List.cons_append, spellDigits, spellDigits]
    cases digitValue? c with
    | none => rfl
    | some d => exact ih _

theorem spellDigits_singleton (v : Nat) {d : Nat} (h : d < 10) : spellDigits v [digitChar d] = some (10 * v + d) := by
  simp only [spellDigits, digitValue?_digitChar h]

/-- The last `k` digits add their number below `10^k` (R278). -/
theorem spellDigits_paddedDigits (v k n : Nat) : spellDigits v (paddedDigits k n) = some (v * 10 ^ k + n % 10 ^ k) := by
  induction k generalizing n with
  | zero => rw [paddedDigits, spellDigits, pow_zero, mul_one, Nat.mod_one, add_zero]
  | succ k ih =>
    have hdigit : n % 10 ^ (k + 1) = 10 * (n / 10 % 10 ^ k) + n % 10 := by
      rw [pow_succ', Nat.mod_mul]
      ring
    rw [paddedDigits, spellDigits_append, ih, Option.bind_some, spellDigits_singleton _ (Nat.mod_lt _ (by decide)), hdigit]
    congr 1
    ring

theorem spellDigits_plainDigits {k n : Nat} (h : n < 10 ^ (k + 1)) : spellDigits 0 (plainDigits k n) = some n := by
  induction k generalizing n with
  | zero =>
    rw [plainDigits, spellDigits_singleton _ (Nat.mod_lt _ (by decide)), Nat.mod_eq_of_lt (by simpa using h), mul_zero,
      zero_add]
  | succ k ih =>
    rw [plainDigits]
    split
    · next hlt => rw [spellDigits_singleton _ hlt, mul_zero, zero_add]
    · rw [spellDigits_append, ih (by rw [pow_succ] at h; omega), Option.bind_some,
        spellDigits_singleton _ (Nat.mod_lt _ (by decide)), Nat.div_add_mod]

/-- The bit length bounds the number of decimal digits. -/
theorem spellDigits_plainDigits_bitlen (n : Nat) : spellDigits 0 (plainDigits (bitlen n) n) = some n := by
  refine spellDigits_plainDigits ((lt_two_pow_bitlen n).trans_le ?_)
  exact (Nat.pow_le_pow_left (by decide) _).trans (Nat.pow_le_pow_right (by decide) (Nat.le_succ _))

/-! ### Parsing -/

theorem splitPoint_digits {t : List Char} (h : AllDigits t) : splitPoint t = (t, none) := by
  induction t with
  | nil => rfl
  | cons c t ih =>
    obtain ⟨d, hd, rfl⟩ := h c List.mem_cons_self
    rw [splitPoint, if_neg (digitChar_ne hd).1, ih fun x hx => h x (List.mem_cons_of_mem _ hx)]

theorem splitPoint_point {t : List Char} (h : AllDigits t) (f : List Char) : splitPoint (t ++ '.' :: f) = (t, some f) := by
  induction t with
  | nil => rfl
  | cons c t ih =>
    obtain ⟨d, hd, rfl⟩ := h c List.mem_cons_self
    rw [List.cons_append, splitPoint, if_neg (digitChar_ne hd).1, ih fun x hx => h x (List.mem_cons_of_mem _ hx)]

theorem parseUnsigned_digits {t : List Char} (hne : t ≠ []) (h : AllDigits t) {v : Nat} (hv : spellDigits 0 t = some v) :
    parseUnsigned t = some (v, 0) := by
  obtain ⟨c, t, rfl⟩ := List.exists_cons_of_ne_nil hne
  rw [parseUnsigned, splitPoint_digits h]
  simp only [hv]

theorem parseUnsigned_point {t f : List Char} (hne : t ≠ []) (h : AllDigits t) (hf : f ≠ []) {v w : Nat}
    (hv : spellDigits 0 t = some v) (hw : spellDigits v f = some w) : parseUnsigned (t ++ '.' :: f) = some (w, f.length) := by
  obtain ⟨c, t, rfl⟩ := List.exists_cons_of_ne_nil hne
  obtain ⟨e, f, rfl⟩ := List.exists_cons_of_ne_nil hf
  rw [parseUnsigned, splitPoint_point h]
  simp only [hv, hw]

theorem parseDecimalText_minus (t : List Char) :
    parseDecimalText ('-' :: t) =
      (parseUnsigned t).map (fun r => { negative := true, digits := r.1, fraction := r.2 }) := rfl

theorem parseDecimalText_digits {t t' : List Char} (hne : t ≠ []) (h : AllDigits t) :
    parseDecimalText (t ++ t') =
      (parseUnsigned (t ++ t')).map (fun r => { negative := false, digits := r.1, fraction := r.2 }) := by
  obtain ⟨c, t, rfl⟩ := List.exists_cons_of_ne_nil hne
  obtain ⟨d, hd, rfl⟩ := h c List.mem_cons_self
  obtain ⟨_, hminus, hplus⟩ := digitChar_ne hd
  unfold parseDecimalText
  split
  · next heq => exact absurd (List.cons.inj heq).1 hminus
  · next heq => exact absurd (List.cons.inj heq).1 hplus
  · rfl

/-! ### The round trip (R279) -/

/-- The digits of a text without its sign. -/
def unsignedText (s n : Nat) : List Char :=
  plainDigits (bitlen (n / 10 ^ s)) (n / 10 ^ s) ++ if 0 < s then '.' :: paddedDigits s (n % 10 ^ s) else []

theorem toDecimalText_eq (s : Nat) (u : Int) :
    toDecimalText s u = (if u < 0 then ['-'] else []) ++ unsignedText s u.natAbs := by
  have hrom : (romSF s).natAbs = 10 ^ s := Int.natAbs_natCast _
  rw [toDecimalText, natAbs_quot, natAbs_rem, hrom, List.append_assoc, unsignedText]

theorem parseUnsigned_unsignedText (s n : Nat) : parseUnsigned (unsignedText s n) = some (n, s) := by
  have hdigits := allDigits_plainDigits (bitlen (n / 10 ^ s)) (n / 10 ^ s)
  have hne := plainDigits_ne_nil (bitlen (n / 10 ^ s)) (n / 10 ^ s)
  have hspell := spellDigits_plainDigits_bitlen (n / 10 ^ s)
  unfold unsignedText
  split
  · next hs =>
    have hpad : paddedDigits s (n % 10 ^ s) ≠ [] := fun hnil => by
      have hlen := length_paddedDigits s (n % 10 ^ s)
      rw [hnil, List.length_nil] at hlen
      omega
    rw [parseUnsigned_point hne hdigits hpad hspell (spellDigits_paddedDigits ..), length_paddedDigits, Nat.mod_mod,
      Nat.div_add_mod']
  · next hs =>
    obtain rfl := Nat.eq_zero_of_not_pos hs
    rw [List.append_nil, parseUnsigned_digits hne hdigits hspell, pow_zero, Nat.div_one]

theorem parseDecimalText_toDecimalText (s : Nat) (u : Int) :
    parseDecimalText (toDecimalText s u) = some { negative := decide (u < 0), digits := u.natAbs, fraction := s } := by
  rw [toDecimalText_eq]
  split
  · next hneg =>
    rw [List.singleton_append, parseDecimalText_minus, parseUnsigned_unsignedText, decide_eq_true hneg]
    rfl
  · next hnonneg =>
    have hparse := parseDecimalText_digits (t' := if 0 < s then '.' :: paddedDigits s (u.natAbs % 10 ^ s) else [])
      (plainDigits_ne_nil (bitlen (u.natAbs / 10 ^ s)) (u.natAbs / 10 ^ s)) (allDigits_plainDigits _ _)
    rw [← unsignedText, parseUnsigned_unsignedText] at hparse
    rw [List.nil_append, hparse, decide_eq_false hnonneg]
    rfl

theorem DecimalText.signed_natAbs (u : Int) (k : Nat) :
    DecimalText.signed { negative := decide (u < 0), digits := u.natAbs, fraction := k } = u := by
  simp only [DecimalText.signed, decide_eq_true_iff]
  split <;> omega

end Sys2Proof.Machine

section
open Sys2Proof Sys2Proof.Machine

/-- Settles O60: the text parses to the value with `s` fraction digits, which the scale factor makes exact again. -/
theorem textRoundTrip : Obligations.TextRoundTrip := by
  intro sel u _
  have hpow : ((10 ^ selScale sel : Nat) : Int) = romSF (selScale sel) := rfl
  have hne : romSF (selScale sel) ≠ 0 := by rw [romSF_eq]; positivity
  rw [fromDecimalText, parseDecimalText_toDecimalText]
  simp only [DecimalText.round, DecimalText.signed_natAbs]
  rw [hpow, rnd_mul_self _ _ hne, fitRounded_ok, fit_inRange (s64_bounds u)]

end
end
